-- ==== Sys2Proof/Word.lean ====
section
/-! DEFINITION. The word types of the engine (spec 00_scope.md R9, R15). -/

namespace Sys2Proof

/-- A byte of data memory (20_memory.md R70). -/
abbrev Byte := BitVec 8

/-- A word of Generator-32 (00_scope.md R9, W = 32). -/
abbrev Word32 := BitVec 32

/-- A word of Generator-64, and the width of a register slot of the window (R9, W = 64; 10_state.md R41). -/
abbrev Word64 := BitVec 64

end Sys2Proof
end

