-- ==== Sys2Proof/Syntax.lean ====
section
/-! DEFINITION. The 14 commands of spec 30_encoding.md R102, one constructor a row of spec/opcode_table.json. -/

namespace Sys2Proof

/-- A command with the one operand its word carries, the HANDLE field (R100). The operands ARG0..ARG3 are registers, not
part of the word (R110). CREATE carries no handle: its HANDLE field must be 0 (R102). -/
inductive Instr where
  | create32
  | destroy32 (handle : Nat)
  | next32 (handle : Nat)
  | fillraw32 (handle : Nat)
  | filluf32 (handle : Nat)
  | fillbi32 (handle : Nat)
  | fillbd32 (handle : Nat)
  | create64
  | destroy64 (handle : Nat)
  | next64 (handle : Nat)
  | fillraw64 (handle : Nat)
  | filluf64 (handle : Nat)
  | fillbi64 (handle : Nat)
  | fillbd64 (handle : Nat)
  deriving DecidableEq, Repr

/-- The two generator variants (00_scope.md R22). -/
inductive Variant where
  | v32
  | v64
  deriving DecidableEq, Repr

/-- The HANDLE field of the command word; 0 for CREATE (R100, R102). -/
def Instr.handle : Instr → Nat
  | .create32 => 0
  | .destroy32 h => h
  | .next32 h => h
  | .fillraw32 h => h
  | .filluf32 h => h
  | .fillbi32 h => h
  | .fillbd32 h => h
  | .create64 => 0
  | .destroy64 h => h
  | .next64 h => h
  | .fillraw64 h => h
  | .filluf64 h => h
  | .fillbi64 h => h
  | .fillbd64 h => h

/-- The variant a command belongs to, its V bit (R101). -/
def Instr.variant : Instr → Variant
  | .create32 => .v32
  | .destroy32 _ => .v32
  | .next32 _ => .v32
  | .fillraw32 _ => .v32
  | .filluf32 _ => .v32
  | .fillbi32 _ => .v32
  | .fillbd32 _ => .v32
  | .create64 => .v64
  | .destroy64 _ => .v64
  | .next64 _ => .v64
  | .fillraw64 _ => .v64
  | .filluf64 _ => .v64
  | .fillbi64 _ => .v64
  | .fillbd64 _ => .v64

/-- Whether a command is a FILL, the only kind that uses the data-memory write port (20_memory.md R70). -/
def Instr.isFill : Instr → Bool
  | .create32 => false
  | .destroy32 _ => false
  | .next32 _ => false
  | .fillraw32 _ => true
  | .filluf32 _ => true
  | .fillbi32 _ => true
  | .fillbd32 _ => true
  | .create64 => false
  | .destroy64 _ => false
  | .next64 _ => false
  | .fillraw64 _ => true
  | .filluf64 _ => true
  | .fillbi64 _ => true
  | .fillbd64 _ => true

end Sys2Proof
end

