-- ==== Sys2Proof/Config.lean ====
section
/-! DEFINITION. The implementation parameters of spec 00_scope.md section 4. They are plain data that State carries and
no step changes, so that a statement about every state covers every value the spec allows. -/

namespace Sys2Proof

/-- Which half of the lane-0 product drives `out[1]` of Generator-32 (00_scope.md R14, 40_generator.md R145). -/
inductive OutSelect where
  | hi
  | lo
  deriving DecidableEq, Repr

/-- A range of data-memory addresses: `base .. base + size - 1`. -/
structure Region where
  base : Nat
  size : Nat
  deriving DecidableEq, Repr

/-- The parameters the spec leaves OPEN or names (00_scope.md R11 to R14 and R24, 20_memory.md R78, R79). -/
structure Params where
  /-- N_SLOTS32 (R11). -/
  nSlots32 : Nat
  /-- N_SLOTS64 (R11). -/
  nSlots64 : Nat
  /-- ADDR_W (R12). -/
  addrW : Nat
  /-- REG_BASE (R13). -/
  regBase : Nat
  /-- P_G32_OUT1 (R14). -/
  g32Out1 : OutSelect
  /-- PLATFORM_COHERENT (R24, R88). -/
  coherent : Bool
  /-- Where in data memory the register window lies, on a platform that maps it there (R79). The spec ties this address to
  nothing: `REG_BASE` is an address of the host's own space, and whether the two spaces coincide is the platform's (R13,
  20_memory.md R70). DESIGN CHOICE, safe (log 2): a parameter of its own, so that every placement is covered. -/
  windowAt : Option Nat
  /-- The parts of data memory that are devices or refuse a write (R78). -/
  deviceRegions : List Region
  deriving DecidableEq, Repr

/-- The register window spans 256 bytes (10_state.md R40). -/
abbrev windowBytes : Nat := 256

/-- The parameters of the spec's test vectors (95_test_vectors.md, conventions), on a coherent platform whose data memory
holds neither a device nor the window. DESIGN CHOICE, unsafe (log 1, 2, 3, 18); HI is the spec's decision (R14, log 4). -/
def Params.vectors : Params where
  nSlots32 := 4
  nSlots64 := 4
  addrW := 64
  regBase := 0
  g32Out1 := .hi
  coherent := true
  windowAt := none
  deviceRegions := []

end Sys2Proof
end

