-- ==== Sys2Proof/WellFormed.lean ====
section
/-! DEFINITION. Which commands have a command word, and which parameters the spec allows. -/

namespace Sys2Proof

/-- The HANDLE field has 8 bits (spec 30_encoding.md R100). -/
abbrev Instr.wf (i : Instr) : Prop := i.handle < 256

/-- The ranges the spec gives the OPEN parameters (00_scope.md R11, R12). -/
structure Params.Wf (p : Params) : Prop where
  slots32_pos : 1 ≤ p.nSlots32
  slots32_le : p.nSlots32 ≤ 255
  slots64_pos : 1 ≤ p.nSlots64
  slots64_le : p.nSlots64 ≤ 255
  addrW_pos : 1 ≤ p.addrW
  addrW_le : p.addrW ≤ 64

/-- `Params.Wf` as a check that evaluates. -/
def Params.wf (p : Params) : Bool :=
  decide (1 ≤ p.nSlots32) && decide (p.nSlots32 ≤ 255) && decide (1 ≤ p.nSlots64) && decide (p.nSlots64 ≤ 255)
    && decide (1 ≤ p.addrW) && decide (p.addrW ≤ 64)

/-- The check is the property. -/
theorem Params.wf_iff (p : Params) : p.wf = true ↔ p.Wf := by
  simp only [Params.wf, Bool.and_eq_true, decide_eq_true_eq]
  constructor
  · rintro ⟨⟨⟨⟨⟨h1, h2⟩, h3⟩, h4⟩, h5⟩, h6⟩
    exact ⟨h1, h2, h3, h4, h5, h6⟩
  · rintro ⟨h1, h2, h3, h4, h5, h6⟩
    exact ⟨⟨⟨⟨⟨h1, h2⟩, h3⟩, h4⟩, h5⟩, h6⟩

end Sys2Proof
end

