-- ==== Sys2Proof/Decode.lean ====
section
/-! DEFINITION. The command word (spec 30_encoding.md R100 to R103): decoder, total, rejecting by name, and encoder. -/

namespace Sys2Proof

/-- Why a command word is illegal (R103). -/
inductive DecodeError where
  /-- RSV0, bits 7:6, is not 0. -/
  | rsv0
  /-- RSV1, bits 31:16, is not 0. -/
  | rsv1
  /-- FN = 0, or `OP[3]` or `OP[5]` is set: no row of R102 has this OP. -/
  | unassignedOp
  /-- A CREATE whose HANDLE is not 0. -/
  | createHandle
  /-- Fewer bytes than a command word has. -/
  | truncated
  deriving DecidableEq, Repr

/-- OP, bits 5:0 (R100). -/
def opField (w : BitVec 32) : Nat := (w.extractLsb' 0 6).toNat

/-- RSV0, bits 7:6 (R100). -/
def rsv0Field (w : BitVec 32) : Nat := (w.extractLsb' 6 2).toNat

/-- HANDLE, bits 15:8, read as unsigned (R100, R111). -/
def handleField (w : BitVec 32) : Nat := (w.extractLsb' 8 8).toNat

/-- RSV1, bits 31:16 (R100). -/
def rsv1Field (w : BitVec 32) : Nat := (w.extractLsb' 16 16).toNat

/-- The command of an OP value with HANDLE `h` (R101, R102); HANDLE of a CREATE is checked by `decode`. -/
def instrOfOp (op h : Nat) : Option Instr :=
  match op with
  | 0x01 => some .create32
  | 0x02 => some (.destroy32 h)
  | 0x03 => some (.next32 h)
  | 0x04 => some (.fillraw32 h)
  | 0x05 => some (.filluf32 h)
  | 0x06 => some (.fillbi32 h)
  | 0x07 => some (.fillbd32 h)
  | 0x11 => some .create64
  | 0x12 => some (.destroy64 h)
  | 0x13 => some (.next64 h)
  | 0x14 => some (.fillraw64 h)
  | 0x15 => some (.filluf64 h)
  | 0x16 => some (.fillbi64 h)
  | 0x17 => some (.fillbd64 h)
  | _ => none

/-- Decoding a command word (R102, R103). -/
def decode (w : BitVec 32) : Except DecodeError Instr :=
  if rsv0Field w ≠ 0 then .error .rsv0
  else if rsv1Field w ≠ 0 then .error .rsv1
  else
    match instrOfOp (opField w) (handleField w) with
    | none => .error .unassignedOp
    | some i => if i.handle = handleField w then .ok i else .error .createHandle

/-- The command word of a 64-bit write to CMD: its low half; bits 63:32 are ignored (10_state.md R42). -/
def commandWord (v : BitVec 64) : BitVec 32 := v.extractLsb' 0 32

/-- Decoding from bytes, the least significant first (20_memory.md R72, log 32): every command is four bytes long
(R113), and the rest of the bytes is given back. -/
def decodeBytes : List Byte → Except DecodeError (Instr × List Byte)
  | b0 :: b1 :: b2 :: b3 :: rest =>
    match decode (b3 ++ b2 ++ b1 ++ b0) with
    | .ok i => .ok (i, rest)
    | .error e => .error e
  | _ => .error .truncated

/-- The OP value of a command (R101, R102). -/
def Instr.opcode : Instr → Nat
  | .create32 => 0x01
  | .destroy32 _ => 0x02
  | .next32 _ => 0x03
  | .fillraw32 _ => 0x04
  | .filluf32 _ => 0x05
  | .fillbi32 _ => 0x06
  | .fillbd32 _ => 0x07
  | .create64 => 0x11
  | .destroy64 _ => 0x12
  | .next64 _ => 0x13
  | .fillraw64 _ => 0x14
  | .filluf64 _ => 0x15
  | .fillbi64 _ => 0x16
  | .fillbd64 _ => 0x17

/-- The command word `OP | (h << 8)` of a command (R100, R121). -/
def encode (i : Instr) : BitVec 32 := BitVec.ofNat 32 (i.opcode ||| (i.handle <<< 8))

/-- A row of the opcode map (R102): a word `w` selects it when `w &&& mask = match`. -/
structure OpcodeRow where
  mnemonic : String
  pattern : BitVec 32
  mask : BitVec 32
  deriving DecidableEq, Repr

/-- The opcode map of R102, as spec/opcode_table.json has it. -/
def opcodeTable : List OpcodeRow := [
  ⟨"CREATE32", 0x00000001#32, 0xFFFFFFFF#32⟩,
  ⟨"DESTROY32", 0x00000002#32, 0xFFFF00FF#32⟩,
  ⟨"NEXT32", 0x00000003#32, 0xFFFF00FF#32⟩,
  ⟨"FILLRAW32", 0x00000004#32, 0xFFFF00FF#32⟩,
  ⟨"FILLUF32", 0x00000005#32, 0xFFFF00FF#32⟩,
  ⟨"FILLBI32", 0x00000006#32, 0xFFFF00FF#32⟩,
  ⟨"FILLBD32", 0x00000007#32, 0xFFFF00FF#32⟩,
  ⟨"CREATE64", 0x00000011#32, 0xFFFFFFFF#32⟩,
  ⟨"DESTROY64", 0x00000012#32, 0xFFFF00FF#32⟩,
  ⟨"NEXT64", 0x00000013#32, 0xFFFF00FF#32⟩,
  ⟨"FILLRAW64", 0x00000014#32, 0xFFFF00FF#32⟩,
  ⟨"FILLUF64", 0x00000015#32, 0xFFFF00FF#32⟩,
  ⟨"FILLBI64", 0x00000016#32, 0xFFFF00FF#32⟩,
  ⟨"FILLBD64", 0x00000017#32, 0xFFFF00FF#32⟩]

/-- The word `w` selects the row (R102). -/
abbrev OpcodeRow.selects (r : OpcodeRow) (w : BitVec 32) : Prop := w &&& r.mask = r.pattern

/-- The row of a command. -/
def Instr.row : Instr → OpcodeRow
  | .create32 => ⟨"CREATE32", 0x00000001#32, 0xFFFFFFFF#32⟩
  | .destroy32 _ => ⟨"DESTROY32", 0x00000002#32, 0xFFFF00FF#32⟩
  | .next32 _ => ⟨"NEXT32", 0x00000003#32, 0xFFFF00FF#32⟩
  | .fillraw32 _ => ⟨"FILLRAW32", 0x00000004#32, 0xFFFF00FF#32⟩
  | .filluf32 _ => ⟨"FILLUF32", 0x00000005#32, 0xFFFF00FF#32⟩
  | .fillbi32 _ => ⟨"FILLBI32", 0x00000006#32, 0xFFFF00FF#32⟩
  | .fillbd32 _ => ⟨"FILLBD32", 0x00000007#32, 0xFFFF00FF#32⟩
  | .create64 => ⟨"CREATE64", 0x00000011#32, 0xFFFFFFFF#32⟩
  | .destroy64 _ => ⟨"DESTROY64", 0x00000012#32, 0xFFFF00FF#32⟩
  | .next64 _ => ⟨"NEXT64", 0x00000013#32, 0xFFFF00FF#32⟩
  | .fillraw64 _ => ⟨"FILLRAW64", 0x00000014#32, 0xFFFF00FF#32⟩
  | .filluf64 _ => ⟨"FILLUF64", 0x00000015#32, 0xFFFF00FF#32⟩
  | .fillbi64 _ => ⟨"FILLBI64", 0x00000016#32, 0xFFFF00FF#32⟩
  | .fillbd64 _ => ⟨"FILLBD64", 0x00000017#32, 0xFFFF00FF#32⟩

/-- What the decoder reads from an instruction of the opcode table with bits `w` of which the table gives `nbits`; the
bits above are 0. A command is one 32-bit word (R113). -/
def decodeTableWord (nbits w : Nat) : Option Instr :=
  match decode (BitVec.ofNat 32 (w % 2 ^ nbits)) with
  | .ok i => some i
  | .error _ => none

end Sys2Proof
end

