-- ==== Sys2Proof/Machine/State.lean ====
section
/-! DEFINITION. The state of the engine and its surroundings (spec 10_state.md), as plain data; its reset value; the
reasons a step can stop. -/

namespace Sys2Proof.Machine

/-- The engine phase (R37); STATUS.BUSY is 1 exactly in `exec` (R46), so BUSY is not stored a second time (log 20). -/
inductive Phase where
  | idle
  | exec
  deriving DecidableEq, Repr

/-- The result codes of STATUS.ERR (60_exceptions.md R231). -/
inductive ResultCode where
  | ok
  | illegal
  | handle
  | noslot
  | align
  | range
  deriving DecidableEq, Repr

/-- The counter of a Generator-32 slot, `CTR[32][h][0..3]` (10_state.md R30). -/
structure Ctr32 where
  c0 : Word32
  c1 : Word32
  c2 : Word32
  c3 : Word32
  deriving DecidableEq, Repr

/-- The counter of a Generator-64 slot, `CTR[64][h][0..1]` (R30). -/
structure Ctr64 where
  c0 : Word64
  c1 : Word64
  deriving DecidableEq, Repr

/-- The key of a slot, `KEY[v][h][0..1]` (R30). -/
structure Key (w : Nat) where
  k0 : BitVec w
  k1 : BitVec w
  deriving DecidableEq, Repr

/-- A slot: LIVE, CTR and KEY (R30). -/
structure Slot (γ : Type) (w : Nat) where
  live : Bool
  ctr : γ
  key : Key w
  deriving DecidableEq, Repr

/-- A bank of four 64-bit registers: ARG0..3, LARG[0..3] or RES0..3 (R37, R43, R44). -/
structure Regs4 where
  r0 : Word64
  r1 : Word64
  r2 : Word64
  r3 : Word64
  deriving DecidableEq, Repr

/-- The progress of a running FILL (R38): `i` elements written, the block `blk` being consumed, its next word `j`. -/
structure Fill (w : Nat) where
  i : Nat
  j : Nat
  blk : List (BitVec w)
  deriving DecidableEq, Repr

/-- Data memory: the bytes that have been written, addresses strictly rising (20_memory.md R70). -/
abbrev Memory := List Host.Cell

/-- An element write that the engine has issued and hosts do not see yet (20_memory.md R81): its bytes from `addr` on, and
whether the command that issued it has ended, which ends the freedom of R81 (R82, R88; log 16). A byte that a younger write
has replaced before this one was seen is `none` (R84). -/
structure Unseen where
  addr : Nat
  bytes : List (Option Byte)
  ended : Bool
  deriving DecidableEq, Repr

/-- A byte of the running FILL's buffer that a host has written (20_memory.md R84, 70_reset_and_hazards.md R266): the host's
last value, what the engine has written there since or before, if it has, and whether the host's value is the one that
stays (model's own, log 14). -/
structure Race where
  addr : Nat
  host : Byte
  engine : Option Byte
  wins : Bool
  deriving DecidableEq, Repr

/-- One access a host issues (10_state.md R41, 20_memory.md R84, R88, 30_encoding.md R121). Bus addresses of the register
window count from REG_BASE on; `width` is in bytes. -/
inductive HostOp where
  /-- A write to the register window. -/
  | regWrite (addr width : Nat) (value : Word64)
  /-- A read of the register window. -/
  | regRead (addr width : Nat)
  /-- WAIT: one poll of STATUS, repeated while BUSY = 1. -/
  | wait
  /-- CHECK: WAIT, then fail when the result code is not 0. -/
  | check
  /-- A write of `bytes` to data memory. `wins` says of each byte whether the host's value is the one that stays where the
  write races with the running FILL (R84). -/
  | memWrite (addr : Nat) (bytes : List Byte) (wins : List Bool)
  /-- A read of `len` bytes of data memory. `early` says of each unseen element write which of its bytes this read sees
  already, an aligned read of exactly the element seeing all of it or nothing (R77, R81; log 15). `engine` says of each byte
  that a host and the running FILL race for whether the read sees the engine's value rather than the host's (R266). -/
  | memRead (addr len : Nat) (early : List (List Bool)) (engine : List Bool)
  /-- Cache maintenance of the host over a range of data memory (R88). -/
  | maintain (addr len : Nat)
  deriving DecidableEq, Repr

/-- A host: the accesses it still has to issue, in order (20_memory.md R83), the value its last register read left, the
bytes its last memory read left, and whether a CHECK failed. -/
structure HostAgent where
  queue : List HostOp
  value : Word64
  bytes : List (Option Byte)
  failed : Bool
  deriving DecidableEq, Repr

/-- What may happen next (60_exceptions.md R244): plain data, so that every interleaving the spec admits is some state's
run (log 9). -/
inductive Event where
  /-- Host `n` issues its next access. -/
  | host (n : Nat)
  /-- The engine takes one step. -/
  | engine
  /-- The `k`-th issued element write becomes visible to other agents (20_memory.md R81). -/
  | reveal (k : Nat)
  /-- The platform asserts reset (70_reset_and_hazards.md R260). -/
  | assertReset
  deriving DecidableEq, Repr

/-- The whole state: the spec's (10_state.md, 20_memory.md) and, last, the model's own fields for the agents around the
engine (log 8, 9, 30). -/
structure State where
  /-- The parameters; no step changes them (00_scope.md section 4). -/
  params : Params
  /-- The Generator-32 slots 1..N_SLOTS32, slot `h` at index `h - 1` (R30). -/
  slots32 : List (Slot Ctr32 32)
  /-- The Generator-64 slots (R30). -/
  slots64 : List (Slot Ctr64 64)
  /-- PHASE and STATUS.BUSY (R37, R46). -/
  phase : Phase
  /-- LCMD (R37). -/
  lcmd : Word32
  /-- LARG[0..3] (R37). -/
  larg : Regs4
  /-- Progress of a running 32-bit FILL (R38). -/
  fill32 : Option (Fill 32)
  /-- Progress of a running 64-bit FILL (R38). -/
  fill64 : Option (Fill 64)
  /-- ARG0..ARG3 (R43). -/
  arg : Regs4
  /-- RES0..RES3 (R44). -/
  res : Regs4
  /-- STATUS.OVR (R47). -/
  ovr : Bool
  /-- STATUS.ERR (R48). -/
  err : ResultCode
  /-- Data memory with every write issued so far (20_memory.md R70). -/
  mem : Memory
  /-- Data memory as the hosts see it (R81, R88; model's own, log 13). -/
  seen : Memory
  /-- Issued element writes that hosts do not see yet, oldest first (R81, R88; model's own, log 13). -/
  unseen : List Unseen
  /-- The bytes that hosts and the running FILL race for (R84; model's own, log 14). -/
  races : List Race
  /-- The hosts (model's own, log 8). -/
  hosts : List HostAgent
  /-- The events to come, first first (model's own, log 9). -/
  sched : List Event
  /-- The platform's reset request (model's own, log 30). -/
  resetReq : Bool
  deriving DecidableEq, Repr

/-- Why the machine is stuck. -/
inductive Fault where
  /-- Raised by an element write of a FILL that data memory refuses: the engine is stuck there (20_memory.md R78, U16).
  Safe. -/
  | refusedWrite (addr : Nat)
  /-- Raised by a host access to an address data memory does not have (20_memory.md R70). Safe. -/
  | noSuchAddress (addr : Nat)
  deriving DecidableEq, Repr

/-- What the model gives no meaning. -/
inductive Refusal where
  /-- Raised by an arm of `exec` whose instruction has no meaning yet. Safe. -/
  | notModelled (mnemonic : String)
  /-- Raised by a FILL whose buffer overlaps the register window on a platform that maps the window into data memory: the
  spec leaves the effect unspecified and asks a model to refuse (20_memory.md R79, U15). Safe. -/
  | windowOverlap
  /-- Raised by a host access to data memory inside a device region, whose behaviour the spec does not give (R78). Safe. -/
  | deviceAccess (addr : Nat)
  deriving DecidableEq, Repr

/-- Four registers that are 0. -/
def Regs4.zero : Regs4 := ⟨0, 0, 0, 0⟩

/-- A 32-bit slot after reset: LIVE = 0 (R30). CTR and KEY are unspecified there; 0 is a DESIGN CHOICE, unsafe (log 5). -/
def Slot.reset32 : Slot Ctr32 32 := ⟨false, ⟨0, 0, 0, 0⟩, ⟨0, 0⟩⟩

/-- A 64-bit slot after reset: LIVE = 0 (R30). CTR and KEY are unspecified there; 0 is a DESIGN CHOICE, unsafe (log 5). -/
def Slot.reset64 : Slot Ctr64 64 := ⟨false, ⟨0, 0⟩, ⟨0, 0⟩⟩

/-- A host with nothing to do. -/
def HostAgent.quiet : HostAgent := ⟨[], 0, [], false⟩

/-- The machine right after power-on reset (70_reset_and_hazards.md R260), for given parameters. LCMD and LARG are
unspecified there; 0 is a DESIGN CHOICE, unsafe (log 6). -/
def State.resetWith (p : Params) : State where
  params := p
  slots32 := List.replicate p.nSlots32 Slot.reset32
  slots64 := List.replicate p.nSlots64 Slot.reset64
  phase := .idle
  lcmd := 0
  larg := Regs4.zero
  fill32 := none
  fill64 := none
  arg := Regs4.zero
  res := Regs4.zero
  ovr := false
  err := .ok
  mem := []
  seen := []
  unseen := []
  races := []
  hosts := [HostAgent.quiet]
  sched := []
  resetReq := false

/-- The machine right after reset, with the parameters of the spec's test vectors (log 1 to 4). -/
def State.reset : State := State.resetWith Params.vectors

end Sys2Proof.Machine
end

