-- ==== Sys2Proof/Machine/Flags.lean ====
section
/-! DEFINITION. The status fields (spec 10_state.md R45 to R49) and the register words a host reads them in. The engine has
no condition codes and no arithmetic flags (R50), so nothing else is a flag. -/

namespace Sys2Proof.Machine

/-- The code of a result (60_exceptions.md R231); no other code exists. -/
def ResultCode.code : ResultCode → BitVec 8
  | .ok => 0x00#8
  | .illegal => 0x01#8
  | .handle => 0x02#8
  | .noslot => 0x03#8
  | .align => 0x04#8
  | .range => 0x05#8

/-- STATUS.BUSY (10_state.md R46): 1 exactly when PHASE = EXEC. -/
def State.busy (s : State) : Bool := decide (s.phase = .exec)

/-- STATUS (R45): ERR in bits 15:8, OVR in bit 1, BUSY in bit 0, every other bit 0. -/
def State.status (s : State) : BitVec 32 :=
  0#16 ++ s.err.code ++ 0#6 ++ BitVec.ofBool s.ovr ++ BitVec.ofBool s.busy

end Sys2Proof.Machine

namespace Sys2Proof

/-- CAPS (R49): ADDR_W in bits 23:16, N_SLOTS64 in bits 15:8, N_SLOTS32 in bits 7:0, bits 31:24 0. -/
def Params.caps (p : Params) : BitVec 32 :=
  0#8 ++ BitVec.ofNat 8 p.addrW ++ BitVec.ofNat 8 p.nSlots64 ++ BitVec.ofNat 8 p.nSlots32

end Sys2Proof
end

