-- ==== Sys2Proof/Machine/Generator.lean ====
section
/-! DEFINITION. The two generator datapaths (spec 40_generator.md): the round and the counter increment. -/

namespace Sys2Proof.Machine

/-- M0_32 (00_scope.md R10). -/
def m0_32 : Word32 := 0xD2511F53#32

/-- M1_32 (R10); no output of a live slot depends on it (40_generator.md R137). -/
def m1_32 : Word32 := 0xCD9E8D57#32

/-- M0_64 (R10). -/
def m0_64 : Word64 := 0xD2B74407B1CE6E93#64

/-- `mulfull_W`: the exact product of two W-bit words (00_scope.md R17). -/
def mulFull {w : Nat} (a b : BitVec w) : BitVec (w + w) := a.setWidth (w + w) * b.setWidth (w + w)

/-- `lo_W` (R17). -/
def loHalf {w : Nat} (p : BitVec (w + w)) : BitVec w := p.extractLsb' 0 w

/-- `hi_W` (R17). -/
def hiHalf {w : Nat} (p : BitVec (w + w)) : BitVec w := p.extractLsb' w w

/-- Round32 (R132), with the parameter P_G32_OUT1 (R145). -/
def round32 (sel : OutSelect) (c : Ctr32) (k : Key 32) : List Word32 :=
  let p0 := mulFull c.c0 m0_32
  let p2 := mulFull c.c2 m1_32
  let out1 := match sel with
    | .hi => hiHalf p0
    | .lo => loHalf p0
  [loHalf p0 ^^^ c.c1 ^^^ k.k0, out1, loHalf p2 ^^^ c.c3 ^^^ k.k1, hiHalf p2]

/-- Advance32 (R133): words 0 and 1 each wrap on their own. -/
def advance32 (c : Ctr32) : Ctr32 := ⟨c.c0 + 1, c.c1 + 1, c.c2, c.c3⟩

/-- Round64 (R140); `k1` enters no output. -/
def round64 (c : Ctr64) (k : Key 64) : List Word64 :=
  let p := mulFull c.c0 m0_64
  [loHalf p ^^^ c.c1 ^^^ k.k0, hiHalf p]

/-- Advance64 (R141). -/
def advance64 (c : Ctr64) : Ctr64 := ⟨c.c0 + 1, c.c1 + 1⟩

/-- The counter CREATE32 sets (41_lifecycle.md R162). -/
def initCtr32 : Ctr32 := ⟨1, 0, 0, 0⟩

/-- The counter CREATE64 sets (R162). -/
def initCtr64 : Ctr64 := ⟨1, 0⟩

end Sys2Proof.Machine
end

