-- ==== Sys2Proof/Machine/Memory.lean ====
section
/-! DEFINITION. Data memory (spec 20_memory.md): one byte read, one byte write, little-endian values, ranges. -/

namespace Sys2Proof.Machine

/-- What an address that nothing has written reads as: no value (log 7). The spec gives data memory no contents of its own
(20_memory.md R79; 70_reset_and_hazards.md R262). -/
def Memory.unlisted : Option Byte := none

/-- The byte at an address. -/
def Memory.get : Memory → Nat → Option Byte
  | [], _ => Memory.unlisted
  | (a, b) :: m, x => if x = a then some b else Memory.get m x

/-- Writing one byte, keeping addresses strictly rising. -/
def Memory.set : Memory → Nat → Byte → Memory
  | [], x, v => [(x, v)]
  | (a, b) :: m, x, v =>
    if x < a then (x, v) :: (a, b) :: m
    else if x = a then (x, v) :: m
    else (a, b) :: Memory.set m x v

/-- Writing bytes at rising addresses from `a` on. -/
def Memory.setBytes (m : Memory) (a : Nat) : List Byte → Memory
  | [] => m
  | b :: bs => Memory.setBytes (Memory.set m a b) (a + 1) bs

/-- Writing at rising addresses the bytes that are present. -/
def Memory.setSome (m : Memory) (a : Nat) : List (Option Byte) → Memory
  | [] => m
  | none :: bs => Memory.setSome m (a + 1) bs
  | some b :: bs => Memory.setSome (Memory.set m a b) (a + 1) bs

/-- The canonical form: addresses strictly rising. No entry can equal what an unlisted address reads as, since that is no
byte. -/
abbrev Memory.wf (m : Memory) : Prop := List.Pairwise (fun c d : Host.Cell => c.1 < d.1) m

/-- Every listed address is below `n`. -/
abbrev Memory.Below (n : Nat) (m : Memory) : Prop := ∀ c ∈ m, c.1 < n

/-- The `n` bytes of a value, the least significant first: byte `k` is bits `8k+7 : 8k` (R72). -/
def leBytes {w : Nat} (n : Nat) (v : BitVec w) : List Byte :=
  (List.range n).map fun k => v.extractLsb' (8 * k) 8

/-- The number whose bytes are given, the least significant first (R72). -/
def leNat : List Byte → Nat
  | [] => 0
  | b :: bs => b.toNat + 256 * leNat bs

/-- `MemWrite(addr, n, v)` (00_scope.md R20, 20_memory.md R72). -/
def Memory.write {w : Nat} (m : Memory) (addr n : Nat) (v : BitVec w) : Memory :=
  m.setBytes addr (leBytes n v)

/-- The ranges `a .. a + n - 1` and `b .. b + k - 1` share an address. -/
def rangesMeet (a n b k : Nat) : Bool :=
  decide (a < b + k) && decide (b < a + n) && decide (0 < n) && decide (0 < k)

end Sys2Proof.Machine

namespace Sys2Proof

open Sys2Proof.Machine

/-- The range `a .. a + n - 1` holds an address of a device or of memory that refuses writes (R78). -/
def Params.refuses (p : Params) (a n : Nat) : Bool :=
  p.deviceRegions.any fun r => rangesMeet a n r.base r.size

/-- The range `a .. a + n - 1` overlaps the register window, on a platform that maps it into data memory (R79), at the
address the platform gives it there (log 2). -/
def Params.windowMeets (p : Params) (a n : Nat) : Bool :=
  match p.windowAt with
  | some base => rangesMeet a n base windowBytes
  | none => false

/-- Data memory has `2^ADDR_W` bytes (R70). -/
def Params.memBytes (p : Params) : Nat := 2 ^ p.addrW

end Sys2Proof
end

