-- ==== Sys2Proof/Machine/Operands.lean ====
section
/-! DEFINITION. The operands a command takes from LARG (spec 30_encoding.md R110, R111). HANDLE comes from the command
word (Decode.lean). -/

namespace Sys2Proof.Machine

/-- `base`: the whole of LARG[0], unsigned. -/
def State.base (s : State) : Nat := s.larg.r0.toNat

/-- `count`: the whole of LARG[1], unsigned. -/
def State.count (s : State) : Nat := s.larg.r1.toNat

/-- seedWord0, W bits of LARG[0]; the bits above are ignored (R110, R111). -/
def State.seed0 (w : Nat) (s : State) : BitVec w := s.larg.r0.setWidth w

/-- seedWord1, W bits of LARG[1]. -/
def State.seed1 (w : Nat) (s : State) : BitVec w := s.larg.r1.setWidth w

/-- The bits of `min`, W bits of LARG[2]: signed for FILLBI, an FN pattern for FILLBD. -/
def State.minBits (w : Nat) (s : State) : BitVec w := s.larg.r2.setWidth w

/-- The bits of `max`, W bits of LARG[3]. -/
def State.maxBits (w : Nat) (s : State) : BitVec w := s.larg.r3.setWidth w

end Sys2Proof.Machine
end

