-- ==== Sys2Proof/Machine/Visibility.lean ====
section
/-! DEFINITION. What hosts see of the engine's element writes and of races with them (spec 20_memory.md R77, R81, R82, R84,
R88; 70_reset_and_hazards.md R266). Log 13 to 15. -/

namespace Sys2Proof.Machine

/-! ## Unseen element writes -/

/-- The byte an unseen write holds for an address. -/
def Unseen.byteAt (u : Unseen) (a : Nat) : Option Byte :=
  if u.addr ≤ a then u.bytes.getD (a - u.addr) none else none

/-- The write with its byte for one address replaced by a younger write. -/
def Unseen.hide (a : Nat) (u : Unseen) : Unseen :=
  if u.addr ≤ a then { u with bytes := u.bytes.set (a - u.addr) none } else u

/-- The write with every byte gone that one of the writes `younger` replaces. -/
def Unseen.under (younger : List Unseen) (u : Unseen) : Unseen :=
  { u with bytes := u.bytes.mapIdx fun k b => if younger.any fun w => (w.byteAt (u.addr + k)).isSome then none else b }

/-- The view `v` once the write is seen. -/
def Unseen.showIn (v : Memory) (u : Unseen) : Memory := v.setSome u.addr u.bytes

/-- The byte at `a` once all unseen writes are seen, over a view that holds `v` there. -/
def newest : List Unseen → Nat → Option Byte → Option Byte
  | [], _, v => v
  | u :: us, a, v => newest us a ((u.byteAt a).or v)

/-- The writes marked. -/
def shown (l : List (Unseen × Bool)) : List Unseen := (l.filter fun p => p.2).map fun p => p.1

/-- The writes not marked, less the bytes that younger marked ones replace (R84: a later write to an address overwrites an
earlier one). -/
def stay : List (Unseen × Bool) → List Unseen
  | [] => []
  | (_, true) :: r => stay r
  | (u, false) :: r => u.under (shown r) :: stay r

/-- The marked writes become visible to hosts. -/
def State.revealMarked (l : List (Unseen × Bool)) (s : State) : State :=
  { s with seen := (shown l).foldl Unseen.showIn s.seen, unseen := stay l }

/-- The `k`-th unseen write becomes visible to hosts (R81). -/
def State.reveal (k : Nat) (s : State) : State := s.revealMarked (s.unseen.mapIdx fun i u => (u, decide (i = k)))

/-- Cache maintenance over a range: every unseen write of an ended command that touches it becomes visible (R88). Those of the
running command do not: any subset of them may be visible while BUSY = 1 (R81; DESIGN CHOICE, log 16). -/
def State.maintain (addr len : Nat) (s : State) : State :=
  s.revealMarked (s.unseen.map fun u => (u, u.ended && rangesMeet u.addr u.bytes.length addr len))

/-! ## Races -/

/-- The race for an address. -/
def raceAt (races : List Race) (a : Nat) : Option Race := races.find? fun r => r.addr == a

/-- The byte a race leaves (R84): the host's where it wins or the engine has written nothing there. -/
def Race.final (r : Race) : Byte := if r.wins then r.host else r.engine.getD r.host

/-- The race once the engine has issued an element write. -/
def Race.meet (addr : Nat) (bytes : List Byte) (r : Race) : Race :=
  if addr ≤ r.addr ∧ r.addr < addr + bytes.length then { r with engine := bytes[r.addr - addr]? } else r

/-- What memory holds of an element write: of each byte a host has won, the host's value (R84). -/
def keepHostWins (races : List Race) (addr : Nat) (bytes : List Byte) : List Byte :=
  bytes.mapIdx fun k b =>
    match raceAt races (addr + k) with
    | some r => if r.wins then r.host else b
    | none => b

/-- Unseen writes with only the youngest byte for `a` left. -/
def hideOlder (a : Nat) : List Unseen → List Unseen
  | [] => []
  | u :: us => (if us.any fun w => (w.byteAt a).isSome then u.hide a else u) :: hideOlder a us

/-- The hosts' view after a race: the host's value where it stays; else the host's value until the engine's is seen. -/
def endRace (r : Race) (v : Memory × List Unseen) : Memory × List Unseen :=
  match r.wins, r.engine with
  | false, some e =>
    if v.2.any fun u => (u.byteAt r.addr).isSome then (v.1.set r.addr r.host, hideOlder r.addr v.2)
    else (v.1.set r.addr e, v.2)
  | _, _ => (v.1.set r.addr r.host, v.2.map (Unseen.hide r.addr))

/-- The write once its command has ended. -/
def Unseen.atEnd (u : Unseen) : Unseen := { u with ended := true }

/-- The hosts' view when a command has ended: on a coherent platform all that memory holds (R82); on another the unseen
writes stay unseen, until the host's cache maintenance (R88). The races are over in both (R266). -/
def State.settledView (s : State) : Memory × List Unseen :=
  if s.params.coherent then (s.mem, [])
  else ((s.races.foldr endRace (s.seen, s.unseen)).1, (s.races.foldr endRace (s.seen, s.unseen)).2.map Unseen.atEnd)

/-! ## Reads -/

/-- A read of `len` bytes from `addr` on sees the byte at `a` of the unseen write: by the write's first flag when the read is
of exactly that element (R77), else by the byte's own. -/
def Unseen.inRead (u : Unseen) (addr len a : Nat) (flags : List Bool) : Bool :=
  if u.addr = addr ∧ u.bytes.length = len then flags.headD false else flags.getD (a - u.addr) false

/-- The byte at `a` that a read sees, over a view that holds `v` there. -/
def seenInRead (addr len a : Nat) : List Unseen → List (List Bool) → Option Byte → Option Byte
  | [], _, v => v
  | u :: us, early, v =>
    seenInRead addr len a us early.tail (if u.inRead addr len a (early.headD []) then (u.byteAt a).or v else v)

/-- The read sees the youngest unseen write over `a`, if there is one. -/
def youngestInRead (addr len a : Nat) : List Unseen → List (List Bool) → Bool → Bool
  | [], _, v => v
  | u :: us, early, v =>
    youngestInRead addr len a us early.tail
      (if (u.byteAt a).isSome then u.inRead addr len a (early.headD []) else v)

/-- The byte at `a` that a host read of `len` bytes from `addr` on sees. A byte raced for is the host's or, where the
engine's element is visible to the read, the engine's (R266). -/
def State.viewByte (addr len : Nat) (early : List (List Bool)) (engine : Bool) (a : Nat) (s : State) : Option Byte :=
  match raceAt s.races a with
  | none => seenInRead addr len a s.unseen early (s.seen.get a)
  | some r =>
    if engine ∧ r.engine.isSome ∧ youngestInRead addr len a s.unseen early true then r.engine else some r.host

end Sys2Proof.Machine
end

