-- ==== Sys2Proof/Machine/Ops.lean ====
section
/-! DEFINITION. The operations the meanings share: acceptance, completion, raising an error, reset, slots, and the
procedures of CREATE, DESTROY, NEXT and FILL, each written once for both variants. -/

namespace Sys2Proof.Machine

/-- What a step answers. -/
abbrev Result := Host.Outcome State Fault Refusal

/-! ## Acceptance, completion, reset -/

/-- Acceptance of the command word `w` (30_encoding.md R104): LCMD and LARG are latched, ERR and OVR clear, the phase is
EXEC. No fill progress exists yet (10_state.md R38). -/
def State.accept (w : Word32) (s : State) : State :=
  { s with
    lcmd := w
    larg := s.arg
    err := .ok
    ovr := false
    phase := .exec
    fill32 := none
    fill64 := none
    races := [] }

/-- Completion with a result code (30_encoding.md R106). On a coherent platform every element write is now seen by all
agents (20_memory.md R82); fill progress is gone (10_state.md R38), and so is every race with it (R84, R266). -/
def State.complete (code : ResultCode) (s : State) : State :=
  { s with
    phase := .idle
    err := code
    fill32 := none
    fill64 := none
    seen := s.settledView.1
    unseen := s.settledView.2
    races := [] }

/-- `raise E_X()` (00_scope.md R20): the engine's one way to report an error. It takes no trap: the command completes with
the code and changes nothing else (60_exceptions.md R230, R238, R240). -/
def State.raise (code : ResultCode) (s : State) : State := s.complete code

/-- Successful completion without results (30_encoding.md R106, R112). -/
def State.succeed (s : State) : State := s.complete .ok

/-- Successful completion with results in RES0..3 (R106, R112). -/
def State.succeedWith (r : Regs4) (s : State) : State := { s.complete .ok with res := r }

/-- Reset (70_reset_and_hazards.md R260 to R262): all state of the engine goes to its reset value, data memory stays. The
values of CTR, KEY, LCMD and LARG, which the spec leaves unspecified, are those of `State.reset` (log 5, 6). -/
def State.doReset (s : State) : State :=
  { s with
    slots32 := List.replicate s.params.nSlots32 Slot.reset32
    slots64 := List.replicate s.params.nSlots64 Slot.reset64
    phase := .idle
    lcmd := 0
    larg := Regs4.zero
    fill32 := none
    fill64 := none
    arg := Regs4.zero
    res := Regs4.zero
    ovr := false
    err := .ok
    seen := s.settledView.1
    unseen := s.settledView.2
    races := []
    resetReq := false }

/-! ## The two variants -/

/-- What differs between the two variants: where their slots and fill progress stand, B, E, and the two functions of the
datapath (00_scope.md R9, 40_generator.md). -/
structure Gen (w : Nat) (γ : Type) where
  nSlots : Params → Nat
  slots : State → List (Slot γ w)
  withSlots : List (Slot γ w) → State → State
  fill : State → Option (Fill w)
  withFill : Option (Fill w) → State → State
  blockLen : Nat
  elemBytes : Nat
  initCtr : γ
  round : Params → γ → Key w → List (BitVec w)
  advance : γ → γ

/-- Generator-32 and its kernels. -/
def gen32 : Gen 32 Ctr32 where
  nSlots p := p.nSlots32
  slots s := s.slots32
  withSlots l s := { s with slots32 := l }
  fill s := s.fill32
  withFill f s := { s with fill32 := f }
  blockLen := 4
  elemBytes := 4
  initCtr := initCtr32
  round p c k := round32 p.g32Out1 c k
  advance := advance32

/-- Generator-64 and its kernels. -/
def gen64 : Gen 64 Ctr64 where
  nSlots p := p.nSlots64
  slots s := s.slots64
  withSlots l s := { s with slots64 := l }
  fill s := s.fill64
  withFill f s := { s with fill64 := f }
  blockLen := 2
  elemBytes := 8
  initCtr := initCtr64
  round _ c k := round64 c k
  advance := advance64

section Procedures

variable {w : Nat} {γ : Type}

/-! ## Slots -/

/-- The slot a handle names, when it names a live one: `h ≠ 0`, `h ≤ N_SLOTSv`, `LIVE[v][h] = 1` (60_exceptions.md R232). -/
def Gen.liveSlot (g : Gen w γ) (h : Nat) (s : State) : Option (Slot γ w) :=
  if h = 0 ∨ g.nSlots s.params < h then none
  else
    match (g.slots s)[h - 1]? with
    | some sl => if sl.live then some sl else none
    | none => none

/-- Writing slot `h`. -/
def Gen.setSlot (g : Gen w γ) (h : Nat) (sl : Slot γ w) (s : State) : State :=
  g.withSlots ((g.slots s).set (h - 1) sl) s

/-- The handle of the lowest-numbered slot whose LIVE bit is 0 (41_lifecycle.md R165). -/
def Gen.freeHandle (g : Gen w γ) (s : State) : Option Nat :=
  (((g.slots s).take (g.nSlots s.params)).findIdx? fun sl => !sl.live).map (· + 1)

/-! ## CREATE, DESTROY, NEXT -/

/-- CREATE (41_lifecycle.md R163, R164). -/
def Gen.create (g : Gen w γ) (s : State) : Result :=
  match g.freeHandle s with
  | none => .next (s.raise .noslot)
  | some h =>
    .next ((g.setSlot h ⟨true, g.initCtr, ⟨s.seed0 w, s.seed1 w⟩⟩ s).succeedWith ⟨BitVec.ofNat 64 h, 0, 0, 0⟩)

/-- DESTROY (41_lifecycle.md R166, R167): handle 0 is a no-op; CTR and KEY stay (10_state.md R33). -/
def Gen.destroy (g : Gen w γ) (h : Nat) (s : State) : Result :=
  if h = 0 then .next s.succeed
  else
    match g.liveSlot h s with
    | none => .next (s.raise .handle)
    | some sl => .next (g.setSlot h { sl with live := false } s).succeed

/-- The RES registers a block fills: its words zero-extended, the rest 0 (30_encoding.md R112). -/
def blockRes (blk : List (BitVec w)) : Regs4 :=
  ⟨(blk.getD 0 0).setWidth 64, (blk.getD 1 0).setWidth 64, (blk.getD 2 0).setWidth 64, (blk.getD 3 0).setWidth 64⟩

/-- Slot `h` with its counter advanced by one round (40_generator.md R133, R141). -/
def Gen.advanceSlot (g : Gen w γ) (h : Nat) (sl : Slot γ w) (s : State) : State :=
  g.setSlot h { sl with ctr := g.advance sl.ctr } s

/-- NEXT (40_generator.md R135, R143): the round of the counter before the increment goes to RES. -/
def Gen.next (g : Gen w γ) (h : Nat) (s : State) : Result :=
  match g.liveSlot h s with
  | none => .next (s.raise .handle)
  | some sl => .next ((g.advanceSlot h sl s).succeedWith (blockRes (g.round s.params sl.ctr sl.key)))

/-! ## FILL -/

/-- The address of element `i` (20_memory.md R73). -/
def Gen.elemAddr (g : Gen w γ) (i : Nat) (s : State) : Nat := s.base + i * g.elemBytes

/-- The size in bytes of the buffer of a FILL (20_memory.md R75). -/
def Gen.bufferBytes (g : Gen w γ) (s : State) : Nat := s.count * g.elemBytes

/-- The error of a FILL's buffer, in the order of 60_exceptions.md R237: alignment (R234), then range (R235). Only asked
when `count > 0` (20_memory.md R74, R75). -/
def Gen.bufferError (g : Gen w γ) (s : State) : Option ResultCode :=
  if s.base % g.elemBytes ≠ 0 then some .align
  else if s.params.memBytes < s.base + g.bufferBytes s then some .range
  else none

/-- The engine step that computes a round of slot `h` with `i` elements written so far (42_kernels.md R181): BLK and the
counter change together, J restarts. -/
def Gen.fillRound (g : Gen w γ) (h : Nat) (sl : Slot γ w) (i : Nat) (s : State) : State :=
  g.withFill (some ⟨i, 0, g.round s.params sl.ctr sl.key⟩) (g.advanceSlot h sl s)

/-- The engine step that writes one element (42_kernels.md R181), `T(BLK[J])` at `base + I*E`. The write is issued in order
and hosts do not see it yet (20_memory.md R81, log 13). A refused write leaves the engine stuck (R78). -/
def Gen.fillElement (g : Gen w γ) (t : BitVec w → BitVec w) (p : Fill w) (s : State) : Result :=
  let addr := g.elemAddr p.i s
  let bytes := leBytes g.elemBytes (t (p.blk.getD p.j 0))
  if s.params.refuses addr g.elemBytes then .fault (.refusedWrite addr)
  else
    .next
      (g.withFill (some ⟨p.i + 1, p.j + 1, p.blk⟩)
        { s with
          mem := s.mem.setBytes addr (keepHostWins s.races addr bytes)
          unseen := s.unseen ++ [⟨addr, bytes.map some, false⟩]
          races := s.races.map (Race.meet addr bytes) })

/-- One engine step of a FILL with transform `t` (42_kernels.md R181). The checks come first, in the order of
60_exceptions.md R237; they read only LARG, the parameters and LIVE, which do not change while the command runs, so that
asking them again in a later step changes nothing (log 12). Then: the first round, an element write, a further round, or the
completion. -/
def Gen.fillStep (g : Gen w γ) (t : BitVec w → BitVec w) (h : Nat) (s : State) : Result :=
  match g.liveSlot h s with
  | none => .next (s.raise .handle)
  | some sl =>
    if s.count = 0 then .next s.succeed
    else
      match g.bufferError s with
      | some code => .next (s.raise code)
      | none =>
        if s.params.windowMeets s.base (g.bufferBytes s) then .refused .windowOverlap
        else
          match g.fill s with
          | none => .next (g.fillRound h sl 0 s)
          | some p =>
            if s.count ≤ p.i then .next s.succeed
            else if p.j < g.blockLen then g.fillElement t p s
            else .next (g.fillRound h sl p.i s)

end Procedures

end Sys2Proof.Machine
end

