-- ==== Sys2Proof/Machine/Float.lean ====
section
/-! DEFINITION. The floating-point primitives of spec 00_scope.md R18: IEEE 754 binary32 and binary64, each operation
computing the exact result and rounding it once to nearest, ties to even. The layout of the formats and the sign of a zero
result are PRESUMED (log 25). -/

namespace Sys2Proof.Machine

/-- A binary format: `prec` significand bits with the leading one, `fracBits` of them stored, `expBits` exponent bits; the
finite values are `± m * 2^e` with `m < 2^prec` and `minExp ≤ e ≤ maxExp`. -/
structure FloatFormat where
  fracBits : Nat
  expBits : Nat
  minExp : Int
  maxExp : Int
  deriving DecidableEq, Repr

/-- Significand bits, the leading one among them. -/
def FloatFormat.prec (f : FloatFormat) : Nat := f.fracBits + 1

/-- binary32 (R18, F32). -/
def binary32 : FloatFormat := ⟨23, 8, -149, 104⟩

/-- binary64 (R18, F64). -/
def binary64 : FloatFormat := ⟨52, 11, -1074, 971⟩

/-- A floating-point value. A NaN has no payload here, since no rule writes one out (log 26). A finite value is
`± m * 2^e`, kept as the format encodes it: `m` has `prec` bits, or `e` is the format's least exponent. -/
inductive FloatVal where
  | nan
  | inf (neg : Bool)
  | fin (neg : Bool) (m : Nat) (e : Int)
  deriving DecidableEq, Repr

/-- The value a bit pattern encodes. -/
def FloatVal.unpack {w : Nat} (f : FloatFormat) (bits : BitVec w) : FloatVal :=
  let n := bits.toNat
  let frac := n % 2 ^ f.fracBits
  let ex := n / 2 ^ f.fracBits % 2 ^ f.expBits
  let neg := decide (n / 2 ^ (f.fracBits + f.expBits) % 2 = 1)
  if ex = 2 ^ f.expBits - 1 then
    if frac = 0 then .inf neg else .nan
  else if ex = 0 then .fin neg frac f.minExp
  else .fin neg (2 ^ f.fracBits + frac) (f.minExp + (ex : Int) - 1)

/-- The bit pattern of a value; for a NaN, one of its patterns (no rule writes a NaN out, log 26). -/
def FloatVal.pack (w : Nat) (f : FloatFormat) (x : FloatVal) : BitVec w :=
  let top := 2 ^ (f.fracBits + f.expBits)
  let infPat := (2 ^ f.expBits - 1) * 2 ^ f.fracBits
  match x with
  | .nan => BitVec.ofNat w (infPat + 2 ^ (f.fracBits - 1))
  | .inf neg => BitVec.ofNat w ((if neg then top else 0) + infPat)
  | .fin neg m e =>
    if m < 2 ^ f.fracBits then BitVec.ofNat w ((if neg then top else 0) + m)
    else
      BitVec.ofNat w
        ((if neg then top else 0) + (e - f.minExp + 1).toNat * 2 ^ f.fracBits + (m - 2 ^ f.fracBits))

/-- `num / den` to the nearest integer, ties to even; `den` is positive. -/
def roundDiv (num den : Nat) : Nat :=
  let q := num / den
  let r := num % den
  if 2 * r < den then q
  else if den < 2 * r then q + 1
  else if q % 2 = 0 then q else q + 1

/-- The integer `k` with `2^k ≤ num / den < 2^(k+1)`; both are positive. -/
def floorLog2 (num den : Nat) : Int :=
  let k : Int := (num.log2 : Int) - (den.log2 : Int)
  if den * 2 ^ k.toNat ≤ num * 2 ^ (-k).toNat then k else k - 1

/-- The exact value `± (num / den) * 2^e` rounded once to the format, to nearest, ties to even (R18). `den` is positive. -/
def roundTo (f : FloatFormat) (neg : Bool) (num den : Nat) (e : Int) : FloatVal :=
  if num = 0 then .fin neg 0 f.minExp
  else
    let q := max f.minExp (floorLog2 num den + e - f.fracBits)
    let m := roundDiv (num * 2 ^ (e - q).toNat) (den * 2 ^ (q - e).toNat)
    if m < 2 ^ f.prec then
      if q ≤ f.maxExp then .fin neg m q else .inf neg
    else
      if q + 1 ≤ f.maxExp then .fin neg (2 ^ f.fracBits) (q + 1) else .inf neg

/-- `to_fN(u)` (R18). -/
def FloatVal.ofUint (f : FloatFormat) (u : Nat) : FloatVal := roundTo f false u 1 0

/-- The value with its sign turned. -/
def FloatVal.neg : FloatVal → FloatVal
  | .nan => .nan
  | .inf s => .inf (!s)
  | .fin s m e => .fin (!s) m e

/-- `± m` as an integer. -/
def signedNat (neg : Bool) (m : Nat) : Int := if neg then -(m : Int) else (m : Int)

/-- `fadd_N` (R18). An exact zero sum is +0 unless both operands are negative (log 25). -/
def FloatVal.add (f : FloatFormat) : FloatVal → FloatVal → FloatVal
  | .nan, _ => .nan
  | .inf _, .nan => .nan
  | .inf s, .inf t => if s = t then .inf s else .nan
  | .inf s, .fin _ _ _ => .inf s
  | .fin _ _ _, .nan => .nan
  | .fin _ _ _, .inf t => .inf t
  | .fin s m e, .fin t n d =>
    let low := min e d
    let sum := signedNat s m * 2 ^ (e - low).toNat + signedNat t n * 2 ^ (d - low).toNat
    if sum = 0 then .fin (s && t) 0 f.minExp
    else roundTo f (decide (sum < 0)) sum.natAbs 1 low

/-- `fsub_N` (R18). -/
def FloatVal.sub (f : FloatFormat) (x y : FloatVal) : FloatVal := x.add f y.neg

/-- `fmul_N` (R18). -/
def FloatVal.mul (f : FloatFormat) : FloatVal → FloatVal → FloatVal
  | .nan, _ => .nan
  | .inf _, .nan => .nan
  | .inf s, .inf t => .inf (s != t)
  | .inf s, .fin t n _ => if n = 0 then .nan else .inf (s != t)
  | .fin _ _ _, .nan => .nan
  | .fin s m _, .inf t => if m = 0 then .nan else .inf (s != t)
  | .fin s m e, .fin t n d => roundTo f (s != t) (m * n) 1 (e + d)

/-- `fdiv_N` (R18). -/
def FloatVal.div (f : FloatFormat) : FloatVal → FloatVal → FloatVal
  | .nan, _ => .nan
  | .inf _, .nan => .nan
  | .inf _, .inf _ => .nan
  | .inf s, .fin t _ _ => .inf (s != t)
  | .fin _ _ _, .nan => .nan
  | .fin s _ _, .inf t => .fin (s != t) 0 f.minExp
  | .fin s m e, .fin t n d =>
    if n = 0 then (if m = 0 then .nan else .inf (s != t))
    else roundTo f (s != t) m n (e - d)

/-- `ffloor_N` (R18): the largest integral value not above `x`; `x` itself when it is NaN, an infinity or a zero. -/
def FloatVal.floor (f : FloatFormat) : FloatVal → FloatVal
  | .nan => .nan
  | .inf s => .inf s
  | .fin s m e =>
    if m = 0 ∨ 0 ≤ e then .fin s m e
    else
      let unit := 2 ^ (-e).toNat
      let q := m / unit
      roundTo f s (if s ∧ m % unit ≠ 0 then q + 1 else q) 1 0

/-- `sat_uW(f)` (42_kernels.md R196): NaN and everything below 1 give 0, everything from `2^W` on gives `2^W - 1`, the rest
is truncated. -/
def FloatVal.satU (w : Nat) : FloatVal → BitVec w
  | .nan => 0
  | .inf neg => if neg then 0 else BitVec.ofNat w (2 ^ w - 1)
  | .fin neg m e =>
    if neg then 0
    else
      let t := m * 2 ^ e.toNat / 2 ^ (-e).toNat
      if 2 ^ w ≤ t then BitVec.ofNat w (2 ^ w - 1) else BitVec.ofNat w t

end Sys2Proof.Machine
end

