-- ==== Sys2Proof/Machine/Transforms.lean ====
section
/-! DEFINITION. The four transforms of the sampling kernels (spec 42_kernels.md R190 to R198), at a word width `w` and, for
the float kernels, the format of that width. -/

namespace Sys2Proof.Machine

/-- T_RAW (R190). -/
def tRaw {w : Nat} (x : BitVec w) : BitVec w := x

/-- The uniform value `fdiv_N(to_fN(w), 2^W)` (R191). `2^W` is exact in the format. -/
def uniform {w : Nat} (f : FloatFormat) (x : BitVec w) : FloatVal :=
  (FloatVal.ofUint f x.toNat).div f (.fin false (2 ^ f.fracBits) ((w : Int) - f.fracBits))

/-- T_UF (R191): the bit pattern of the uniform value. -/
def tUf {w : Nat} (f : FloatFormat) (x : BitVec w) : BitVec w := (uniform f x).pack w f

/-- T_BI (R193; R194 when `mx < mn`): `x` unsigned, the bounds two's complement, all arithmetic exact. -/
def tBi {w : Nat} (mn mx x : BitVec w) : BitVec w :=
  if mn.toInt ≤ mx.toInt then
    BitVec.ofInt w (mn.toInt + (x.toNat : Int) % (mx.toInt - mn.toInt + 1))
  else BitVec.ofInt w (mn.toInt + (x.toNat : Int))

/-- The scaled value `s` of R195, before the floor: five rounded operations in the formula's order, none fused. -/
def scaled {w : Nat} (f : FloatFormat) (mn mx x : BitVec w) : FloatVal :=
  let mnf := FloatVal.unpack f mn
  let mxf := FloatVal.unpack f mx
  let a := FloatVal.ofUint f x.toNat
  let m := FloatVal.ofUint f (2 ^ w - 1)
  let q := a.div f m
  let d := mxf.sub f mnf
  let p := q.mul f d
  p.add f mnf

/-- T_BD (R195, R196). The bounds are never checked (R198). -/
def tBd {w : Nat} (f : FloatFormat) (mn mx x : BitVec w) : BitVec w :=
  ((scaled f mn mx x).floor f).satU w

end Sys2Proof.Machine
end

