-- ==== Sys2Proof/Machine/Kernels.lean ====
section
/-! DEFINITION. The eight FILL commands (spec 42_kernels.md R200 to R207): each is one engine step of the fill procedure
(R181) with its transform, taken again until the command completes. -/

namespace Sys2Proof.Machine

/-- FILLRAW32 (R200). -/
def execFillraw32 (handle : Nat) (s : State) : Result := gen32.fillStep tRaw handle s

/-- FILLUF32 (R202). -/
def execFilluf32 (handle : Nat) (s : State) : Result := gen32.fillStep (tUf binary32) handle s

/-- FILLBI32 (R204): the bounds are bits 31:0 of LARG[2] and LARG[3], signed. -/
def execFillbi32 (handle : Nat) (s : State) : Result := gen32.fillStep (tBi (s.minBits 32) (s.maxBits 32)) handle s

/-- FILLBD32 (R206): the bounds are bits 31:0 of LARG[2] and LARG[3], binary32 patterns. -/
def execFillbd32 (handle : Nat) (s : State) : Result :=
  gen32.fillStep (tBd binary32 (s.minBits 32) (s.maxBits 32)) handle s

/-- FILLRAW64 (R201). -/
def execFillraw64 (handle : Nat) (s : State) : Result := gen64.fillStep tRaw handle s

/-- FILLUF64 (R203). -/
def execFilluf64 (handle : Nat) (s : State) : Result := gen64.fillStep (tUf binary64) handle s

/-- FILLBI64 (R205): the bounds are LARG[2] and LARG[3], signed. -/
def execFillbi64 (handle : Nat) (s : State) : Result := gen64.fillStep (tBi (s.minBits 64) (s.maxBits 64)) handle s

/-- FILLBD64 (R207): the bounds are LARG[2] and LARG[3], binary64 patterns. -/
def execFillbd64 (handle : Nat) (s : State) : Result :=
  gen64.fillStep (tBd binary64 (s.minBits 64) (s.maxBits 64)) handle s

end Sys2Proof.Machine
end

