-- ==== Sys2Proof/Machine/Lifecycle.lean ====
section
/-! DEFINITION. CREATE and DESTROY of both variants (spec 41_lifecycle.md). -/

namespace Sys2Proof.Machine

/-- CREATE32 (R163). -/
def execCreate32 (s : State) : Result := gen32.create s

/-- DESTROY32 (R166). -/
def execDestroy32 (handle : Nat) (s : State) : Result := gen32.destroy handle s

/-- CREATE64 (R164). -/
def execCreate64 (s : State) : Result := gen64.create s

/-- DESTROY64 (R167). -/
def execDestroy64 (handle : Nat) (s : State) : Result := gen64.destroy handle s

end Sys2Proof.Machine
end

