-- ==== Sys2Proof/Machine/Next.lean ====
section
/-! DEFINITION. NEXT of both variants (spec 40_generator.md). -/

namespace Sys2Proof.Machine

/-- NEXT32 (R135). -/
def execNext32 (handle : Nat) (s : State) : Result := gen32.next handle s

/-- NEXT64 (R143). -/
def execNext64 (handle : Nat) (s : State) : Result := gen64.next handle s

end Sys2Proof.Machine
end

