-- ==== Sys2Proof/Machine/Dispatch.lean ====
section
/-! DEFINITION. One arm a command: one engine step of the command in LCMD (spec 30_encoding.md R102, 42_kernels.md R181). -/

namespace Sys2Proof.Machine

def exec (i : Instr) (s : State) : Host.Outcome State Fault Refusal :=
  match i with
  | .create32 => Sys2Proof.Machine.execCreate32 s
  | .destroy32 h => Sys2Proof.Machine.execDestroy32 h s
  | .next32 h => Sys2Proof.Machine.execNext32 h s
  | .fillraw32 h => Sys2Proof.Machine.execFillraw32 h s
  | .filluf32 h => Sys2Proof.Machine.execFilluf32 h s
  | .fillbi32 h => Sys2Proof.Machine.execFillbi32 h s
  | .fillbd32 h => Sys2Proof.Machine.execFillbd32 h s
  | .create64 => Sys2Proof.Machine.execCreate64 s
  | .destroy64 h => Sys2Proof.Machine.execDestroy64 h s
  | .next64 h => Sys2Proof.Machine.execNext64 h s
  | .fillraw64 h => Sys2Proof.Machine.execFillraw64 h s
  | .filluf64 h => Sys2Proof.Machine.execFilluf64 h s
  | .fillbi64 h => Sys2Proof.Machine.execFillbi64 h s
  | .fillbd64 h => Sys2Proof.Machine.execFillbd64 h s

end Sys2Proof.Machine
end

