-- ==== Sys2Proof/Machine/HostPort.lean ====
section
/-! DEFINITION. What the hosts do (spec 10_state.md R40 to R49, 20_memory.md R77, R81 to R84, R88, 30_encoding.md R104, R105,
R121): accesses to the register window and to data memory. -/

namespace Sys2Proof.Machine

/-! ## The register window -/

/-- The offset in the window of a host bus address (10_state.md R40), when it is in the window. -/
def windowOffset (p : Params) (addr : Nat) : Option Nat :=
  if p.regBase ≤ addr ∧ addr < p.regBase + windowBytes then some (addr - p.regBase) else none

/-- An access the window serves: 64 bits wide, at a multiple of 8 (R41). -/
def servedAccess (off width : Nat) : Bool := decide (width = 8) && decide (off % 8 = 0)

/-- The value a served read of the register at `off` returns (R40, R41): CMD and the reserved offsets read 0. -/
def State.readReg (off : Nat) (s : State) : Word64 :=
  match off with
  | 0x08 => s.arg.r0
  | 0x10 => s.arg.r1
  | 0x18 => s.arg.r2
  | 0x20 => s.arg.r3
  | 0x28 => s.res.r0
  | 0x30 => s.res.r1
  | 0x38 => s.res.r2
  | 0x40 => s.res.r3
  | 0x48 => s.status.setWidth 64
  | 0x50 => s.params.caps.setWidth 64
  | _ => 0

/-- A write to CMD (R42): accepted while BUSY = 0 (30_encoding.md R104), else its only effect is OVR (R105). -/
def State.writeCmd (v : Word64) (s : State) : State :=
  if s.busy then { s with ovr := true } else s.accept (commandWord v)

/-- A served write to the register at `off` (R41): writes to read-only and reserved offsets are ignored. -/
def State.writeReg (off : Nat) (v : Word64) (s : State) : State :=
  match off with
  | 0x00 => s.writeCmd v
  | 0x08 => { s with arg := { s.arg with r0 := v } }
  | 0x10 => { s with arg := { s.arg with r1 := v } }
  | 0x18 => { s with arg := { s.arg with r2 := v } }
  | 0x20 => { s with arg := { s.arg with r3 := v } }
  | _ => s

/-- A host write on the bus: ignored when the window does not serve it (R41). -/
def State.hostRegWrite (addr width : Nat) (v : Word64) (s : State) : State :=
  match windowOffset s.params addr with
  | some off => if servedAccess off width then s.writeReg off v else s
  | none => s

/-- A host read on the bus: 0 when the window does not serve it (R41). -/
def State.hostRegRead (addr width : Nat) (s : State) : Word64 :=
  match windowOffset s.params addr with
  | some off => if servedAccess off width then s.readReg off else 0
  | none => 0

/-! ## Data memory as hosts use it -/

/-- The buffer a running FILL of this variant writes: its base, the end of the part already written, and its end. -/
def Gen.raceRange {w : Nat} {γ : Type} (g : Gen w γ) (h : Nat) (s : State) : Option (Nat × Nat × Nat) :=
  if (g.liveSlot h s).isSome ∧ s.count ≠ 0 ∧ g.bufferError s = none then
    some (s.base, g.elemAddr ((g.fill s).elim 0 fun p => p.i) s, s.base + g.bufferBytes s)
  else none

/-- The buffer of the running command (20_memory.md R84), when it is a FILL that writes one. -/
def State.runningBuffer (s : State) : Option (Nat × Nat × Nat) :=
  match s.phase with
  | .idle => none
  | .exec =>
    match decode s.lcmd with
    | .error _ => none
    | .ok i =>
      if i.isFill then
        match i.variant with
        | .v32 => gen32.raceRange i.handle s
        | .v64 => gen64.raceRange i.handle s
      else none

/-- The byte at `a` of data memory is one of the mapped register window (R79). -/
def inWindow (p : Params) (a : Nat) : Bool :=
  match p.windowAt with
  | some base => decide (base ≤ a) && decide (a < base + windowBytes)
  | none => false

/-- The offset of the register that a data access reaches through the mapped window, when the window serves it (R41, R79). -/
def dataWindowOffset (p : Params) (addr len : Nat) : Option Nat :=
  match p.windowAt with
  | some base =>
    if base ≤ addr ∧ addr < base + windowBytes ∧ servedAccess (addr - base) len then some (addr - base) else none
  | none => none

/-- A host write of one byte that does not race: hosts see it at once, over element writes not yet seen (log 16). -/
def State.storeHostByte (a : Nat) (b : Byte) (s : State) : State :=
  { s with
    mem := s.mem.set a b
    seen := s.seen.set a b
    unseen := s.unseen.map (Unseen.hide a)
    races := s.races.filter fun r => r.addr != a }

/-- A host write of one byte that the running FILL writes: of its buffer the part below `written` has been issued. After
completion the byte holds the host's value when `wins`, the engine's otherwise (20_memory.md R84, log 14). -/
def State.raceHostByte (a written : Nat) (b : Byte) (wins : Bool) (s : State) : State :=
  let engine :=
    match raceAt s.races a with
    | some r => r.engine
    | none => if a < written then s.mem.get a else none
  let race : Race := ⟨a, b, engine, wins⟩
  { s with mem := s.mem.set a race.final, races := race :: s.races.filter fun r => r.addr != a }

/-- A host write of one byte of data memory. A byte of the mapped window is no memory: an access the window does not serve
is ignored there (R41, log 19). -/
def State.hostWriteByte (a : Nat) (b : Byte) (wins : Bool) (s : State) : State :=
  if inWindow s.params a then s
  else
    match s.runningBuffer with
    | none => s.storeHostByte a b
    | some (lo, written, hi) => if lo ≤ a ∧ a < hi then s.raceHostByte a written b wins else s.storeHostByte a b

/-- A host write of bytes at rising addresses. -/
def State.hostWriteBytes (a : Nat) : List Byte → List Bool → State → State
  | [], _, s => s
  | b :: bs, wins, s => State.hostWriteBytes (a + 1) bs wins.tail (s.hostWriteByte a b (wins.headD false))

/-- A host write to data memory; through the mapped window, a write to the register there, byte `k` of the value at offset
`8 * index + k` (20_memory.md R72, R79). -/
def State.hostMemWrite (addr : Nat) (bytes : List Byte) (wins : List Bool) (s : State) : State :=
  match dataWindowOffset s.params addr bytes.length with
  | some off => s.writeReg off (BitVec.ofNat 64 (leNat bytes))
  | none => s.hostWriteBytes addr bytes wins

/-- The bytes a host read of data memory returns; through the mapped window, those of the register there, and 0 where the
window does not serve the access (R41, R72, R79). -/
def State.hostMemRead (addr len : Nat) (early : List (List Bool)) (engine : List Bool) (s : State) : List (Option Byte) :=
  match dataWindowOffset s.params addr len with
  | some off => (leBytes len (s.readReg off)).map some
  | none =>
    (List.range len).map fun k =>
      if inWindow s.params (addr + k) then some 0 else s.viewByte addr len early (engine.getD k false) (addr + k)

/-- Why a host access to data memory stops: an address data memory does not have (R70), or a device (R78). A device region
that overlaps the mapped register window comes first, so that a host access of their common bytes is refused: the spec does
not say which of the two answers (R41, R78, R79). DESIGN CHOICE, safe (log 18). -/
def State.hostMemStop (addr len : Nat) (s : State) : Option Result :=
  if s.params.memBytes < addr + len then some (.fault (.noSuchAddress addr))
  else if s.params.refuses addr len then some (.refused (.deviceAccess addr))
  else none

/-! ## Host steps -/

/-- Replacing host `n`. -/
def State.setHost (n : Nat) (a : HostAgent) (s : State) : State := { s with hosts := s.hosts.set n a }

/-- Host `n`, whose state is `a`, issues the access `op`; `rest` follows it (20_memory.md R83). WAIT and CHECK are issued
again while BUSY = 1 (30_encoding.md R121, log 27). -/
def State.hostIssue (n : Nat) (a : HostAgent) (op : HostOp) (rest : List HostOp) (s : State) : Result :=
  match op with
  | .regWrite addr width v => .next ((s.setHost n { a with queue := rest }).hostRegWrite addr width v)
  | .regRead addr width => .next (s.setHost n { a with queue := rest, value := s.hostRegRead addr width })
  | .wait =>
    if s.busy then .next (s.setHost n { a with value := s.readReg 0x48 })
    else .next (s.setHost n { a with queue := rest, value := s.readReg 0x48 })
  | .check =>
    if s.busy then .next (s.setHost n { a with value := s.readReg 0x48 })
    else if s.err = .ok then .next (s.setHost n { a with queue := rest, value := s.readReg 0x48 })
    else .next (s.setHost n { a with queue := [], value := s.readReg 0x48, failed := true })
  | .memWrite addr bytes wins =>
    match s.hostMemStop addr bytes.length with
    | some stop => stop
    | none => .next ((s.setHost n { a with queue := rest }).hostMemWrite addr bytes wins)
  | .memRead addr len early engine =>
    match s.hostMemStop addr len with
    | some stop => stop
    | none => .next (s.setHost n { a with queue := rest, bytes := s.hostMemRead addr len early engine })
  | .maintain addr len => .next ((s.setHost n { a with queue := rest }).maintain addr len)

/-- A step of host `n`: its next access, or nothing when it has none. -/
def State.hostStep (n : Nat) (s : State) : Result :=
  match s.hosts[n]? with
  | none => .next s
  | some a =>
    match a.queue with
    | [] => .next s
    | op :: rest => s.hostIssue n a op rest

/-- The first host that still has an access to issue. -/
def firstReady (hosts : List HostAgent) : Option Nat := hosts.findIdx? fun a => !a.queue.isEmpty

/-- Loading host 0 with a program of accesses. -/
def State.withHostProgram (ops : List HostOp) (s : State) : State :=
  { s with hosts := [{ HostAgent.quiet with queue := ops }] }

end Sys2Proof.Machine
end

