-- ==== Sys2Proof/Machine/Engine.lean ====
section
/-! DEFINITION. The engine step, the events, and one step of the whole machine (spec 30_encoding.md R103 to R107,
60_exceptions.md R244, 70_reset_and_hazards.md R260 to R264). -/

namespace Sys2Proof.Machine

/-- One engine step: nothing while IDLE (60_exceptions.md R251); else LCMD is decoded and its command takes one step, or, for
an illegal word, completes with E_ILLEGAL (30_encoding.md R103, R104). -/
def State.engineStep (s : State) : Result :=
  match s.phase with
  | .idle => .next s
  | .exec =>
    match decode s.lcmd with
    | .ok i => exec i s
    | .error _ => .next (s.raise .illegal)

/-- What an event does. -/
def State.event (e : Event) (s : State) : Result :=
  match e with
  | .host n => s.hostStep n
  | .engine => s.engineStep
  | .reveal k => .next (s.reveal k)
  | .assertReset => .next { s with resetReq := true }

/-- The step when no event is scheduled (log 9): a running command goes on; else the first host with an access to issue
issues it; else nothing happens (60_exceptions.md R251). -/
def State.autoStep (s : State) : Result :=
  match s.phase with
  | .exec => s.engineStep
  | .idle =>
    match firstReady s.hosts with
    | some n => s.hostStep n
    | none => .next s

/-- One step of the machine: a requested reset takes precedence over every other event (60_exceptions.md R244), then the
next scheduled event, then the automatic turn. -/
def State.machineStep (s : State) : Result :=
  if s.resetReq then .next s.doReset
  else
    match s.sched with
    | e :: rest => { s with sched := rest }.event e
    | [] => s.autoStep

/-- The state in which the next step runs the command word `w` (log 10): `w` has just been accepted, and neither a reset nor
an event comes first. -/
def State.acceptedNow (w : Word32) (s : State) : State :=
  { s.accept w with sched := [], resetReq := false }

/-- Engine steps of command `i` from `s` until it completes, at most `n` of them (30_encoding.md R107). -/
def runCommand : Nat → Instr → State → Result
  | 0, _, s => .next s
  | n + 1, i, s =>
    match exec i s with
    | .next t =>
      match t.phase with
      | .idle => .next t
      | .exec => runCommand n i t
    | .fault r => .fault r
    | .refused r => .refused r

end Sys2Proof.Machine
end

