-- ==== Sys2Proof/Machine/Step.lean ====
section
/-! DEFINITION. One step of the machine, and the state whose next step runs a given command word. -/

namespace Sys2Proof.Machine

/-- One step (60_exceptions.md R244). -/
def step (s : State) : Host.Outcome State Fault Refusal := s.machineStep

/-- `s` with the command word of `nbits` bits `w` (the bits above are 0) just accepted (30_encoding.md R104), so that the next
step runs it: the engine has no program counter and fetches nothing (10_state.md R36, log 10). -/
def State.withFetchWord (s : State) (nbits w : Nat) : State := s.acceptedNow (BitVec.ofNat 32 (w % 2 ^ nbits))

end Sys2Proof.Machine
end

