-- ==== Sys2Proof/Machine/Asm.lean ====
section
/-! DEFINITION. The assembler (spec 30_encoding.md R120, R121): a line of a host program, its text, and the host accesses it
expands to. The grammar of numbers beyond the spec's words is a DESIGN CHOICE (log 31). -/

namespace Sys2Proof.Machine

/-- A FILLBD bound: a raw pattern, or the decimal `± digits * 10^exp10` (R120). -/
inductive FloatLit where
  | bits (n : Nat)
  | decimal (neg : Bool) (digits : Nat) (exp10 : Int)
  deriving DecidableEq, Repr

/-- The pattern of a bound; a decimal is rounded to the variant's format, to nearest, ties to even (R120). -/
def FloatLit.pattern (w : Nat) (f : FloatFormat) : FloatLit → BitVec w
  | .bits n => BitVec.ofNat w n
  | .decimal neg d e => (roundTo f neg (d * 10 ^ e.toNat) (10 ^ (-e).toNat) 0).pack w f

/-- A line of a host program (R120), and the pseudo-instructions WAIT and CHECK (R121). -/
inductive AsmLine where
  | create (v : Variant) (k0 k1 : Nat)
  | destroy (v : Variant) (h : Nat)
  | next (v : Variant) (h : Nat)
  | fillraw (v : Variant) (h base count : Nat)
  | filluf (v : Variant) (h base count : Nat)
  | fillbi (v : Variant) (h base count : Nat) (mn mx : Int)
  | fillbd (v : Variant) (h base count : Nat) (mn mx : FloatLit)
  | wait
  | check
  deriving DecidableEq, Repr

/-- The command a line gives; WAIT and CHECK give none. -/
def AsmLine.instr : AsmLine → Option Instr
  | .create .v32 _ _ => some .create32
  | .create .v64 _ _ => some .create64
  | .destroy .v32 h => some (.destroy32 h)
  | .destroy .v64 h => some (.destroy64 h)
  | .next .v32 h => some (.next32 h)
  | .next .v64 h => some (.next64 h)
  | .fillraw .v32 h _ _ => some (.fillraw32 h)
  | .fillraw .v64 h _ _ => some (.fillraw64 h)
  | .filluf .v32 h _ _ => some (.filluf32 h)
  | .filluf .v64 h _ _ => some (.filluf64 h)
  | .fillbi .v32 h _ _ _ _ => some (.fillbi32 h)
  | .fillbi .v64 h _ _ _ _ => some (.fillbi64 h)
  | .fillbd .v32 h _ _ _ _ => some (.fillbd32 h)
  | .fillbd .v64 h _ _ _ _ => some (.fillbd64 h)
  | .wait => none
  | .check => none

/-- A W-bit operand as the 64-bit value written: zero-extended (R121). -/
def asmWord (v : Variant) (n : Int) : Word64 :=
  match v with
  | .v32 => (BitVec.ofInt 32 n).setWidth 64
  | .v64 => BitVec.ofInt 64 n

/-- A FILLBD bound as the 64-bit value written. -/
def asmFloat (v : Variant) (x : FloatLit) : Word64 :=
  match v with
  | .v32 => (x.pattern 32 binary32).setWidth 64
  | .v64 => x.pattern 64 binary64

/-- The values a line writes to ARG0, ARG1, ..., only those the command lists (R110, R121). -/
def AsmLine.args : AsmLine → List Word64
  | .create v k0 k1 => [asmWord v k0, asmWord v k1]
  | .destroy _ _ => []
  | .next _ _ => []
  | .fillraw _ _ base count => [BitVec.ofNat 64 base, BitVec.ofNat 64 count]
  | .filluf _ _ base count => [BitVec.ofNat 64 base, BitVec.ofNat 64 count]
  | .fillbi v _ base count mn mx => [BitVec.ofNat 64 base, BitVec.ofNat 64 count, asmWord v mn, asmWord v mx]
  | .fillbd v _ base count mn mx => [BitVec.ofNat 64 base, BitVec.ofNat 64 count, asmFloat v mn, asmFloat v mx]
  | .wait => []
  | .check => []

/-- The expansion of a line (R121): the ARG writes, the CMD write, WAIT; on the bus of a platform with these parameters. -/
def AsmLine.expand (p : Params) (l : AsmLine) : List HostOp :=
  match l with
  | .wait => [.wait]
  | .check => [.check]
  | _ =>
    (l.args.mapIdx fun i v => HostOp.regWrite (p.regBase + 0x08 + 8 * i) 8 v) ++
      match l.instr with
      | some i => [.regWrite p.regBase 8 ((encode i).setWidth 64), .wait]
      | none => []

/-- The expansion of a program. -/
def expandProgram (p : Params) (prog : List AsmLine) : List HostOp := prog.flatMap (AsmLine.expand p)

/-! ## Text -/

/-- The value of a digit in base 10 or 16. -/
def digitValue (base : Nat) (c : Char) : Option Nat :=
  let n := c.toNat
  let d :=
    if 48 ≤ n ∧ n ≤ 57 then some (n - 48)
    else if 97 ≤ n ∧ n ≤ 102 then some (n - 87)
    else if 65 ≤ n ∧ n ≤ 70 then some (n - 55)
    else none
  match d with
  | some k => if k < base then some k else none
  | none => none

/-- Digits after an accumulated value. -/
def digitsFrom (base : Nat) : Nat → List Char → Option Nat
  | acc, [] => some acc
  | acc, c :: cs =>
    match digitValue base c with
    | some d => digitsFrom base (acc * base + d) cs
    | none => none

/-- A run of at least one digit. -/
def parseDigits (base : Nat) : List Char → Option Nat
  | [] => none
  | c :: cs => digitsFrom base 0 (c :: cs)

/-- An integer, decimal or `0x` hexadecimal (R120). -/
def parseNat : List Char → Option Nat
  | '0' :: 'x' :: cs => parseDigits 16 cs
  | cs => parseDigits 10 cs

/-- A signed decimal (R120, FILLBI bounds). -/
def parseSigned : List Char → Option Int
  | '-' :: cs => (parseDigits 10 cs).map fun n => -(n : Int)
  | cs => (parseDigits 10 cs).map fun n => (n : Int)

/-- The exponent part of a decimal literal. -/
def parseExponent : List Char → Option Int
  | '+' :: cs => (parseDigits 10 cs).map fun n => (n : Int)
  | cs => parseSigned cs

/-- The text before the first `c`, and the text after it when there is one. -/
def splitAtChar (c : Char) : List Char → List Char × Option (List Char)
  | [] => ([], none)
  | x :: xs =>
    if x = c then ([], some xs)
    else
      let r := splitAtChar c xs
      (x :: r.1, r.2)

/-- An unsigned decimal literal `digits[.digits][e[+-]digits]`. -/
def parseDecimal (neg : Bool) (cs : List Char) : Option FloatLit :=
  let (mant, ex) := splitAtChar 'e' cs
  let e := match ex with
    | none => some 0
    | some t => parseExponent t
  let (whole, frac) := splitAtChar '.' mant
  let fr := frac.getD []
  match parseDigits 10 (whole ++ fr), e with
  | some d, some k => some (.decimal neg d (k - fr.length))
  | _, _ => none

/-- A FILLBD bound: `bits:0x...` or a decimal floating literal (R120). -/
def parseFloatLit : List Char → Option FloatLit
  | 'b' :: 'i' :: 't' :: 's' :: ':' :: '0' :: 'x' :: cs => (parseDigits 16 cs).map .bits
  | '-' :: cs => parseDecimal true cs
  | cs => parseDecimal false cs

/-- Pieces of text between occurrences of `c`. -/
def splitAll (c : Char) : List Char → List (List Char)
  | [] => [[]]
  | x :: xs =>
    let r := splitAll c xs
    if x = c then [] :: r
    else
      match r with
      | [] => [[x]]
      | p :: ps => (x :: p) :: ps

/-- The text without leading spaces. -/
def dropSpaces : List Char → List Char
  | ' ' :: cs => dropSpaces cs
  | cs => cs

/-- The text without spaces at either end. -/
def trim (cs : List Char) : List Char := (dropSpaces (dropSpaces cs).reverse).reverse

/-- The names of the functions, spec mnemonic and source name (R102, R120), without the width. -/
inductive AsmName where
  | create
  | destroy
  | next
  | fillraw
  | filluf
  | fillbi
  | fillbd
  deriving DecidableEq, Repr

/-- A name without its width: the mnemonic or the source's name (R120). -/
def parseBase (cs : List Char) : Option AsmName :=
  if cs = ['C', 'R', 'E', 'A', 'T', 'E'] ∨ cs = ['c', 'r', 'e', 'a', 't', 'e'] then some .create
  else if cs = ['D', 'E', 'S', 'T', 'R', 'O', 'Y'] ∨ cs = ['d', 'e', 's', 't', 'r', 'o', 'y'] then some .destroy
  else if cs = ['N', 'E', 'X', 'T'] then some .next
  else if cs = ['F', 'I', 'L', 'L', 'R', 'A', 'W'] ∨ cs = ['f', 'i', 'l', 'l', 'R', 'a', 'w'] then some .fillraw
  else if cs = ['F', 'I', 'L', 'L', 'U', 'F'] ∨
      cs = ['f', 'i', 'l', 'l', 'U', 'n', 'i', 'f', 'o', 'r', 'm', 'F', 'l', 'o', 'a', 't'] then some .filluf
  else if cs = ['F', 'I', 'L', 'L', 'B', 'I'] ∨
      cs = ['f', 'i', 'l', 'l', 'B', 'o', 'u', 'n', 'd', 'e', 'd', 'I', 'n', 't'] then some .fillbi
  else if cs = ['F', 'I', 'L', 'L', 'B', 'D'] ∨
      cs = ['f', 'i', 'l', 'l', 'B', 'o', 'u', 'n', 'd', 'e', 'd', 'D', 'e', 'r', 'i', 'v', 'e', 'd'] then some .fillbd
  else none

/-- A mnemonic with its width, `32` or `64`. -/
def parseMnemonic (cs : List Char) : Option (AsmName × Variant) :=
  match cs.reverse with
  | '2' :: '3' :: r => (parseBase r.reverse).map fun n => (n, .v32)
  | '4' :: '6' :: r => (parseBase r.reverse).map fun n => (n, .v64)
  | _ => none

/-- A command from its name and its operands' texts. -/
def parseOperands (n : AsmName) (v : Variant) (ops : List (List Char)) : Option AsmLine :=
  match n, ops with
  | .create, [a, b] => do return .create v (← parseNat a) (← parseNat b)
  | .destroy, [h] => do return .destroy v (← parseNat h)
  | .next, [h] => do return .next v (← parseNat h)
  | .fillraw, [h, b, c] => do return .fillraw v (← parseNat h) (← parseNat b) (← parseNat c)
  | .filluf, [h, b, c] => do return .filluf v (← parseNat h) (← parseNat b) (← parseNat c)
  | .fillbi, [h, b, c, x, y] => do
    return .fillbi v (← parseNat h) (← parseNat b) (← parseNat c) (← parseSigned x) (← parseSigned y)
  | .fillbd, [h, b, c, x, y] => do
    return .fillbd v (← parseNat h) (← parseNat b) (← parseNat c) (← parseFloatLit x) (← parseFloatLit y)
  | _, _ => none

/-- A line of assembler text (R120, R121). -/
def parseLine (text : List Char) : Option AsmLine :=
  let line := trim text
  if line = ['W', 'A', 'I', 'T'] then some .wait
  else if line = ['C', 'H', 'E', 'C', 'K'] then some .check
  else
    let (name, rest) := splitAtChar ' ' line
    match parseMnemonic name, rest with
    | some (n, v), some r => parseOperands n v ((splitAll ',' r).map trim)
    | _, _ => none

end Sys2Proof.Machine
end

