-- ==== Sys2Proof/Safety.lean ====
section
/-! DEFINITION. The terms claims are stated in: the state a step answers, the invariant of the machine, and the end of a host
program's run. -/

namespace Sys2Proof.Machine

/-- The next state of a result, when it is one. -/
def nextOf : Host.Outcome State Fault Refusal → Option State
  | .next s => some s
  | .fault _ => none
  | .refused _ => none

/-- The counter invariants of a live 32-bit slot (10_state.md R34). -/
def Slot.Ok32 (sl : Slot Ctr32 32) : Prop :=
  sl.live = true → sl.ctr.c2 = 0 ∧ sl.ctr.c3 = 0 ∧ sl.ctr.c1 = sl.ctr.c0 - 1

/-- The counter invariant of a live 64-bit slot (R34). -/
def Slot.Ok64 (sl : Slot Ctr64 64) : Prop := sl.live = true → sl.ctr.c1 = sl.ctr.c0 - 1

/-- Fill progress as the spec bounds it (10_state.md R38): BLK holds B words, J is in 0..B, I is in 0..count. -/
def Fill.Ok {w : Nat} (b count : Nat) (p : Fill w) : Prop := p.blk.length = b ∧ p.j ≤ b ∧ p.i ≤ count

/-- LCMD holds a FILL of the variant. -/
def State.runsFill (v : Variant) (s : State) : Prop :=
  ∃ i, decode s.lcmd = .ok i ∧ i.isFill = true ∧ i.variant = v

/-- The invariant of the machine: what every reachable state satisfies and every step keeps. -/
structure State.Inv (s : State) : Prop where
  /-- The parameters are in the spec's ranges (00_scope.md R11, R12). -/
  params : s.params.Wf
  /-- There are N_SLOTS32 and N_SLOTS64 slots (10_state.md R30). -/
  slots32_length : s.slots32.length = s.params.nSlots32
  slots64_length : s.slots64.length = s.params.nSlots64
  /-- The counters of live slots (R34). -/
  slots32_ok : ∀ sl ∈ s.slots32, sl.Ok32
  slots64_ok : ∀ sl ∈ s.slots64, sl.Ok64
  /-- ERR reads 0x00 while BUSY = 1 (R48). -/
  busy_err : s.phase = .exec → s.err = .ok
  /-- Fill progress exists only while a FILL of its variant executes (R38). -/
  idle_fill : s.phase = .idle → s.fill32 = none ∧ s.fill64 = none
  fill32_ok : ∀ p, s.fill32 = some p → p.Ok 4 s.count ∧ s.runsFill .v32
  fill64_ok : ∀ p, s.fill64 = some p → p.Ok 2 s.count ∧ s.runsFill .v64
  /-- Races exist only while a command executes (20_memory.md R84). -/
  idle_race : s.phase = .idle → s.races = []
  /-- On a coherent platform every element write is seen once BUSY = 0 (R82). -/
  idle_seen : s.phase = .idle → s.params.coherent = true → s.unseen = [] ∧ s.seen = s.mem
  /-- The command of every unseen write has ended once BUSY = 0; on a coherent platform none has, since its end shows it (R82). -/
  idle_ended : s.phase = .idle → ∀ u ∈ s.unseen, u.ended = true
  coherent_running : s.params.coherent = true → ∀ u ∈ s.unseen, u.ended = false
  /-- Data memory keeps its canonical form and its address range (R70). -/
  mem_wf : s.mem.wf
  mem_below : s.mem.Below s.params.memBytes
  /-- So does what hosts see of it, and no write is outside it. -/
  seen_wf : s.seen.wf
  seen_below : s.seen.Below s.params.memBytes
  unseen_below : ∀ u ∈ s.unseen, u.addr + u.bytes.length ≤ s.params.memBytes
  races_below : ∀ r ∈ s.races, r.addr < s.params.memBytes
  /-- Memory holds what hosts see once every unseen write is seen, but for the bytes raced for (R81, R82, R88). -/
  mem_newest : ∀ a, raceAt s.races a = none → s.mem.get a = newest s.unseen a (s.seen.get a)
  /-- A byte raced for holds the value that stays (R84). -/
  mem_race : ∀ a r, raceAt s.races a = some r → s.mem.get a = some r.final
  /-- The engine's value of a byte raced for is its youngest element write there (R266). -/
  race_engine : ∀ a r e, raceAt s.races a = some r → r.engine = some e → newest s.unseen a (s.seen.get a) = some e

/-- From `s` to `t` a command has ended with `code` and with no other effect: only STATUS and PHASE differ (30_encoding.md
R106, 60_exceptions.md R230, R238). Fill progress, races and what hosts see of a running command are left out. -/
structure EndedWith (code : ResultCode) (s t : State) : Prop where
  err : t.err = code
  idle : t.phase = .idle
  params : t.params = s.params
  slots32 : t.slots32 = s.slots32
  slots64 : t.slots64 = s.slots64
  lcmd : t.lcmd = s.lcmd
  larg : t.larg = s.larg
  arg : t.arg = s.arg
  res : t.res = s.res
  ovr : t.ovr = s.ovr
  mem : t.mem = s.mem
  hosts : t.hosts = s.hosts
  sched : t.sched = s.sched
  resetReq : t.resetReq = s.resetReq

/-- A handle of the 32-bit set that names no live slot (60_exceptions.md R232). -/
def State.badHandle32 (h : Nat) (s : State) : Prop :=
  h = 0 ∨ s.params.nSlots32 < h ∨ ∃ sl, s.slots32[h - 1]? = some sl ∧ sl.live = false

/-- A handle of the 64-bit set that names no live slot (R232). -/
def State.badHandle64 (h : Nat) (s : State) : Prop :=
  h = 0 ∨ s.params.nSlots64 < h ∨ ∃ sl, s.slots64[h - 1]? = some sl ∧ sl.live = false

/-- The slot `sl` of the 32-bit set is live and `h` is its handle. -/
def State.live32 (h : Nat) (sl : Slot Ctr32 32) (s : State) : Prop :=
  1 ≤ h ∧ h ≤ s.params.nSlots32 ∧ s.slots32[h - 1]? = some sl ∧ sl.live = true

/-- The slot `sl` of the 64-bit set is live and `h` is its handle. -/
def State.live64 (h : Nat) (sl : Slot Ctr64 64) (s : State) : Prop :=
  1 ≤ h ∧ h ≤ s.params.nSlots64 ∧ s.slots64[h - 1]? = some sl ∧ sl.live = true

/-- The FILL commands of Generator-32 with the transform each applies (42_kernels.md R200, R202, R204, R206). -/
def kernels32 : List ((Nat → Instr) × (State → Word32 → Word32)) := [
  (Instr.fillraw32, fun _ => tRaw),
  (Instr.filluf32, fun _ => tUf binary32),
  (Instr.fillbi32, fun s => tBi (s.minBits 32) (s.maxBits 32)),
  (Instr.fillbd32, fun s => tBd binary32 (s.minBits 32) (s.maxBits 32))]

/-- The FILL commands of Generator-64 with the transform each applies (42_kernels.md R201, R203, R205, R207). -/
def kernels64 : List ((Nat → Instr) × (State → Word64 → Word64)) := [
  (Instr.fillraw64, fun _ => tRaw),
  (Instr.filluf64, fun _ => tUf binary64),
  (Instr.fillbi64, fun s => tBi (s.minBits 64) (s.maxBits 64)),
  (Instr.fillbd64, fun s => tBd binary64 (s.minBits 64) (s.maxBits 64))]

/-- The checks of a FILL with something to write all pass (42_kernels.md R181): the handle names the live slot `sl`, the
buffer is aligned and in range, and it does not overlap a mapped register window. -/
structure Gen.FillReady {w : Nat} {γ : Type} (g : Gen w γ) (h : Nat) (sl : Slot γ w) (s : State) : Prop where
  handle_pos : 1 ≤ h
  handle_le : h ≤ g.nSlots s.params
  slot : (g.slots s)[h - 1]? = some sl
  live : sl.live = true
  count_pos : 0 < s.count
  aligned : s.base % g.elemBytes = 0
  fits : s.base + s.count * g.elemBytes ≤ 2 ^ s.params.addrW
  window : s.params.windowMeets s.base (s.count * g.elemBytes) = false

/-- The counter of a slot after `n` rounds. -/
def Gen.counterAfter {w : Nat} {γ : Type} (g : Gen w γ) (n : Nat) (c : γ) : γ := (g.advance)^[n] c

/-- Element `i` of a FILL that starts at counter `c` with key `k` (42_kernels.md R181, R200, R201): the transform of word
`i mod B` of round `i / B`. -/
def Gen.element {w : Nat} {γ : Type} (g : Gen w γ) (t : BitVec w → BitVec w) (p : Params) (c : γ) (k : Key w) (i : Nat) :
    BitVec w :=
  t ((g.round p (g.counterAfter (i / g.blockLen) c) k).getD (i % g.blockLen) 0)

/-- The rounds a FILL of `n` elements computes, `ceil(n / B)` (42_kernels.md R183). -/
def Gen.roundsFor {w : Nat} {γ : Type} (g : Gen w γ) (n : Nat) : Nat := (n + g.blockLen - 1) / g.blockLen

/-- The engine steps of a FILL of `n > 0` elements: its rounds, its element writes, its completion (30_encoding.md R107). -/
def Gen.stepsFor {w : Nat} {γ : Type} (g : Gen w γ) (n : Nat) : Nat := g.roundsFor n + n + 1

/-- The next access host `n` issues is `op`, and host `n` is next on the schedule; `evs` are the events after it and `rest`
the accesses after it. -/
structure State.HostNext (s : State) (n : Nat) (a : HostAgent) (op : HostOp) (rest : List HostOp) (evs : List Event) :
    Prop where
  noReset : s.resetReq = false
  sched : s.sched = .host n :: evs
  host : s.hosts[n]? = some a
  queue : a.queue = op :: rest

/-- The next step is the engine's: it is next on the schedule, or nothing is scheduled and a command runs (log 9). -/
def State.engineNext (s : State) : Prop :=
  s.resetReq = false ∧ s.phase = .exec ∧ (s.sched = [] ∨ ∃ evs, s.sched = .engine :: evs)

/-- The next step is host `n`'s: it is next on the schedule, or nothing is scheduled, no command runs, and it is the first
host with an access to issue (log 9). -/
def State.hostTurn (n : Nat) (s : State) : Prop :=
  s.resetReq = false ∧
    ((∃ evs, s.sched = .host n :: evs) ∨ (s.sched = [] ∧ s.phase = .idle ∧ firstReady s.hosts = some n))

/-- The access `op` writes `v` to CMD: a 64-bit write at REG_BASE on the host bus, or at the window's place in data memory on a
platform that maps it there (10_state.md R40 to R42, 20_memory.md R72, R79). -/
def HostOp.WritesCmd (p : Params) (v : Word64) (op : HostOp) : Prop :=
  op = .regWrite p.regBase 8 v ∨
    ∃ addr bytes wins, op = .memWrite addr bytes wins ∧ p.windowAt = some addr ∧ bytes.length = 8 ∧
      v = BitVec.ofNat 64 (leNat bytes)

/-- The next step is a host's write of `v` to CMD. -/
def State.CmdWriteNext (v : Word64) (s : State) : Prop :=
  ∃ n a op rest, s.hostTurn n ∧ s.hosts[n]? = some a ∧ a.queue = op :: rest ∧ op.WritesCmd s.params v

/-- The rational value of a finite floating-point value. -/
def finValue (neg : Bool) (m : Nat) (e : Int) : ℚ := (if neg then -1 else 1) * (m : ℚ) * (2 : ℚ) ^ e

/-- The value `x` is the exact value `v` rounded once to the format, to nearest, ties to even (00_scope.md R18): no value of
the format, its exponent range above left open, is nearer, a value as near is left where its significand is the even one,
and a value that rounds beyond the format is an infinity. The formats are PRESUMED (log 25). -/
def RoundsTo (f : FloatFormat) (v : ℚ) (x : FloatVal) : Prop :=
  match x with
  | .nan => False
  | .inf neg => (2 ^ (f.prec + 1) - 1 : ℚ) * (2 : ℚ) ^ (f.maxExp - 1) ≤ if neg then -v else v
  | .fin neg m e =>
    m < 2 ^ f.prec ∧ f.minExp ≤ e ∧ e ≤ f.maxExp ∧
      ∀ (neg' : Bool) (m' : Nat) (e' : Int), m' < 2 ^ f.prec → f.minExp ≤ e' →
        |finValue neg m e - v| ≤ |finValue neg' m' e' - v| ∧
        (|finValue neg m e - v| = |finValue neg' m' e' - v| → finValue neg m e ≠ finValue neg' m' e' → m % 2 = 0)

/-- The access that writes ARG`i` (10_state.md R40). -/
def HostOp.arg (p : Params) (i : Nat) (v : Word64) : HostOp := .regWrite (p.regBase + 0x08 + 8 * i) 8 v

/-- The access that writes a command word to CMD (R40, R42). -/
def HostOp.cmd (p : Params) (word : Nat) : HostOp := .regWrite p.regBase 8 (BitVec.ofNat 64 word)

/-- The 64-bit value a FILLBD bound of the text stands for (30_encoding.md R120, R121): its bits, or the pattern that denotes its
decimal value rounded once to the format, with the sign of the text (log 31); zero-extended. -/
def FloatLit.Means (w : Nat) (f : FloatFormat) (l : FloatLit) (v : Word64) : Prop :=
  match l with
  | .bits n => v = (BitVec.ofNat w n).setWidth 64
  | .decimal neg digits exp10 =>
    ∃ p : BitVec w, RoundsTo f ((if neg then -1 else 1) * (digits : ℚ) * (10 : ℚ) ^ exp10) (FloatVal.unpack f p) ∧
      p.msb = neg ∧ v = p.setWidth 64

/-- A host program's run is over (70_reset_and_hazards.md R272): no access is left and BUSY = 0. -/
def State.runOver (s : State) : Prop := (∀ a ∈ s.hosts, a.queue = []) ∧ s.busy = false

/-- A run of `n` steps that neither faults nor is refused. -/
def State.SafeRun (n : Nat) (s : State) : Prop :=
  match n with
  | 0 => True
  | n + 1 => ∃ t, step s = .next t ∧ State.SafeRun n t

end Sys2Proof.Machine
end

