-- ==== Sys2Proof/Certificates/Slice0/Obligations.lean ====
section
/-! DEFINITION. The statements for the provers. Each cites the rule of spec/ it formalises. -/

open Sys2Proof Sys2Proof.Machine

/-! ## Encoding -/

/-- Decoding the word of a command gives the command back, every operand at every value (R100, R102, R121). -/
def Obligations.DecodeOfEncodeGivesCommand : Prop :=
  ∀ i : Instr, i.wf → decode (encode i) = .ok i

/-- Every legal word is the word of the command it decodes to, and that command is well formed (R100, R102). -/
def Obligations.EncodeOfDecodeGivesWord : Prop :=
  ∀ (w : BitVec 32) (i : Instr), decode w = .ok i → i.wf ∧ encode i = w

/-- R102: a word decodes to a command exactly when it selects the command's row by mask and match, and HANDLE is bits
15:8. -/
def Obligations.WordSelectsItsOpcodeRow : Prop :=
  (∀ i : Instr, i.row ∈ opcodeTable) ∧
  ∀ (w : BitVec 32) (i : Instr), decode w = .ok i ↔ i.row.selects w ∧ i.handle = handleField w

/-- R103: the illegal words are those that match no row, are exactly the words listed, cover 50 of the 64 OP values, and
complete with E_ILLEGAL and no other effect in the engine's next step. When that step comes with an empty schedule is the
model's choice (log 9). -/
def Obligations.IllegalWordsAndTheirCompletion : Prop :=
  (∀ w : BitVec 32, (∃ e, decode w = .error e) ↔ ∀ r ∈ opcodeTable, ¬ r.selects w) ∧
  (∀ w : BitVec 32, (∃ e, decode w = .error e) ↔
    rsv0Field w ≠ 0 ∨ rsv1Field w ≠ 0 ∨ opField w % 8 = 0 ∨ opField w / 8 % 2 = 1 ∨ opField w / 32 % 2 = 1 ∨
      (opField w % 8 = 1 ∧ handleField w ≠ 0)) ∧
  ((List.range 64).filter fun op => (instrOfOp op 0).isNone).length = 50 ∧
  (∀ s : State, s.resetReq = false → s.sched = [] → s.phase = .exec → (∃ e, decode s.lcmd = .error e) →
    ∃ t, step s = .next t ∧ EndedWith .illegal s t) ∧
  ∀ (s : State) (evs : List Event), s.resetReq = false → s.sched = .engine :: evs → s.phase = .exec →
    (∃ e, decode s.lcmd = .error e) → ∃ t, step s = .next t ∧ EndedWith .illegal { s with sched := evs } t

/-- Words written out from R100 to R102 decode to the commands they stand for. -/
def Obligations.SampleWordsDecode : Prop :=
  decode 0x00000001#32 = .ok .create32 ∧ decode 0x00000011#32 = .ok .create64 ∧
  decode 0x00000302#32 = .ok (.destroy32 3) ∧ decode 0x0000FF13#32 = .ok (.next64 255) ∧
  decode 0x00000104#32 = .ok (.fillraw32 1) ∧ decode 0x00000215#32 = .ok (.filluf64 2) ∧
  decode 0x00000006#32 = .ok (.fillbi32 0) ∧ decode 0x00001017#32 = .ok (.fillbd64 16) ∧
  decode 0x00000101#32 = .error .createHandle ∧ decode 0x00000008#32 = .error .unassignedOp ∧
  decode 0x00010104#32 = .error .rsv1 ∧ decode 0x00000044#32 = .error .rsv0

/-! ## The step, acceptance, completion -/

/-- While a command executes, a step of the engine is one step of the command LCMD decodes to: at once when nothing is
scheduled, or when the engine is next on the schedule, whose entry is then used up.
That the engine moves when nothing is scheduled is the model's choice (log 9). -/
def Obligations.StepRunsDecodedCommand : Prop :=
  ∀ (s : State) (i : Instr), s.resetReq = false → s.phase = .exec → decode s.lcmd = .ok i →
    (s.sched = [] → step s = exec i s) ∧
    ∀ evs, s.sched = .engine :: evs → step s = exec i { s with sched := evs }

/-- The step after `withFetchWord` runs the command of the word, in the state R104 gives its acceptance.
That a command is placed this way is the model's choice (log 10). -/
def Obligations.FetchedWordRunsNext : Prop :=
  ∀ (s : State) (w : BitVec 32) (i : Instr), decode w = .ok i →
    ∃ t, step (s.withFetchWord 32 w.toNat) = exec i t ∧
      t = { s with lcmd := w, larg := s.arg, err := .ok, ovr := false, phase := .exec, fill32 := none, fill64 := none,
                   races := [], sched := [], resetReq := false }

/-- R104: a CMD write while BUSY = 0 is accepted in one step, legal or not, and nothing else of the engine changes. -/
def Obligations.CmdWriteWhileIdleIsAccepted : Prop :=
  ∀ (s : State) (n : Nat) (a : HostAgent) (v : Word64) (rest : List HostOp) (evs : List Event),
    s.HostNext n a (.regWrite s.params.regBase 8 v) rest evs → s.phase = .idle →
    ∃ t, step s = .next t ∧ t.lcmd = v.setWidth 32 ∧ t.larg = s.arg ∧ t.err = .ok ∧ t.ovr = false ∧ t.phase = .exec ∧
      t.busy = true ∧ t.fill32 = none ∧ t.fill64 = none ∧ t.slots32 = s.slots32 ∧ t.slots64 = s.slots64 ∧
      t.arg = s.arg ∧ t.res = s.res ∧ t.mem = s.mem ∧ t.unseen = s.unseen ∧ t.params = s.params ∧ t.sched = evs ∧
      t.hosts = s.hosts.set n { a with queue := rest }

/-- R105: a CMD write while BUSY = 1 only sets OVR. -/
def Obligations.CmdWriteWhileBusyOnlySetsOvr : Prop :=
  ∀ (s : State) (n : Nat) (a : HostAgent) (v : Word64) (rest : List HostOp) (evs : List Event),
    s.HostNext n a (.regWrite s.params.regBase 8 v) rest evs → s.phase = .exec →
    step s = .next { s with ovr := true, sched := evs, hosts := s.hosts.set n { a with queue := rest } }

/-- R46, R47: OVR rises exactly in a CMD write while BUSY = 1 and falls only in an acceptance or a reset; BUSY rises only in a
CMD write while it is 0, which latches LCMD and LARG and clears ERR and OVR, and falls only in the engine's own step, which
ends the fill progress, or in a reset. Whose turn it is, is the model's schedule (log 9); a reset request, log 30. -/
def Obligations.OvrAndBusyChangeOnlyAsSpecified : Prop :=
  ∀ s t : State, step s = .next t →
    (s.ovr = false → (t.ovr = true ↔ s.phase = .exec ∧ ∃ v, s.CmdWriteNext v)) ∧
    (s.ovr = true → t.ovr = false → s.resetReq = true ∨ (s.phase = .idle ∧ ∃ v, s.CmdWriteNext v)) ∧
    (s.phase = .idle → t.phase = .exec →
      ∃ v, s.CmdWriteNext v ∧ t.lcmd = v.setWidth 32 ∧ t.larg = s.arg ∧ t.err = .ok ∧ t.ovr = false) ∧
    (∀ v, s.CmdWriteNext v → t.phase = .exec ∧ t.hosts ≠ s.hosts) ∧
    (s.phase = .exec → t.phase = .idle →
      s.resetReq = true ∨ (s.engineNext ∧ t.fill32 = none ∧ t.fill64 = none ∧ t.hosts = s.hosts)) ∧
    (s.resetReq = true → t.phase = .idle ∧ t.ovr = false ∧ t.err = .ok)

/-- R106: completion writes ERR and BUSY and nothing of the slots, RES, ARG, LCMD, LARG, OVR or data memory; on a coherent
platform every element write is then seen. -/
def Obligations.CompletionWritesOnlyStatus : Prop :=
  ∀ (code : ResultCode) (s : State),
    EndedWith code s (s.complete code) ∧ (s.complete code).busy = false ∧ (s.complete code).fill32 = none ∧
      (s.complete code).fill64 = none ∧ (s.params.coherent = true → (s.complete code).unseen = [])

/-! ## The register window -/

/-- R45: the fields of STATUS, its reserved bits, and what a host reads at 0x48. -/
def Obligations.StatusRegisterFields : Prop :=
  ∀ s : State,
    s.status.extractLsb' 0 1 = BitVec.ofBool (decide (s.phase = .exec)) ∧
    s.status.extractLsb' 1 1 = BitVec.ofBool s.ovr ∧ s.status.extractLsb' 2 6 = 0 ∧
    s.status.extractLsb' 8 8 = s.err.code ∧ s.status.extractLsb' 16 16 = 0 ∧
    s.hostRegRead (s.params.regBase + 0x48) 8 = s.status.setWidth 64

/-- R49: the fields of CAPS, what a host reads at 0x50, and that no step changes it. -/
def Obligations.CapsReportsConstantParameters : Prop :=
  (∀ s : State, s.params.Wf →
    (s.params.caps.extractLsb' 0 8).toNat = s.params.nSlots32 ∧
    (s.params.caps.extractLsb' 8 8).toNat = s.params.nSlots64 ∧
    (s.params.caps.extractLsb' 16 8).toNat = s.params.addrW ∧ s.params.caps.extractLsb' 24 8 = 0 ∧
    s.hostRegRead (s.params.regBase + 0x50) 8 = s.params.caps.setWidth 64) ∧
  ∀ s t : State, step s = .next t → t.params = s.params

/-- R40, R41: what every host read of the window returns; what every host write does, the writes to CMD apart (R104, R105);
that a host read changes nothing but what the host holds; and, on a platform that maps the window into data memory, that the
data accesses there are accesses of the window, little-endian (R72, R79; log 19). -/
def Obligations.HostWindowAccesses : Prop :=
  (∀ (s : State) (off width : Nat), off < 256 →
    s.hostRegRead (s.params.regBase + off) width =
      if width = 8 then
        (([(0x08, s.arg.r0), (0x10, s.arg.r1), (0x18, s.arg.r2), (0x20, s.arg.r3), (0x28, s.res.r0), (0x30, s.res.r1),
          (0x38, s.res.r2), (0x40, s.res.r3), (0x48, s.status.setWidth 64), (0x50, s.params.caps.setWidth 64)] :
          List (Nat × Word64)).lookup off).getD 0
      else 0) ∧
  (∀ (s : State) (off width : Nat) (v : Word64), off < 256 →
    (width ≠ 8 ∨ off % 8 ≠ 0 ∨ 0x28 ≤ off → s.hostRegWrite (s.params.regBase + off) width v = s) ∧
    (s.hostRegWrite (s.params.regBase + 0x08) 8 v = { s with arg := ⟨v, s.arg.r1, s.arg.r2, s.arg.r3⟩ }) ∧
    (s.hostRegWrite (s.params.regBase + 0x10) 8 v = { s with arg := ⟨s.arg.r0, v, s.arg.r2, s.arg.r3⟩ }) ∧
    (s.hostRegWrite (s.params.regBase + 0x18) 8 v = { s with arg := ⟨s.arg.r0, s.arg.r1, v, s.arg.r3⟩ }) ∧
    (s.hostRegWrite (s.params.regBase + 0x20) 8 v = { s with arg := ⟨s.arg.r0, s.arg.r1, s.arg.r2, v⟩ })) ∧
  (∀ (s : State) (n : Nat) (a : HostAgent) (addr width : Nat) (rest : List HostOp) (evs : List Event),
    s.HostNext n a (.regRead addr width) rest evs →
    step s = .next { s with
      sched := evs, hosts := s.hosts.set n { a with queue := rest, value := s.hostRegRead addr width } }) ∧
  (∀ (s : State) (base off : Nat) (early : List (List Bool)) (flags : List Bool), s.params.windowAt = some base →
    off < 256 →
    (off % 8 = 0 →
      s.hostMemRead (base + off) 8 early flags = (leBytes 8 (s.hostRegRead (s.params.regBase + off) 8)).map some ∧
      ∀ b0 b1 b2 b3 b4 b5 b6 b7 : Byte,
        s.hostMemWrite (base + off) [b0, b1, b2, b3, b4, b5, b6, b7] flags =
          s.hostRegWrite (s.params.regBase + off) 8 (b7 ++ b6 ++ b5 ++ b4 ++ b3 ++ b2 ++ b1 ++ b0)) ∧
    (∀ len, len ≠ 8 ∨ off % 8 ≠ 0 → off + len ≤ 256 →
      s.hostMemRead (base + off) len early flags = List.replicate len (some 0) ∧
      ∀ bytes : List Byte, bytes.length = len → s.hostMemWrite (base + off) bytes flags = s))

/-- R121, WAIT and CHECK: a poll of STATUS leaves it with the host, which polls again exactly while BUSY = 1; once BUSY = 0 a
WAIT is over, and a CHECK is over with result code 0 and else fails. That a poll is one host step, and that a failed CHECK
ends the host's program and notes the failure, is the model's choice (log 27). -/
def Obligations.WaitPollsUntilNotBusy : Prop :=
  (∀ (s : State) (n : Nat) (a : HostAgent) (rest : List HostOp) (evs : List Event),
    s.HostNext n a .wait rest evs →
    step s = .next { s with
      sched := evs
      hosts := s.hosts.set n
        { a with queue := if s.phase = .exec then .wait :: rest else rest, value := s.status.setWidth 64 } }) ∧
  ∀ (s : State) (n : Nat) (a : HostAgent) (rest : List HostOp) (evs : List Event),
    s.HostNext n a .check rest evs →
    (s.phase = .exec → step s = .next { s with
      sched := evs
      hosts := s.hosts.set n { a with queue := .check :: rest, value := s.status.setWidth 64 } }) ∧
    (s.phase = .idle → s.err = .ok → step s = .next { s with
      sched := evs
      hosts := s.hosts.set n { a with queue := rest, value := s.status.setWidth 64 } }) ∧
    (s.phase = .idle → s.err ≠ .ok → step s = .next { s with
      sched := evs
      hosts := s.hosts.set n { a with queue := [], value := s.status.setWidth 64, failed := true } })

/-! ## Errors -/

/-- R238: a command step that ends with an error code has changed nothing but STATUS, and no command that has gone on after
a step ends with an error in the next one: an error comes before every change. -/
def Obligations.ErrorsAreFoundBeforeAnyChange : Prop :=
  (∀ (i : Instr) (s t : State), s.err = .ok → exec i s = .next t → t.err ≠ .ok → EndedWith t.err s t) ∧
  ∀ (i : Instr) (s t u : State), s.phase = .exec → s.err = .ok → exec i s = .next t → t.phase = .exec →
    exec i t = .next u → u.err = .ok

/-- R232: the commands that end with E_HANDLE, and DESTROY of the null handle. R233: CREATE with every slot of the variant
live ends with E_NOSLOT. -/
def Obligations.HandleAndSlotErrors : Prop :=
  (∀ (h : Nat) (s : State),
    (s.badHandle32 h →
      (∃ t, exec (.next32 h) s = .next t ∧ EndedWith .handle s t) ∧
      (∀ k ∈ kernels32, ∃ t, exec (k.1 h) s = .next t ∧ EndedWith .handle s t) ∧
      (h ≠ 0 → ∃ t, exec (.destroy32 h) s = .next t ∧ EndedWith .handle s t)) ∧
    (s.badHandle64 h →
      (∃ t, exec (.next64 h) s = .next t ∧ EndedWith .handle s t) ∧
      (∀ k ∈ kernels64, ∃ t, exec (k.1 h) s = .next t ∧ EndedWith .handle s t) ∧
      (h ≠ 0 → ∃ t, exec (.destroy64 h) s = .next t ∧ EndedWith .handle s t)) ∧
    (∃ t, exec (.destroy32 0) s = .next t ∧ EndedWith .ok s t) ∧
    (∃ t, exec (.destroy64 0) s = .next t ∧ EndedWith .ok s t)) ∧
  (∀ s : State,
    ((∀ k < s.params.nSlots32, ∃ sl, s.slots32[k]? = some sl ∧ sl.live = true) →
      ∃ t, exec .create32 s = .next t ∧ EndedWith .noslot s t) ∧
    ((∀ k < s.params.nSlots64, ∃ sl, s.slots64[k]? = some sl ∧ sl.live = true) →
      ∃ t, exec .create64 s = .next t ∧ EndedWith .noslot s t))

/-- R237 for a FILL with a live handle: count = 0 succeeds unchecked; then E_ALIGN, then E_RANGE (R234, R235). The handle
comes before all of them (`HandleAndSlotErrors` asks nothing of count and base) and E_ILLEGAL before that
(`IllegalWordsAndTheirCompletion`). -/
def Obligations.FillChecksInOrder : Prop :=
  (∀ k ∈ kernels32, ∀ (h : Nat) (s : State) (sl : Slot Ctr32 32), s.live32 h sl →
    (s.count = 0 → ∃ t, exec (k.1 h) s = .next t ∧ EndedWith .ok s t) ∧
    (0 < s.count → s.base % 4 ≠ 0 → ∃ t, exec (k.1 h) s = .next t ∧ EndedWith .align s t) ∧
    (0 < s.count → s.base % 4 = 0 → 2 ^ s.params.addrW < s.base + s.count * 4 →
      ∃ t, exec (k.1 h) s = .next t ∧ EndedWith .range s t)) ∧
  (∀ k ∈ kernels64, ∀ (h : Nat) (s : State) (sl : Slot Ctr64 64), s.live64 h sl →
    (s.count = 0 → ∃ t, exec (k.1 h) s = .next t ∧ EndedWith .ok s t) ∧
    (0 < s.count → s.base % 8 ≠ 0 → ∃ t, exec (k.1 h) s = .next t ∧ EndedWith .align s t) ∧
    (0 < s.count → s.base % 8 = 0 → 2 ^ s.params.addrW < s.base + s.count * 8 →
      ∃ t, exec (k.1 h) s = .next t ∧ EndedWith .range s t))

/-! ## CREATE and DESTROY -/

/-- R163, R164, R162, R165: CREATE fills the lowest free slot of its variant with the seed words and the initial counter,
returns its handle, and changes nothing else. -/
def Obligations.CreateFillsLowestFreeSlot : Prop :=
  (∀ (s : State) (h : Nat), 1 ≤ h → h ≤ s.params.nSlots32 →
    (∃ sl, s.slots32[h - 1]? = some sl ∧ sl.live = false) →
    (∀ k < h - 1, ∃ sl, s.slots32[k]? = some sl ∧ sl.live = true) →
    exec .create32 s = .next { s.complete .ok with
      slots32 := s.slots32.set (h - 1) ⟨true, ⟨1, 0, 0, 0⟩, ⟨s.larg.r0.setWidth 32, s.larg.r1.setWidth 32⟩⟩
      res := ⟨BitVec.ofNat 64 h, 0, 0, 0⟩ }) ∧
  (∀ (s : State) (h : Nat), 1 ≤ h → h ≤ s.params.nSlots64 →
    (∃ sl, s.slots64[h - 1]? = some sl ∧ sl.live = false) →
    (∀ k < h - 1, ∃ sl, s.slots64[k]? = some sl ∧ sl.live = true) →
    exec .create64 s = .next { s.complete .ok with
      slots64 := s.slots64.set (h - 1) ⟨true, ⟨1, 0⟩, ⟨s.larg.r0, s.larg.r1⟩⟩
      res := ⟨BitVec.ofNat 64 h, 0, 0, 0⟩ })

/-- R166, R167, R33: DESTROY of a live handle clears LIVE; CTR, KEY, RES and everything else stay. -/
def Obligations.DestroyClearsOnlyLive : Prop :=
  (∀ (s : State) (h : Nat) (sl : Slot Ctr32 32), s.live32 h sl →
    exec (.destroy32 h) s = .next { s.complete .ok with
      slots32 := s.slots32.set (h - 1) ⟨false, sl.ctr, sl.key⟩ }) ∧
  (∀ (s : State) (h : Nat) (sl : Slot Ctr64 64), s.live64 h sl →
    exec (.destroy64 h) s = .next { s.complete .ok with
      slots64 := s.slots64.set (h - 1) ⟨false, sl.ctr, sl.key⟩ })

/-! ## Rounds and NEXT -/

/-- R132, R140, R145: Round32 and Round64 on every input, their products exact, Round32 under both readings of
P_G32_OUT1. -/
def Obligations.RoundFormulas : Prop :=
  (∀ (sel : OutSelect) (c : Ctr32) (k : Key 32),
    round32 sel c k =
      [BitVec.ofNat 32 (c.c0.toNat * 0xD2511F53 % 2 ^ 32) ^^^ c.c1 ^^^ k.k0,
       (match sel with
        | .hi => BitVec.ofNat 32 (c.c0.toNat * 0xD2511F53 / 2 ^ 32)
        | .lo => BitVec.ofNat 32 (c.c0.toNat * 0xD2511F53 % 2 ^ 32)),
       BitVec.ofNat 32 (c.c2.toNat * 0xCD9E8D57 % 2 ^ 32) ^^^ c.c3 ^^^ k.k1,
       BitVec.ofNat 32 (c.c2.toNat * 0xCD9E8D57 / 2 ^ 32)]) ∧
  (∀ (c : Ctr64) (k : Key 64),
    round64 c k =
      [BitVec.ofNat 64 (c.c0.toNat * 0xD2B74407B1CE6E93 % 2 ^ 64) ^^^ c.c1 ^^^ k.k0,
       BitVec.ofNat 64 (c.c0.toNat * 0xD2B74407B1CE6E93 / 2 ^ 64)])

/-- R135, R130, R133: NEXT32 puts the round of the counter into RES, advances words 0 and 1, and changes nothing else. -/
def Obligations.Next32DrawsOneBlock : Prop :=
  ∀ (s : State) (h : Nat) (sl : Slot Ctr32 32), s.live32 h sl →
    exec (.next32 h) s = .next { s.complete .ok with
      slots32 := s.slots32.set (h - 1)
        ⟨true, ⟨sl.ctr.c0 + 1, sl.ctr.c1 + 1, sl.ctr.c2, sl.ctr.c3⟩, sl.key⟩
      res :=
        ⟨(BitVec.ofNat 32 (sl.ctr.c0.toNat * 0xD2511F53 % 2 ^ 32) ^^^ sl.ctr.c1 ^^^ sl.key.k0).setWidth 64,
         (match s.params.g32Out1 with
          | .hi => BitVec.ofNat 32 (sl.ctr.c0.toNat * 0xD2511F53 / 2 ^ 32)
          | .lo => BitVec.ofNat 32 (sl.ctr.c0.toNat * 0xD2511F53 % 2 ^ 32)).setWidth 64,
         (BitVec.ofNat 32 (sl.ctr.c2.toNat * 0xCD9E8D57 % 2 ^ 32) ^^^ sl.ctr.c3 ^^^ sl.key.k1).setWidth 64,
         (BitVec.ofNat 32 (sl.ctr.c2.toNat * 0xCD9E8D57 / 2 ^ 32)).setWidth 64⟩ }

/-- R143, R142, R141: NEXT64 puts the round of the counter into RES0 and RES1, clears RES2 and RES3, advances both words,
and changes nothing else. -/
def Obligations.Next64DrawsOneBlock : Prop :=
  ∀ (s : State) (h : Nat) (sl : Slot Ctr64 64), s.live64 h sl →
    exec (.next64 h) s = .next { s.complete .ok with
      slots64 := s.slots64.set (h - 1) ⟨true, ⟨sl.ctr.c0 + 1, sl.ctr.c1 + 1⟩, sl.key⟩
      res :=
        ⟨BitVec.ofNat 64 (sl.ctr.c0.toNat * 0xD2B74407B1CE6E93 % 2 ^ 64) ^^^ sl.ctr.c1 ^^^ sl.key.k0,
         BitVec.ofNat 64 (sl.ctr.c0.toNat * 0xD2B74407B1CE6E93 / 2 ^ 64), 0, 0⟩ }

/-- R138, R144: the block of the n-th round since CREATE. -/
def Obligations.ClosedFormOfNthBlock : Prop :=
  (∀ (n : Nat) (k : Key 32),
    round32 .hi (advance32^[n] initCtr32) k =
      [BitVec.ofNat 32 ((1 + n) % 2 ^ 32 * 0xD2511F53) ^^^ (BitVec.ofNat 32 (1 + n) - 1) ^^^ k.k0,
       BitVec.ofNat 32 ((1 + n) % 2 ^ 32 * 0xD2511F53 / 2 ^ 32), k.k1, 0]) ∧
  (∀ (n : Nat) (k : Key 64),
    round64 (advance64^[n] initCtr64) k =
      [BitVec.ofNat 64 ((1 + n) % 2 ^ 64 * 0xD2B74407B1CE6E93) ^^^ (BitVec.ofNat 64 (1 + n) - 1) ^^^ k.k0,
       BitVec.ofNat 64 ((1 + n) % 2 ^ 64 * 0xD2B74407B1CE6E93 / 2 ^ 64)])

/-- R146: the pair (counter[0], counter[1]) does not repeat within 2^W rounds, and 2^W rounds are a period of the counter and
so of the blocks. -/
def Obligations.CounterPeriodIsOneWord : Prop :=
  (∀ (c : Ctr32) (m n : Nat), m < 2 ^ 32 → n < 2 ^ 32 →
    (advance32^[m] c).c0 = (advance32^[n] c).c0 → (advance32^[m] c).c1 = (advance32^[n] c).c1 → m = n) ∧
  (∀ (c : Ctr32) (n : Nat), advance32^[n + 2 ^ 32] c = advance32^[n] c) ∧
  (∀ (c : Ctr64) (m n : Nat), m < 2 ^ 64 → n < 2 ^ 64 →
    (advance64^[m] c).c0 = (advance64^[n] c).c0 → (advance64^[m] c).c1 = (advance64^[n] c).c1 → m = n) ∧
  (∀ (c : Ctr64) (n : Nat), advance64^[n + 2 ^ 64] c = advance64^[n] c)

/-- R136: in every state the invariant allows, NEXT32 on a live slot answers key[1] in RES2 and 0 in RES3, and every round of
a 32-bit FILL leaves key[1] and 0 as words 2 and 3 of the block. -/
def Obligations.DegenerateLaneOfLiveSlots : Prop :=
  ∀ (s : State) (h : Nat) (sl : Slot Ctr32 32), s.Inv → s.live32 h sl →
    (∃ t, exec (.next32 h) s = .next t ∧ t.res.r2 = sl.key.k1.setWidth 64 ∧ t.res.r3 = 0) ∧
    ∀ k ∈ kernels32, gen32.FillReady h sl s →
      (s.fill32 = none ∨ ∃ p, s.fill32 = some p ∧ p.i < s.count ∧ 4 ≤ p.j) →
      ∃ t q, exec (k.1 h) s = .next t ∧ t.fill32 = some q ∧ q.blk[2]? = some sl.key.k1 ∧ q.blk[3]? = some 0

/-! ## FILL -/

/-- R181: the first step of a FILL that passes its checks is one round, whose block it starts to consume; a FILL whose block
is used up computes a further round; one that has written all its elements completes with success; all else stays.
That the checks and the first round are one step is the model's reading (log 11). -/
def Obligations.FillComputesRoundsAndCompletes : Prop :=
  (∀ k ∈ kernels32, ∀ (h : Nat) (s : State) (sl : Slot Ctr32 32), gen32.FillReady h sl s → s.fill32 = none →
    exec (k.1 h) s = .next { s with
      slots32 := s.slots32.set (h - 1) ⟨true, advance32 sl.ctr, sl.key⟩
      fill32 := some ⟨0, 0, round32 s.params.g32Out1 sl.ctr sl.key⟩ }) ∧
  (∀ k ∈ kernels64, ∀ (h : Nat) (s : State) (sl : Slot Ctr64 64), gen64.FillReady h sl s → s.fill64 = none →
    exec (k.1 h) s = .next { s with
      slots64 := s.slots64.set (h - 1) ⟨true, advance64 sl.ctr, sl.key⟩
      fill64 := some ⟨0, 0, round64 sl.ctr sl.key⟩ }) ∧
  ((∀ k ∈ kernels32, ∀ (h : Nat) (s : State) (sl : Slot Ctr32 32) (p : Fill 32),
    gen32.FillReady h sl s → s.fill32 = some p →
    (p.i < s.count → 4 ≤ p.j → exec (k.1 h) s = .next { s with
      slots32 := s.slots32.set (h - 1) ⟨true, advance32 sl.ctr, sl.key⟩
      fill32 := some ⟨p.i, 0, round32 s.params.g32Out1 sl.ctr sl.key⟩ }) ∧
    (s.count ≤ p.i → exec (k.1 h) s = .next (s.complete .ok))) ∧
  (∀ k ∈ kernels64, ∀ (h : Nat) (s : State) (sl : Slot Ctr64 64) (p : Fill 64),
    gen64.FillReady h sl s → s.fill64 = some p →
    (p.i < s.count → 2 ≤ p.j → exec (k.1 h) s = .next { s with
      slots64 := s.slots64.set (h - 1) ⟨true, advance64 sl.ctr, sl.key⟩
      fill64 := some ⟨p.i, 0, round64 sl.ctr sl.key⟩ }) ∧
    (s.count ≤ p.i → exec (k.1 h) s = .next (s.complete .ok))))

/-- R181, R72, R73, R190: the element write of a FILL stores the transform of the next word, little-endian, at `base + I*E`,
but for bytes a racing host has won (R84); the raw transform is the word itself; the write enters, youngest, the writes hosts
do not see yet, whose view of memory stays (R81); every other byte of memory and all else stay. The unseen writes and the
races are the model's own state (log 13, 14). -/
def Obligations.FillWritesElement : Prop :=
  (∀ k ∈ kernels32, ∀ (h : Nat) (s : State) (sl : Slot Ctr32 32) (p : Fill 32) (x : Word32),
    gen32.FillReady h sl s → s.fill32 = some p → p.i < s.count → p.j < 4 → p.blk[p.j]? = some x →
    s.params.refuses (s.base + p.i * 4) 4 = false →
    ∃ t, exec (k.1 h) s = .next t ∧
      (∀ b < 4, t.mem.get (s.base + p.i * 4 + b) =
        some (match s.races.find? fun r => r.addr == s.base + p.i * 4 + b with
          | some r => if r.wins then r.host else (k.2 s x).extractLsb' (8 * b) 8
          | none => (k.2 s x).extractLsb' (8 * b) 8)) ∧
      (∀ a, a < s.base + p.i * 4 ∨ s.base + p.i * 4 + 4 ≤ a → t.mem.get a = s.mem.get a) ∧
      t = { s with
        fill32 := some ⟨p.i + 1, p.j + 1, p.blk⟩
        mem := t.mem
        unseen := s.unseen ++
          [⟨s.base + p.i * 4, (List.range 4).map fun b => some ((k.2 s x).extractLsb' (8 * b) 8), false⟩]
        races := s.races.map fun r =>
          if s.base + p.i * 4 ≤ r.addr ∧ r.addr < s.base + p.i * 4 + 4 then
            { r with engine := some ((k.2 s x).extractLsb' (8 * (r.addr - (s.base + p.i * 4))) 8) }
          else r }) ∧
  (∀ k ∈ kernels64, ∀ (h : Nat) (s : State) (sl : Slot Ctr64 64) (p : Fill 64) (x : Word64),
    gen64.FillReady h sl s → s.fill64 = some p → p.i < s.count → p.j < 2 → p.blk[p.j]? = some x →
    s.params.refuses (s.base + p.i * 8) 8 = false →
    ∃ t, exec (k.1 h) s = .next t ∧
      (∀ b < 8, t.mem.get (s.base + p.i * 8 + b) =
        some (match s.races.find? fun r => r.addr == s.base + p.i * 8 + b with
          | some r => if r.wins then r.host else (k.2 s x).extractLsb' (8 * b) 8
          | none => (k.2 s x).extractLsb' (8 * b) 8)) ∧
      (∀ a, a < s.base + p.i * 8 ∨ s.base + p.i * 8 + 8 ≤ a → t.mem.get a = s.mem.get a) ∧
      t = { s with
        fill64 := some ⟨p.i + 1, p.j + 1, p.blk⟩
        mem := t.mem
        unseen := s.unseen ++
          [⟨s.base + p.i * 8, (List.range 8).map fun b => some ((k.2 s x).extractLsb' (8 * b) 8), false⟩]
        races := s.races.map fun r =>
          if s.base + p.i * 8 ≤ r.addr ∧ r.addr < s.base + p.i * 8 + 8 then
            { r with engine := some ((k.2 s x).extractLsb' (8 * (r.addr - (s.base + p.i * 8))) 8) }
          else r }) ∧
  (∀ x : Word32, tRaw x = x) ∧ ∀ x : Word64, tRaw x = x

/-- R78: an element write that data memory refuses leaves the engine stuck; R79: a FILL whose buffer overlaps a mapped
register window is refused. The device regions are the model's form of the platform (log 18, 19). -/
def Obligations.FillStopsWhereMemoryIsNoMemory : Prop :=
  (∀ k ∈ kernels32, ∀ (h : Nat) (s : State) (sl : Slot Ctr32 32) (p : Fill 32),
    gen32.FillReady h sl s → s.fill32 = some p → p.i < s.count → p.j < 4 →
    s.params.refuses (s.base + p.i * 4) 4 = true →
    exec (k.1 h) s = .fault (.refusedWrite (s.base + p.i * 4))) ∧
  (∀ k ∈ kernels64, ∀ (h : Nat) (s : State) (sl : Slot Ctr64 64) (p : Fill 64),
    gen64.FillReady h sl s → s.fill64 = some p → p.i < s.count → p.j < 2 →
    s.params.refuses (s.base + p.i * 8) 8 = true →
    exec (k.1 h) s = .fault (.refusedWrite (s.base + p.i * 8))) ∧
  (∀ k ∈ kernels32, ∀ (h : Nat) (s : State) (sl : Slot Ctr32 32), s.live32 h sl → 0 < s.count → s.base % 4 = 0 →
    s.base + s.count * 4 ≤ 2 ^ s.params.addrW → s.params.windowMeets s.base (s.count * 4) = true →
    exec (k.1 h) s = .refused .windowOverlap) ∧
  (∀ k ∈ kernels64, ∀ (h : Nat) (s : State) (sl : Slot Ctr64 64), s.live64 h sl → 0 < s.count → s.base % 8 = 0 →
    s.base + s.count * 8 ≤ 2 ^ s.params.addrW → s.params.windowMeets s.base (s.count * 8) = true →
    exec (k.1 h) s = .refused .windowOverlap)

/-- R181, R183, R186, R190: a whole 32-bit FILL, from its acceptance to its completion, when nothing races with it: element
`i` is the transform of word `i mod 4` of round `i / 4`, the raw transform the word itself; the counter has advanced
`ceil(count / 4)` times; on a coherent platform hosts see all of memory, on another the elements are not seen yet, in
ascending order; and nothing else of the engine or of memory has changed. The grain of the steps is the model's reading
(log 11), the unseen writes its own state (log 13). -/
def Obligations.WholeFill32 : Prop :=
  (∀ x : Word32, tRaw x = x) ∧
  ∀ k ∈ kernels32, ∀ (h : Nat) (s : State) (sl : Slot Ctr32 32),
    gen32.FillReady h sl s → s.phase = .exec → s.fill32 = none → s.races = [] →
    s.params.refuses s.base (s.count * 4) = false →
    ∃ t, runCommand (gen32.stepsFor s.count) (k.1 h) s = .next t ∧ t.phase = .idle ∧ t.err = .ok ∧
      (∀ i < s.count, ∀ b < 4, t.mem.get (s.base + i * 4 + b) =
        some ((gen32.element (k.2 s) s.params sl.ctr sl.key i).extractLsb' (8 * b) 8)) ∧
      (∀ a, a < s.base ∨ s.base + s.count * 4 ≤ a → t.mem.get a = s.mem.get a) ∧
      (s.params.coherent = true → t.unseen = [] ∧ t.seen = t.mem) ∧
      (s.params.coherent = false → t.seen = s.seen ∧
        t.unseen = (s.unseen.map fun u => ⟨u.addr, u.bytes, true⟩) ++ (List.range s.count).map fun i =>
          ⟨s.base + i * 4, (List.range 4).map fun b =>
            some ((gen32.element (k.2 s) s.params sl.ctr sl.key i).extractLsb' (8 * b) 8), true⟩) ∧
      t = { s.complete .ok with
        slots32 := s.slots32.set (h - 1) ⟨true, gen32.counterAfter ((s.count + 3) / 4) sl.ctr, sl.key⟩
        mem := t.mem, seen := t.seen, unseen := t.unseen }

/-- R181, R183, R186, R190: a whole 64-bit FILL, from its acceptance to its completion, when nothing races with it: element
`i` is the transform of word `i mod 2` of round `i / 2`, the raw transform the word itself; the counter has advanced
`ceil(count / 2)` times; on a coherent platform hosts see all of memory, on another the elements are not seen yet, in
ascending order; and nothing else of the engine or of memory has changed. The grain of the steps is the model's reading
(log 11), the unseen writes its own state (log 13). -/
def Obligations.WholeFill64 : Prop :=
  (∀ x : Word64, tRaw x = x) ∧
  ∀ k ∈ kernels64, ∀ (h : Nat) (s : State) (sl : Slot Ctr64 64),
    gen64.FillReady h sl s → s.phase = .exec → s.fill64 = none → s.races = [] →
    s.params.refuses s.base (s.count * 8) = false →
    ∃ t, runCommand (gen64.stepsFor s.count) (k.1 h) s = .next t ∧ t.phase = .idle ∧ t.err = .ok ∧
      (∀ i < s.count, ∀ b < 8, t.mem.get (s.base + i * 8 + b) =
        some ((gen64.element (k.2 s) s.params sl.ctr sl.key i).extractLsb' (8 * b) 8)) ∧
      (∀ a, a < s.base ∨ s.base + s.count * 8 ≤ a → t.mem.get a = s.mem.get a) ∧
      (s.params.coherent = true → t.unseen = [] ∧ t.seen = t.mem) ∧
      (s.params.coherent = false → t.seen = s.seen ∧
        t.unseen = (s.unseen.map fun u => ⟨u.addr, u.bytes, true⟩) ++ (List.range s.count).map fun i =>
          ⟨s.base + i * 8, (List.range 8).map fun b =>
            some ((gen64.element (k.2 s) s.params sl.ctr sl.key i).extractLsb' (8 * b) 8), true⟩) ∧
      t = { s.complete .ok with
        slots64 := s.slots64.set (h - 1) ⟨true, gen64.counterAfter ((s.count + 1) / 2) sl.ctr, sl.key⟩
        mem := t.mem, seen := t.seen, unseen := t.unseen }

/-- R107: every command that has been accepted completes within its rounds, its element writes and one step more, on a
platform where data memory takes every write. The grain of the steps is the model's reading (log 11). -/
def Obligations.AcceptedCommandsComplete : Prop :=
  ∀ (i : Instr) (s : State), s.phase = .exec → s.fill32 = none → s.fill64 = none → s.params.deviceRegions = [] →
    s.params.windowAt = none →
    ∃ t, runCommand
      (if i.isFill then
        match i.variant with
        | .v32 => (s.count + 3) / 4 + s.count + 1
        | .v64 => (s.count + 1) / 2 + s.count + 1
      else 1) i s = .next t ∧ t.phase = .idle

/-- R185: a fill of 5 words writes what a fill of 4 and then a fill of 1 at the next address write, and leaves the counter in
the same place. -/
def Obligations.FillOfFiveIsFillOfFourThenOne : Prop :=
  ∀ (h : Nat) (s : State) (sl : Slot Ctr32 32) (b x y : Word64),
    s.params.Wf → s.live32 h sl → s.phase = .exec → s.fill32 = none → s.races = [] → s.params.deviceRegions = [] →
    s.params.windowAt = none → b.toNat % 4 = 0 → b.toNat + 20 ≤ 2 ^ s.params.addrW →
    ∃ t5 t4 t41,
      runCommand 8 (.fillraw32 h) { s with larg := ⟨b, 5, x, y⟩ } = .next t5 ∧
      runCommand 6 (.fillraw32 h) { s with larg := ⟨b, 4, x, y⟩ } = .next t4 ∧
      runCommand 3 (.fillraw32 h) { t4 with larg := ⟨b + 16, 1, x, y⟩, phase := .exec } = .next t41 ∧
      (∀ a, t41.mem.get a = t5.mem.get a) ∧ t41.slots32 = t5.slots32

/-! ## Frames -/

/-- A command that is no FILL completes in its one step and leaves every byte of data memory, ARG, LARG, LCMD, OVR, the
parameters and the surroundings as they were; DESTROY leaves RES too (20_memory.md R70, 10_state.md R52, 30_encoding.md R112). -/
def Obligations.NonFillCommandsFrame : Prop :=
  ∀ (i : Instr) (s t : State), i.isFill = false → exec i s = .next t →
    t.phase = .idle ∧ (∀ a, t.mem.get a = s.mem.get a) ∧ t.arg = s.arg ∧ t.larg = s.larg ∧ t.lcmd = s.lcmd ∧ t.ovr = s.ovr ∧
      t.params = s.params ∧ t.hosts = s.hosts ∧ t.sched = s.sched ∧ t.resetReq = s.resetReq ∧
      (∀ h, i = .destroy32 h ∨ i = .destroy64 h → t.res = s.res)

/-- R186 and the frame of one step of a FILL: RES, ARG, LARG, LCMD, OVR and the surroundings stay, and ERR until the command
completes; every byte outside the one
element it may write reads as before, and every byte when it writes none. -/
def Obligations.FillStepFrame : Prop :=
  (∀ k ∈ kernels32, ∀ (h : Nat) (s t : State), exec (k.1 h) s = .next t →
    t.res = s.res ∧ t.arg = s.arg ∧ t.larg = s.larg ∧ t.lcmd = s.lcmd ∧ t.ovr = s.ovr ∧ t.params = s.params ∧
      t.hosts = s.hosts ∧ t.sched = s.sched ∧ t.resetReq = s.resetReq ∧ (t.phase = .idle ∨ t.err = s.err) ∧
      (s.fill32 = none → ∀ a, t.mem.get a = s.mem.get a) ∧
      ∀ p, s.fill32 = some p →
        (∀ a, a < s.base + p.i * 4 ∨ s.base + p.i * 4 + 4 ≤ a → t.mem.get a = s.mem.get a) ∧
        (s.count ≤ p.i ∨ 4 ≤ p.j → ∀ a, t.mem.get a = s.mem.get a)) ∧
  (∀ k ∈ kernels64, ∀ (h : Nat) (s t : State), exec (k.1 h) s = .next t →
    t.res = s.res ∧ t.arg = s.arg ∧ t.larg = s.larg ∧ t.lcmd = s.lcmd ∧ t.ovr = s.ovr ∧ t.params = s.params ∧
      t.hosts = s.hosts ∧ t.sched = s.sched ∧ t.resetReq = s.resetReq ∧ (t.phase = .idle ∨ t.err = s.err) ∧
      (s.fill64 = none → ∀ a, t.mem.get a = s.mem.get a) ∧
      ∀ p, s.fill64 = some p →
        (∀ a, a < s.base + p.i * 8 ∨ s.base + p.i * 8 + 8 ≤ a → t.mem.get a = s.mem.get a) ∧
        (s.count ≤ p.i ∨ 2 ≤ p.j → ∀ a, t.mem.get a = s.mem.get a))

/-- R30, R186: a command never writes a slot of the other variant, nor a slot of its own variant that its handle does not
name; a CREATE writes no live slot; no command changes a key but that of the slot a CREATE fills. -/
def Obligations.SlotFrame : Prop :=
  ∀ (i : Instr) (s t : State), exec i s = .next t →
    (i.variant = .v32 → t.slots64 = s.slots64) ∧ (i.variant = .v64 → t.slots32 = s.slots32) ∧
    (∀ k, (i = .create32 ∧ (∃ sl, s.slots32[k]? = some sl ∧ sl.live = true)) ∨ (i ≠ .create32 ∧ k + 1 ≠ i.handle) →
      t.slots32[k]? = s.slots32[k]?) ∧
    (∀ k, (i = .create64 ∧ (∃ sl, s.slots64[k]? = some sl ∧ sl.live = true)) ∨ (i ≠ .create64 ∧ k + 1 ≠ i.handle) →
      t.slots64[k]? = s.slots64[k]?) ∧
    (i ≠ .create32 → ∀ (k : Nat) (sl sl' : Slot Ctr32 32), s.slots32[k]? = some sl → t.slots32[k]? = some sl' →
      sl'.key = sl.key) ∧
    (i ≠ .create64 → ∀ (k : Nat) (sl sl' : Slot Ctr64 64), s.slots64[k]? = some sl → t.slots64[k]? = some sl' →
      sl'.key = sl.key)

/-- R32: whatever happens in a step, the key of a slot that is live before and after it is the same; and outside a reset
only a CREATE of its variant changes any slot's key. -/
def Obligations.KeyNeverChangesWhileLive : Prop :=
  ∀ s t : State, step s = .next t →
    (∀ (k : Nat) (sl sl' : Slot Ctr32 32), s.slots32[k]? = some sl → t.slots32[k]? = some sl' →
      (sl.live = true → sl'.live = true → sl'.key = sl.key) ∧
      (s.resetReq = false → sl'.key ≠ sl.key → s.phase = .exec ∧ decode s.lcmd = .ok .create32)) ∧
    (∀ (k : Nat) (sl sl' : Slot Ctr64 64), s.slots64[k]? = some sl → t.slots64[k]? = some sl' →
      (sl.live = true → sl'.live = true → sl'.key = sl.key) ∧
      (s.resetReq = false → sl'.key ≠ sl.key → s.phase = .exec ∧ decode s.lcmd = .ok .create64))

/-- R44, R112: RES changes only in the step that completes a successful CREATE or NEXT, or at a reset, which clears it. -/
def Obligations.ResChangesOnlyAtCreateOrNext : Prop :=
  ∀ s t : State, step s = .next t → t.res ≠ s.res →
    (s.resetReq = true ∧ t.res = ⟨0, 0, 0, 0⟩) ∨
      (s.phase = .exec ∧ t.phase = .idle ∧ t.err = .ok ∧
        ∃ i, decode s.lcmd = .ok i ∧ i.isFill = false ∧ ∀ h, i ≠ .destroy32 h ∧ i ≠ .destroy64 h)

/-- R37, R87, R84.5: what a command does depends neither on the live ARG registers nor on data memory: over another ARG it
does the same, and over another data memory it stores the same bytes at the same addresses and does the same else. What hosts
see after it is the memory it leaves or the same as over the first memory. -/
def Obligations.CommandsReadNeitherArgNorMemory : Prop :=
  ∀ (i : Instr) (s t : State), exec i s = .next t →
    (∀ a : Regs4, exec i { s with arg := a } = .next { t with arg := a }) ∧
    ∃ (addr : Nat) (bytes : List Byte), t.mem = s.mem.setBytes addr bytes ∧
      ∀ m : Memory, ∃ t', exec i { s with mem := m } = .next t' ∧
        t' = { t with mem := m.setBytes addr bytes, seen := t'.seen } ∧
        (t'.seen = t.seen ∨ (t.seen = t.mem ∧ t'.seen = t'.mem))

/-- R147: what NEXT answers and the block a FILL draws depend on the slot's counter and key alone, not on the handle, the
other slots or anything else of the state. -/
def Obligations.BlocksDependOnCounterAndKeyAlone : Prop :=
  (∀ (s s' t t' : State) (h h' : Nat) (sl : Slot Ctr32 32), s.params.g32Out1 = s'.params.g32Out1 → s.live32 h sl →
    s'.live32 h' sl →
    (exec (.next32 h) s = .next t → exec (.next32 h') s' = .next t' → t.res = t'.res) ∧
    (∀ k ∈ kernels32, gen32.FillReady h sl s → gen32.FillReady h' sl s' → s.fill32 = none → s'.fill32 = none →
      exec (k.1 h) s = .next t → exec (k.1 h') s' = .next t' → t.fill32 = t'.fill32)) ∧
  (∀ (s s' t t' : State) (h h' : Nat) (sl : Slot Ctr64 64), s.live64 h sl → s'.live64 h' sl →
    (exec (.next64 h) s = .next t → exec (.next64 h') s' = .next t' → t.res = t'.res) ∧
    (∀ k ∈ kernels64, gen64.FillReady h sl s → gen64.FillReady h' sl s' → s.fill64 = none → s'.fill64 = none →
      exec (k.1 h) s = .next t → exec (k.1 h') s' = .next t' → t.fill64 = t'.fill64))

/-! ## Transforms -/

/-- R191, R192: every 32-bit uniform-float result denotes `w / 2^32` rounded once, to nearest, ties to even, and is +0.0 or a
normal value in [2^-32, 1.0]; exactly the 128 largest words give 1.0; the largest result below it is 0x3F7FFFFF. The layout of
the patterns is IEEE 754's, PRESUMED (log 25). -/
def Obligations.UniformFloat32Range : Prop :=
  ∀ x : Word32,
    RoundsTo binary32 ((x.toNat : ℚ) / 2 ^ 32) (FloatVal.unpack binary32 (tUf binary32 x)) ∧
    (x = 0 → tUf binary32 x = 0) ∧
    (x ≠ 0 → 0x2F800000 ≤ (tUf binary32 x).toNat ∧ (tUf binary32 x).toNat ≤ 0x3F800000) ∧
    (tUf binary32 x = 0x3F800000#32 ↔ 0xFFFFFF80 ≤ x.toNat) ∧
    (x.toNat < 0xFFFFFF80 → (tUf binary32 x).toNat ≤ 0x3F7FFFFF) ∧ tUf binary32 0xFFFFFF7F#32 = 0x3F7FFFFF#32

/-- R191, R192: the same of the 64-bit kernel, whose result denotes `w / 2^64` rounded once, in [2^-64, 1.0], with the 1024
largest words. The layout of the patterns is IEEE 754's, PRESUMED (log 25). -/
def Obligations.UniformFloat64Range : Prop :=
  ∀ x : Word64,
    RoundsTo binary64 ((x.toNat : ℚ) / 2 ^ 64) (FloatVal.unpack binary64 (tUf binary64 x)) ∧
    (x = 0 → tUf binary64 x = 0) ∧
    (x ≠ 0 → 0x3BF0000000000000 ≤ (tUf binary64 x).toNat ∧ (tUf binary64 x).toNat ≤ 0x3FF0000000000000) ∧
    (tUf binary64 x = 0x3FF0000000000000#64 ↔ 0xFFFFFFFFFFFFFC00 ≤ x.toNat) ∧
    (x.toNat < 0xFFFFFFFFFFFFFC00 → (tUf binary64 x).toNat ≤ 0x3FEFFFFFFFFFFFFF) ∧
    tUf binary64 0xFFFFFFFFFFFFFBFF#64 = 0x3FEFFFFFFFFFFFFF#64

/-- R18: rounding, the conversion of an unsigned integer, and the sum, difference, product and quotient of finite values each
give the exact result rounded once to the format, to nearest, ties to even, or an infinity where it rounds beyond the format.
The formats and that infinity are IEEE 754's, PRESUMED (log 25). -/
def Obligations.RoundingIsToNearestEven : Prop :=
  ∀ f ∈ [binary32, binary64],
    (∀ (neg : Bool) (num den : Nat) (e : Int), 0 < den →
      RoundsTo f ((if neg then -1 else 1) * ((num : ℚ) / den) * (2 : ℚ) ^ e) (roundTo f neg num den e) ∧
      ∀ s m q, roundTo f neg num den e = .fin s m q → s = neg) ∧
    (∀ u : Nat, RoundsTo f (u : ℚ) (FloatVal.ofUint f u)) ∧
    ∀ (s t : Bool) (m n : Nat) (e d : Int),
      RoundsTo f (finValue s m e + finValue t n d) ((FloatVal.fin s m e).add f (.fin t n d)) ∧
      RoundsTo f (finValue s m e - finValue t n d) ((FloatVal.fin s m e).sub f (.fin t n d)) ∧
      RoundsTo f (finValue s m e * finValue t n d) ((FloatVal.fin s m e).mul f (.fin t n d)) ∧
      (n ≠ 0 → RoundsTo f (finValue s m e / finValue t n d) ((FloatVal.fin s m e).div f (.fin t n d)))

/-- R18: the floor of a finite value of the format is the largest integer not above it, and is a value of the format.
The formats are IEEE 754's, PRESUMED (log 25). -/
def Obligations.FloorIsLargestIntegerBelow : Prop :=
  ∀ f ∈ [binary32, binary64], ∀ (s : Bool) (m : Nat) (e : Int), m < 2 ^ f.prec → f.minExp ≤ e → e ≤ f.maxExp →
    ∃ (s' : Bool) (m' : Nat) (e' : Int), (FloatVal.fin s m e).floor f = .fin s' m' e' ∧ m' < 2 ^ f.prec ∧
      finValue s' m' e' = (⌊finValue s m e⌋ : ℤ)

/-- R196: the saturating conversion. -/
def Obligations.SaturatingConversion : Prop :=
  ∀ w : Nat, w = 32 ∨ w = 64 →
    FloatVal.satU w .nan = 0 ∧ FloatVal.satU w (.inf true) = 0 ∧ (FloatVal.satU w (.inf false)).toNat = 2 ^ w - 1 ∧
    ∀ (s : Bool) (m : Nat) (e : Int),
      (finValue s m e < 1 → FloatVal.satU w (.fin s m e) = 0) ∧
      ((2 : ℚ) ^ w ≤ finValue s m e → (FloatVal.satU w (.fin s m e)).toNat = 2 ^ w - 1) ∧
      (1 ≤ finValue s m e → finValue s m e < (2 : ℚ) ^ w →
        ((FloatVal.satU w (.fin s m e)).toNat : ℤ) = ⌊finValue s m e⌋)

/-- R193: the bounded-integer transform with ordered bounds: its value, its range, and the two special cases. R194: with
reversed bounds FILLBI is not validated and the element is min + w, wrapping. -/
def Obligations.BoundedIntTransform : Prop :=
  (∀ w : Nat, w = 32 ∨ w = 64 → ∀ mn mx x : BitVec w, mn.toInt ≤ mx.toInt →
    (tBi mn mx x).toInt = mn.toInt + ((x.toNat % (mx.toInt - mn.toInt + 1).toNat : Nat) : Int) ∧
    mn.toInt ≤ (tBi mn mx x).toInt ∧ (tBi mn mx x).toInt ≤ mx.toInt ∧ (mn = mx → tBi mn mx x = mn) ∧
    (mn = BitVec.ofNat w (2 ^ (w - 1)) → mx = BitVec.ofNat w (2 ^ (w - 1) - 1) →
      tBi mn mx x = x ^^^ BitVec.ofNat w (2 ^ (w - 1)))) ∧
  (∀ w : Nat, w = 32 ∨ w = 64 → ∀ mn mx x : BitVec w, mx.toInt < mn.toInt → tBi mn mx x = mn + x)

/-- R195: the element is the formula of five rounded operations, the floor and the saturating conversion
(`RoundingIsToNearestEven`, `FloorIsLargestIntegerBelow` and `SaturatingConversion` say what each is). R197: the quotient is
the uniform-float value, since `2^W - 1` rounds to `2^W`; with finite bounds whose difference is finite the scaled value is
not below `min` when `min <= max`. R198: it is not above `min` when `max <= min`; with a NaN bound every element is 0; with
`max = +infinity` and a finite `min` it is `2^W - 1`, but 0 for the word 0.
The special values are IEEE 754's, PRESUMED (log 25). -/
def Obligations.BoundedDerivedFacts : Prop :=
  ((∀ x : Word32, (FloatVal.ofUint binary32 x.toNat).div binary32 (FloatVal.ofUint binary32 (2 ^ 32 - 1)) = uniform binary32 x) ∧
  (∀ x : Word64, (FloatVal.ofUint binary64 x.toNat).div binary64 (FloatVal.ofUint binary64 (2 ^ 64 - 1)) = uniform binary64 x)) ∧
  ((∀ mn mx x : Word32,
    (FloatVal.unpack binary32 mn = .nan ∨ FloatVal.unpack binary32 mx = .nan → tBd binary32 mn mx x = 0) ∧
    (∀ s m e, FloatVal.unpack binary32 mn = .fin s m e → FloatVal.unpack binary32 mx = .inf false →
      tBd binary32 mn mx x = if x = 0 then 0 else BitVec.allOnes 32)) ∧
  (∀ mn mx x : Word64,
    (FloatVal.unpack binary64 mn = .nan ∨ FloatVal.unpack binary64 mx = .nan → tBd binary64 mn mx x = 0) ∧
    (∀ s m e, FloatVal.unpack binary64 mn = .fin s m e → FloatVal.unpack binary64 mx = .inf false →
      tBd binary64 mn mx x = if x = 0 then 0 else BitVec.allOnes 64))) ∧
  ((∀ mn mx x : Word32,
      tBd binary32 mn mx x =
        ((((((FloatVal.ofUint binary32 x.toNat).div binary32 (FloatVal.ofUint binary32 (2 ^ 32 - 1))).mul binary32
          ((FloatVal.unpack binary32 mx).sub binary32 (FloatVal.unpack binary32 mn))).add binary32 (FloatVal.unpack binary32 mn)).floor
            binary32).satU 32) ∧
      ∀ (s t s' : Bool) (m n m' : Nat) (e d e' : Int),
        FloatVal.unpack binary32 mn = .fin s m e → FloatVal.unpack binary32 mx = .fin t n d →
        (FloatVal.unpack binary32 mx).sub binary32 (FloatVal.unpack binary32 mn) = .fin s' m' e' →
        (finValue s m e ≤ finValue t n d → scaled binary32 mn mx x = .inf false ∨
          ∃ r k q, scaled binary32 mn mx x = .fin r k q ∧ finValue s m e ≤ finValue r k q) ∧
        (finValue t n d ≤ finValue s m e → scaled binary32 mn mx x = .inf true ∨
          ∃ r k q, scaled binary32 mn mx x = .fin r k q ∧ finValue r k q ≤ finValue s m e)) ∧
    (∀ mn mx x : Word64,
      tBd binary64 mn mx x =
        ((((((FloatVal.ofUint binary64 x.toNat).div binary64 (FloatVal.ofUint binary64 (2 ^ 64 - 1))).mul binary64
          ((FloatVal.unpack binary64 mx).sub binary64 (FloatVal.unpack binary64 mn))).add binary64 (FloatVal.unpack binary64 mn)).floor
            binary64).satU 64) ∧
      ∀ (s t s' : Bool) (m n m' : Nat) (e d e' : Int),
        FloatVal.unpack binary64 mn = .fin s m e → FloatVal.unpack binary64 mx = .fin t n d →
        (FloatVal.unpack binary64 mx).sub binary64 (FloatVal.unpack binary64 mn) = .fin s' m' e' →
        (finValue s m e ≤ finValue t n d → scaled binary64 mn mx x = .inf false ∨
          ∃ r k q, scaled binary64 mn mx x = .fin r k q ∧ finValue s m e ≤ finValue r k q) ∧
        (finValue t n d ≤ finValue s m e → scaled binary64 mn mx x = .inf true ∨
          ∃ r k q, scaled binary64 mn mx x = .fin r k q ∧ finValue r k q ≤ finValue s m e)))

/-! ## Memory, visibility, races -/

/-- R72: a value is written little-endian, every other byte stays, and the canonical form is kept. -/
def Obligations.MemoryWriteIsLittleEndian : Prop :=
  ∀ (w n a : Nat) (v : BitVec w) (m : Memory),
    (∀ k < n, (m.write a n v).get (a + k) = some (v.extractLsb' (8 * k) 8)) ∧
    (∀ x, x < a ∨ a + n ≤ x → (m.write a n v).get x = m.get x) ∧ (m.wf → (m.write a n v).wf)

/-- R81: while element writes of a command are unseen (none over bytes of another), any subset of them can become visible:
for every sublist of the unseen writes some schedule of visibility events leaves exactly it unseen, with the bytes of all
others seen, and nothing else changed. The list of unseen writes and the events are the model's own (log 9, 13). -/
def Obligations.AnySubsetOfWritesCanBeSeen : Prop :=
  ∀ (s : State) (l : List Unseen), s.resetReq = false → s.sched = [] → l.Sublist s.unseen →
    s.unseen.Pairwise (fun u w => rangesMeet u.addr u.bytes.length w.addr w.bytes.length = false) →
    ∃ (ks : List Nat) (t : State),
      Host.Core.run core ks.length { s with sched := ks.map Event.reveal } = .next t ∧
      t = { s with unseen := l, seen := t.seen } ∧
      (∀ u ∈ s.unseen, u ∉ l → ∀ a b, u.byteAt a = some b → t.seen.get a = some b) ∧
      ∀ a, (∀ u ∈ s.unseen, u ∉ l → u.byteAt a = none) → t.seen.get a = s.seen.get a

/-- R82: on a coherent platform, when a command completes every host reads of every byte what memory holds. What a read sees
early, and the list of unseen writes, are the model's own (log 13, 15). -/
def Obligations.CompletionMakesWritesVisible : Prop :=
  ∀ (s t : State), s.params.coherent = true → s.phase = .exec → s.resetReq = false → step s = .next t → t.phase = .idle →
    ∀ (addr len a : Nat) (early : List (List Bool)) (engine : Bool), t.viewByte addr len early engine a = t.mem.get a

/-- R77: a read of exactly one element, whose bytes no younger write has replaced, sees it whole: all its new bytes, or what
the same read would see without that write; both can happen; and a read that no unseen write and no race touches sees what
hosts see already. The unseen writes and the flags of a read are the model's own (log 13, 15). -/
def Obligations.ElementReadsAreWhole : Prop :=
  ∀ (s : State), s.params.windowAt = none →
    (∀ (pre post : List Unseen) (u : Unseen) (bytes : List Byte), s.unseen = pre ++ u :: post → u.bytes = bytes.map some →
      (∀ w ∈ post, rangesMeet w.addr w.bytes.length u.addr bytes.length = false) →
      (∀ r ∈ s.races, r.addr < u.addr ∨ u.addr + bytes.length ≤ r.addr) →
      (∀ early engine, s.hostMemRead u.addr bytes.length early engine = bytes.map some ∨
        s.hostMemRead u.addr bytes.length early engine =
          State.hostMemRead u.addr bytes.length (early.eraseIdx pre.length) engine { s with unseen := pre ++ post }) ∧
      (∃ early, ∀ engine, s.hostMemRead u.addr bytes.length early engine = bytes.map some) ∧
      ∃ early, ∀ engine, s.hostMemRead u.addr bytes.length early engine =
        (List.range bytes.length).map fun k => s.seen.get (u.addr + k)) ∧
    ∀ (addr len : Nat) (early : List (List Bool)) (engine : List Bool),
      (∀ k < len, (∀ u ∈ s.unseen, u.byteAt (addr + k) = none) ∧ ∀ r ∈ s.races, r.addr ≠ addr + k) →
      s.hostMemRead addr len early engine = (List.range len).map fun k => s.seen.get (addr + k)

/-- R88: on a platform without coherence a completed command's writes stay unseen, and after cache maintenance over a range,
in every state the invariant allows with no command running, every host reads there what memory holds. R81: maintenance shows
no write of the running command, and on a coherent platform, in every state the invariant allows, it changes nothing. The form
of maintenance is the model's own (log 16). -/
def Obligations.StaleReadsEndWithMaintenance : Prop :=
  (∀ (s : State) (code : ResultCode), s.params.coherent = false → s.races = [] →
    (s.complete code).unseen = (s.unseen.map fun u => ⟨u.addr, u.bytes, true⟩) ∧ (s.complete code).seen = s.seen) ∧
  (∀ (s : State) (lo n addr len a : Nat) (early : List (List Bool)) (engine : Bool), s.Inv → s.phase = .idle →
    lo ≤ a → a < lo + n →
    (s.maintain lo n).viewByte addr len early engine a = s.mem.get a ∧ (s.maintain lo n).mem = s.mem) ∧
  (∀ (s : State) (lo n : Nat), (∀ u ∈ s.unseen, u.ended = false) → s.maintain lo n = s) ∧
  ∀ (s : State) (lo n : Nat), s.Inv → s.params.coherent = true → s.maintain lo n = s

/-- R84.4, R266: a host byte that races with the running FILL. The host's last value and the engine's, where it has written
there, are both known; memory holds the one that stays; a host reads either, and never anything else: the host's unless the
read sees the engine's element and takes its value, and of both some read. The flags that choose are the model's own (log 14, 15). -/
def Obligations.RacingHostByteOutcomes : Prop :=
  ∀ (s : State) (lo written hi a : Nat) (b : Byte) (wins : Bool), s.runningBuffer = some (lo, written, hi) → lo ≤ a → a < hi →
    inWindow s.params a = false →
    ∃ r, raceAt (s.hostWriteByte a b wins).races a = some r ∧ r.host = b ∧ r.wins = wins ∧
      (∀ r', raceAt s.races a = some r' → r.engine = r'.engine) ∧
      (raceAt s.races a = none → r.engine = if a < written then s.mem.get a else none) ∧
      (wins = true → (s.hostWriteByte a b wins).mem.get a = some b) ∧
      (wins = false → (s.hostWriteByte a b wins).mem.get a = some (r.engine.getD b)) ∧
      (∀ x, x ≠ a → (s.hostWriteByte a b wins).mem.get x = s.mem.get x) ∧
      ∀ (addr len : Nat) (early : List (List Bool)),
        (s.hostWriteByte a b wins).viewByte addr len early false a = some b ∧
        ((s.hostWriteByte a b wins).viewByte addr len early true a = some b ∨
          ∃ e, r.engine = some e ∧ (s.hostWriteByte a b wins).viewByte addr len early true a = some e) ∧
        (∀ e, r.engine = some e →
          ((∀ u ∈ s.unseen, u.byteAt a = none) →
            (s.hostWriteByte a b wins).viewByte addr len early true a = some e) ∧
          ∃ early' : List (List Bool), (s.hostWriteByte a b wins).viewByte addr len early' true a = some e)

/-! ## Reset and the invariant -/

/-- R260, R261, R262, R244: a requested reset takes precedence over every other event, puts the engine's state at its reset
values and leaves data memory. CTR, KEY, LCMD and LARG, which R260 leaves unspecified, are not stated. The request that asks
for a reset, and that the hosts and the schedule stay, are the model's own (log 30). -/
def Obligations.ResetTakesPrecedence : Prop :=
  ∀ s : State, s.resetReq = true →
    ∃ t, step s = .next t ∧ t.slots32.length = s.params.nSlots32 ∧ (∀ sl ∈ t.slots32, sl.live = false) ∧
      t.slots64.length = s.params.nSlots64 ∧ (∀ sl ∈ t.slots64, sl.live = false) ∧ t.phase = .idle ∧ t.status = 0 ∧
      t.arg = ⟨0, 0, 0, 0⟩ ∧ t.res = ⟨0, 0, 0, 0⟩ ∧ t.fill32 = none ∧ t.fill64 = none ∧ t.params = s.params ∧
      (∀ a, t.mem.get a = s.mem.get a) ∧ t.hosts = s.hosts ∧ t.sched = s.sched ∧ t.resetReq = false

/-- R263: after reset NEXT, FILL and DESTROY on every handle but the null one end with E_HANDLE. -/
def Obligations.NoHandleIsValidAfterReset : Prop :=
  ∀ (s : State) (h : Nat), 1 ≤ h →
    (∃ t, exec (.next32 h) s.doReset = .next t ∧ t.err = .handle) ∧
    (∃ t, exec (.next64 h) s.doReset = .next t ∧ t.err = .handle) ∧
    (∃ t, exec (.destroy32 h) s.doReset = .next t ∧ t.err = .handle) ∧
    (∃ t, exec (.destroy64 h) s.doReset = .next t ∧ t.err = .handle) ∧
    (∀ k ∈ kernels32, ∃ t, exec (k.1 h) s.doReset = .next t ∧ t.err = .handle) ∧
    (∀ k ∈ kernels64, ∃ t, exec (k.1 h) s.doReset = .next t ∧ t.err = .handle)

/-- The state after power-on reset satisfies the invariant, for all parameters the spec allows. -/
def Obligations.ResetSatisfiesInvariant : Prop :=
  (∀ p : Params, p.Wf → (State.resetWith p).Inv) ∧ State.reset.Inv

/-- The invariant, with the counter invariants of R34, the precision of BUSY, ERR and fill progress (R38, R46, R48), the
visibility of R82 and the form and range of data memory, is kept by every step. -/
def Obligations.EveryStepKeepsInvariant : Prop :=
  ∀ s t : State, s.Inv → step s = .next t → t.Inv

/-- No step stops on a platform without device regions and with the window outside data memory, as long as hosts touch data
memory only where it exists: every command runs. The stops ruled out are those of log 18, 19 and 29. -/
def Obligations.NoStopOnPlainPlatform : Prop :=
  ∀ s : State, s.params.deviceRegions = [] → s.params.windowAt = none →
    (∀ a ∈ s.hosts, ∀ op ∈ a.queue,
      (∀ addr bytes wins, op = .memWrite addr bytes wins → addr + bytes.length ≤ 2 ^ s.params.addrW) ∧
      (∀ addr len early engine, op = .memRead addr len early engine → addr + len ≤ 2 ^ s.params.addrW)) →
    ∃ t, step s = .next t

/-! ## Assembler -/

/-- R121, R110: the expansion of every line: the operands the command lists, each to the ARG register R110 gives it, a 32-bit
operand zero-extended and a FILLBD bound as its pattern rounded to the variant's format (R120); the CMD write of
`OP | (h << 8)`; WAIT. A bound's rounding rests on the IEEE layout, PRESUMED (log 25). -/
def Obligations.LinesExpandToAccesses : Prop :=
  ∀ p : Params,
    AsmLine.wait.expand p = [.wait] ∧ AsmLine.check.expand p = [.check] ∧
    (∀ k0 k1 : Nat, (AsmLine.create .v32 k0 k1).expand p =
      [HostOp.arg p 0 ((BitVec.ofNat 32 k0).setWidth 64), HostOp.arg p 1 ((BitVec.ofNat 32 k1).setWidth 64), HostOp.cmd p 0x1, .wait]) ∧
    (∀ h : Nat, h < 256 → (AsmLine.destroy .v32 h).expand p =
      [HostOp.cmd p (0x2 ||| h <<< 8), .wait]) ∧
    (∀ h : Nat, h < 256 → (AsmLine.next .v32 h).expand p =
      [HostOp.cmd p (0x3 ||| h <<< 8), .wait]) ∧
    (∀ h b c : Nat, h < 256 → (AsmLine.fillraw .v32 h b c).expand p =
      [HostOp.arg p 0 (BitVec.ofNat 64 b), HostOp.arg p 1 (BitVec.ofNat 64 c), HostOp.cmd p (0x4 ||| h <<< 8), .wait]) ∧
    (∀ h b c : Nat, h < 256 → (AsmLine.filluf .v32 h b c).expand p =
      [HostOp.arg p 0 (BitVec.ofNat 64 b), HostOp.arg p 1 (BitVec.ofNat 64 c), HostOp.cmd p (0x5 ||| h <<< 8), .wait]) ∧
    (∀ (h b c : Nat) (mn mx : Int), h < 256 → (AsmLine.fillbi .v32 h b c mn mx).expand p =
      [HostOp.arg p 0 (BitVec.ofNat 64 b), HostOp.arg p 1 (BitVec.ofNat 64 c),
        HostOp.arg p 2 ((BitVec.ofInt 32 mn).setWidth 64), HostOp.arg p 3 ((BitVec.ofInt 32 mx).setWidth 64),
        HostOp.cmd p (0x6 ||| h <<< 8), .wait]) ∧
    (∀ (h b c : Nat) (mn mx : FloatLit), h < 256 → ∃ x y, mn.Means 32 binary32 x ∧ mx.Means 32 binary32 y ∧
      (AsmLine.fillbd .v32 h b c mn mx).expand p =
        [HostOp.arg p 0 (BitVec.ofNat 64 b), HostOp.arg p 1 (BitVec.ofNat 64 c), HostOp.arg p 2 x, HostOp.arg p 3 y,
          HostOp.cmd p (0x7 ||| h <<< 8), .wait]) ∧
    (∀ k0 k1 : Nat, (AsmLine.create .v64 k0 k1).expand p =
      [HostOp.arg p 0 (BitVec.ofNat 64 k0), HostOp.arg p 1 (BitVec.ofNat 64 k1), HostOp.cmd p 0x11, .wait]) ∧
    (∀ h : Nat, h < 256 → (AsmLine.destroy .v64 h).expand p =
      [HostOp.cmd p (0x12 ||| h <<< 8), .wait]) ∧
    (∀ h : Nat, h < 256 → (AsmLine.next .v64 h).expand p =
      [HostOp.cmd p (0x13 ||| h <<< 8), .wait]) ∧
    (∀ h b c : Nat, h < 256 → (AsmLine.fillraw .v64 h b c).expand p =
      [HostOp.arg p 0 (BitVec.ofNat 64 b), HostOp.arg p 1 (BitVec.ofNat 64 c), HostOp.cmd p (0x14 ||| h <<< 8), .wait]) ∧
    (∀ h b c : Nat, h < 256 → (AsmLine.filluf .v64 h b c).expand p =
      [HostOp.arg p 0 (BitVec.ofNat 64 b), HostOp.arg p 1 (BitVec.ofNat 64 c), HostOp.cmd p (0x15 ||| h <<< 8), .wait]) ∧
    (∀ (h b c : Nat) (mn mx : Int), h < 256 → (AsmLine.fillbi .v64 h b c mn mx).expand p =
      [HostOp.arg p 0 (BitVec.ofNat 64 b), HostOp.arg p 1 (BitVec.ofNat 64 c),
        HostOp.arg p 2 (BitVec.ofInt 64 mn), HostOp.arg p 3 (BitVec.ofInt 64 mx),
        HostOp.cmd p (0x16 ||| h <<< 8), .wait]) ∧
    (∀ (h b c : Nat) (mn mx : FloatLit), h < 256 → ∃ x y, mn.Means 64 binary64 x ∧ mx.Means 64 binary64 y ∧
      (AsmLine.fillbd .v64 h b c mn mx).expand p =
        [HostOp.arg p 0 (BitVec.ofNat 64 b), HostOp.arg p 1 (BitVec.ofNat 64 c), HostOp.arg p 2 x, HostOp.arg p 3 y,
          HostOp.cmd p (0x17 ||| h <<< 8), .wait])
end

