-- ==== Sys2Proof/Laws/Float.lean ====
section
/-! SUPPORT. The rounding of a quotient to an integer (spec 00_scope.md R18). -/

namespace Sys2Proof.Machine

/-- The rounded quotient is within half of the exact one, and is even where that distance is exactly half. -/
theorem roundDiv_near (num den : Nat) (hd : 0 < den) :
    2 * num ≤ 2 * (den * roundDiv num den) + den ∧ 2 * (den * roundDiv num den) ≤ 2 * num + den ∧
      (2 * num = 2 * (den * roundDiv num den) + den ∨ 2 * (den * roundDiv num den) = 2 * num + den →
        roundDiv num den % 2 = 0) := by
  have hq := Nat.div_add_mod num den
  have hr := Nat.mod_lt num hd
  have hs : den * (num / den + 1) = den * (num / den) + den := by ring
  unfold roundDiv
  dsimp only
  split
  · refine ⟨by omega, by omega, fun h => ?_⟩
    rcases h with h | h <;> omega
  · split
    · rw [hs]
      refine ⟨by omega, by omega, fun h => ?_⟩
      rcases h with h | h <;> omega
    · split
      · exact ⟨by omega, by omega, fun _ => ‹_›⟩
      · rw [hs]
        exact ⟨by omega, by omega, fun _ => by omega⟩

/-- An exact quotient is not changed by rounding. -/
theorem roundDiv_exact (q den : Nat) (hd : 0 < den) : roundDiv (den * q) den = q := by
  unfold roundDiv
  simp [Nat.mul_div_cancel_left q hd, hd]

end Sys2Proof.Machine
end

