-- ==== Sys2Proof/Laws/Memory.lean ====
section
/-! SUPPORT. The laws of data memory: read after write, and that every operation keeps the canonical form. -/

namespace Sys2Proof.Machine

/-- A byte read after a byte write. -/
theorem Memory.get_set (m : Memory) (a x : Nat) (v : Byte) :
    (m.set a v).get x = if x = a then some v else m.get x := by
  induction m with
  | nil => simp only [Memory.set, Memory.get]
  | cons c m ih =>
    obtain ⟨b, u⟩ := c
    simp only [Memory.set]
    split
    · simp only [Memory.get]
    · split
      · subst_vars
        simp only [Memory.get]
        split <;> rfl
      · simp only [Memory.get, ih]
        split
        · split
          · omega
          · rfl
        · rfl

/-- The addresses of a memory after a byte write. -/
theorem Memory.mem_set_addr {m : Memory} {a : Nat} {v : Byte} {c : Host.Cell} (h : c ∈ m.set a v) :
    c.1 = a ∨ c ∈ m := by
  induction m with
  | nil => simp only [Memory.set, List.mem_singleton] at h; exact .inl (by rw [h])
  | cons d m ih =>
    obtain ⟨b, u⟩ := d
    simp only [Memory.set] at h
    split at h
    · rcases List.mem_cons.1 h with rfl | h
      · exact .inl rfl
      · exact .inr h
    · split at h
      · rcases List.mem_cons.1 h with rfl | h
        · exact .inl rfl
        · exact .inr (List.mem_cons_of_mem _ h)
      · rcases List.mem_cons.1 h with rfl | h
        · exact .inr List.mem_cons_self
        · exact (ih h).imp_right (List.mem_cons_of_mem _)

/-- A byte write keeps the canonical form. -/
theorem Memory.wf_set {m : Memory} (h : m.wf) (a : Nat) (v : Byte) : (m.set a v).wf := by
  induction m with
  | nil => exact List.pairwise_singleton _ _
  | cons c m ih =>
    obtain ⟨b, u⟩ := c
    obtain ⟨hb, hm⟩ := List.pairwise_cons.1 h
    simp only [Memory.set]
    split
    · refine List.pairwise_cons.2 ⟨fun d hd => ?_, h⟩
      rcases List.mem_cons.1 hd with rfl | hd
      · assumption
      · exact lt_trans ‹a < b› (hb d hd)
    · split
      · subst_vars
        exact List.pairwise_cons.2 ⟨hb, hm⟩
      · refine List.pairwise_cons.2 ⟨fun d hd => ?_, ih hm⟩
        rcases Memory.mem_set_addr hd with hd | hd
        · show b < d.1
          omega
        · exact hb d hd

/-- A byte write inside a range keeps all addresses in it. -/
theorem Memory.below_set {n : Nat} {m : Memory} (h : m.Below n) {a : Nat} (ha : a < n) (v : Byte) :
    (m.set a v).Below n := by
  intro c hc
  rcases Memory.mem_set_addr hc with hc | hc
  · omega
  · exact h c hc

/-- Writing bytes keeps the canonical form. -/
theorem Memory.wf_setBytes {m : Memory} (h : m.wf) (a : Nat) (bs : List Byte) : (m.setBytes a bs).wf := by
  induction bs generalizing m a with
  | nil => exact h
  | cons b bs ih => exact ih (Memory.wf_set h a b) (a + 1)

/-- Writing bytes inside a range keeps all addresses in it. -/
theorem Memory.below_setBytes {n : Nat} {m : Memory} (h : m.Below n) {a : Nat} {bs : List Byte}
    (ha : a + bs.length ≤ n) : (m.setBytes a bs).Below n := by
  induction bs generalizing m a with
  | nil => exact h
  | cons b bs ih =>
    rw [List.length_cons] at ha
    exact ih (Memory.below_set h (by omega) b) (by omega)

/-- A byte read outside the bytes written. -/
theorem Memory.get_setBytes_outside (m : Memory) (a x : Nat) (bs : List Byte) (hx : x < a ∨ a + bs.length ≤ x) :
    (m.setBytes a bs).get x = m.get x := by
  induction bs generalizing m a with
  | nil => rfl
  | cons b bs ih =>
    rw [List.length_cons] at hx
    rw [Memory.setBytes, ih _ _ (by omega), Memory.get_set, if_neg (by omega)]

/-- A byte read inside the bytes written. -/
theorem Memory.get_setBytes_inside (m : Memory) (a k : Nat) (bs : List Byte) (hk : k < bs.length) :
    (m.setBytes a bs).get (a + k) = some bs[k] := by
  induction bs generalizing m a k with
  | nil => exact absurd hk (Nat.not_lt_zero _)
  | cons b bs ih =>
    rw [Memory.setBytes]
    cases k with
    | zero =>
      rw [Memory.get_setBytes_outside _ _ _ _ (by omega), Memory.get_set]
      simp
    | succ k =>
      have h := ih (m.set a b) (a + 1) k (by simpa using hk)
      rw [show a + (k + 1) = a + 1 + k by omega, h]
      rfl

/-- A value has as many bytes as it is written in. -/
@[simp] theorem leBytes_length {w : Nat} (n : Nat) (v : BitVec w) : (leBytes n v).length = n := by
  simp [leBytes]

/-- Byte `k` of a value (20_memory.md R72). -/
theorem leBytes_getElem {w : Nat} (n : Nat) (v : BitVec w) (k : Nat) (hk : k < (leBytes n v).length) :
    (leBytes n v)[k] = v.extractLsb' (8 * k) 8 := by
  simp [leBytes]

/-- Two ranges meet exactly when they share an address. -/
theorem rangesMeet_iff (a n b k : Nat) :
    rangesMeet a n b k = true ↔ ∃ x, (a ≤ x ∧ x < a + n) ∧ (b ≤ x ∧ x < b + k) := by
  simp only [rangesMeet, Bool.and_eq_true, decide_eq_true_eq]
  constructor
  · rintro ⟨⟨⟨h1, h2⟩, h3⟩, h4⟩
    exact ⟨max a b, by omega, by omega⟩
  · rintro ⟨x, h1, h2⟩
    omega

end Sys2Proof.Machine
end

