-- ==== Sys2Proof/Laws/State.lean ====
section
/-! SUPPORT. What each update of State does to each field, one lemma a field and update, so that no proof unfolds a record
update. -/

namespace Sys2Proof.Machine

section Fields

variable (s : State)

/-! ### accept -/

@[simp] theorem State.accept_params (w : Word32) : (s.accept w).params = s.params := rfl
@[simp] theorem State.accept_slots32 (w : Word32) : (s.accept w).slots32 = s.slots32 := rfl
@[simp] theorem State.accept_slots64 (w : Word32) : (s.accept w).slots64 = s.slots64 := rfl
@[simp] theorem State.accept_phase (w : Word32) : (s.accept w).phase = .exec := rfl
@[simp] theorem State.accept_lcmd (w : Word32) : (s.accept w).lcmd = w := rfl
@[simp] theorem State.accept_larg (w : Word32) : (s.accept w).larg = s.arg := rfl
@[simp] theorem State.accept_fill32 (w : Word32) : (s.accept w).fill32 = none := rfl
@[simp] theorem State.accept_fill64 (w : Word32) : (s.accept w).fill64 = none := rfl
@[simp] theorem State.accept_arg (w : Word32) : (s.accept w).arg = s.arg := rfl
@[simp] theorem State.accept_res (w : Word32) : (s.accept w).res = s.res := rfl
@[simp] theorem State.accept_ovr (w : Word32) : (s.accept w).ovr = false := rfl
@[simp] theorem State.accept_err (w : Word32) : (s.accept w).err = .ok := rfl
@[simp] theorem State.accept_mem (w : Word32) : (s.accept w).mem = s.mem := rfl
@[simp] theorem State.accept_seen (w : Word32) : (s.accept w).seen = s.seen := rfl
@[simp] theorem State.accept_unseen (w : Word32) : (s.accept w).unseen = s.unseen := rfl
@[simp] theorem State.accept_races (w : Word32) : (s.accept w).races = [] := rfl
@[simp] theorem State.accept_hosts (w : Word32) : (s.accept w).hosts = s.hosts := rfl
@[simp] theorem State.accept_sched (w : Word32) : (s.accept w).sched = s.sched := rfl
@[simp] theorem State.accept_resetReq (w : Word32) : (s.accept w).resetReq = s.resetReq := rfl

/-! ### complete -/

@[simp] theorem State.complete_params (c : ResultCode) : (s.complete c).params = s.params := rfl
@[simp] theorem State.complete_slots32 (c : ResultCode) : (s.complete c).slots32 = s.slots32 := rfl
@[simp] theorem State.complete_slots64 (c : ResultCode) : (s.complete c).slots64 = s.slots64 := rfl
@[simp] theorem State.complete_phase (c : ResultCode) : (s.complete c).phase = .idle := rfl
@[simp] theorem State.complete_lcmd (c : ResultCode) : (s.complete c).lcmd = s.lcmd := rfl
@[simp] theorem State.complete_larg (c : ResultCode) : (s.complete c).larg = s.larg := rfl
@[simp] theorem State.complete_fill32 (c : ResultCode) : (s.complete c).fill32 = none := rfl
@[simp] theorem State.complete_fill64 (c : ResultCode) : (s.complete c).fill64 = none := rfl
@[simp] theorem State.complete_arg (c : ResultCode) : (s.complete c).arg = s.arg := rfl
@[simp] theorem State.complete_res (c : ResultCode) : (s.complete c).res = s.res := rfl
@[simp] theorem State.complete_ovr (c : ResultCode) : (s.complete c).ovr = s.ovr := rfl
@[simp] theorem State.complete_err (c : ResultCode) : (s.complete c).err = c := rfl
@[simp] theorem State.complete_mem (c : ResultCode) : (s.complete c).mem = s.mem := rfl
@[simp] theorem State.complete_seen (c : ResultCode) : (s.complete c).seen = s.settledView.1 := rfl
@[simp] theorem State.complete_unseen (c : ResultCode) : (s.complete c).unseen = s.settledView.2 := rfl
@[simp] theorem State.complete_races (c : ResultCode) : (s.complete c).races = [] := rfl
@[simp] theorem State.complete_hosts (c : ResultCode) : (s.complete c).hosts = s.hosts := rfl
@[simp] theorem State.complete_sched (c : ResultCode) : (s.complete c).sched = s.sched := rfl
@[simp] theorem State.complete_resetReq (c : ResultCode) : (s.complete c).resetReq = s.resetReq := rfl

/-! ### raise -/

@[simp] theorem State.raise_params (c : ResultCode) : (s.raise c).params = s.params := rfl
@[simp] theorem State.raise_slots32 (c : ResultCode) : (s.raise c).slots32 = s.slots32 := rfl
@[simp] theorem State.raise_slots64 (c : ResultCode) : (s.raise c).slots64 = s.slots64 := rfl
@[simp] theorem State.raise_phase (c : ResultCode) : (s.raise c).phase = .idle := rfl
@[simp] theorem State.raise_lcmd (c : ResultCode) : (s.raise c).lcmd = s.lcmd := rfl
@[simp] theorem State.raise_larg (c : ResultCode) : (s.raise c).larg = s.larg := rfl
@[simp] theorem State.raise_fill32 (c : ResultCode) : (s.raise c).fill32 = none := rfl
@[simp] theorem State.raise_fill64 (c : ResultCode) : (s.raise c).fill64 = none := rfl
@[simp] theorem State.raise_arg (c : ResultCode) : (s.raise c).arg = s.arg := rfl
@[simp] theorem State.raise_res (c : ResultCode) : (s.raise c).res = s.res := rfl
@[simp] theorem State.raise_ovr (c : ResultCode) : (s.raise c).ovr = s.ovr := rfl
@[simp] theorem State.raise_err (c : ResultCode) : (s.raise c).err = c := rfl
@[simp] theorem State.raise_mem (c : ResultCode) : (s.raise c).mem = s.mem := rfl
@[simp] theorem State.raise_seen (c : ResultCode) : (s.raise c).seen = s.settledView.1 := rfl
@[simp] theorem State.raise_unseen (c : ResultCode) : (s.raise c).unseen = s.settledView.2 := rfl
@[simp] theorem State.raise_races (c : ResultCode) : (s.raise c).races = [] := rfl
@[simp] theorem State.raise_hosts (c : ResultCode) : (s.raise c).hosts = s.hosts := rfl
@[simp] theorem State.raise_sched (c : ResultCode) : (s.raise c).sched = s.sched := rfl
@[simp] theorem State.raise_resetReq (c : ResultCode) : (s.raise c).resetReq = s.resetReq := rfl

/-! ### succeed -/

@[simp] theorem State.succeed_params : (s.succeed).params = s.params := rfl
@[simp] theorem State.succeed_slots32 : (s.succeed).slots32 = s.slots32 := rfl
@[simp] theorem State.succeed_slots64 : (s.succeed).slots64 = s.slots64 := rfl
@[simp] theorem State.succeed_phase : (s.succeed).phase = .idle := rfl
@[simp] theorem State.succeed_lcmd : (s.succeed).lcmd = s.lcmd := rfl
@[simp] theorem State.succeed_larg : (s.succeed).larg = s.larg := rfl
@[simp] theorem State.succeed_fill32 : (s.succeed).fill32 = none := rfl
@[simp] theorem State.succeed_fill64 : (s.succeed).fill64 = none := rfl
@[simp] theorem State.succeed_arg : (s.succeed).arg = s.arg := rfl
@[simp] theorem State.succeed_res : (s.succeed).res = s.res := rfl
@[simp] theorem State.succeed_ovr : (s.succeed).ovr = s.ovr := rfl
@[simp] theorem State.succeed_err : (s.succeed).err = .ok := rfl
@[simp] theorem State.succeed_mem : (s.succeed).mem = s.mem := rfl
@[simp] theorem State.succeed_seen : (s.succeed).seen = s.settledView.1 := rfl
@[simp] theorem State.succeed_unseen : (s.succeed).unseen = s.settledView.2 := rfl
@[simp] theorem State.succeed_races : (s.succeed).races = [] := rfl
@[simp] theorem State.succeed_hosts : (s.succeed).hosts = s.hosts := rfl
@[simp] theorem State.succeed_sched : (s.succeed).sched = s.sched := rfl
@[simp] theorem State.succeed_resetReq : (s.succeed).resetReq = s.resetReq := rfl

/-! ### succeedWith -/

@[simp] theorem State.succeedWith_params (r : Regs4) : (s.succeedWith r).params = s.params := rfl
@[simp] theorem State.succeedWith_slots32 (r : Regs4) : (s.succeedWith r).slots32 = s.slots32 := rfl
@[simp] theorem State.succeedWith_slots64 (r : Regs4) : (s.succeedWith r).slots64 = s.slots64 := rfl
@[simp] theorem State.succeedWith_phase (r : Regs4) : (s.succeedWith r).phase = .idle := rfl
@[simp] theorem State.succeedWith_lcmd (r : Regs4) : (s.succeedWith r).lcmd = s.lcmd := rfl
@[simp] theorem State.succeedWith_larg (r : Regs4) : (s.succeedWith r).larg = s.larg := rfl
@[simp] theorem State.succeedWith_fill32 (r : Regs4) : (s.succeedWith r).fill32 = none := rfl
@[simp] theorem State.succeedWith_fill64 (r : Regs4) : (s.succeedWith r).fill64 = none := rfl
@[simp] theorem State.succeedWith_arg (r : Regs4) : (s.succeedWith r).arg = s.arg := rfl
@[simp] theorem State.succeedWith_res (r : Regs4) : (s.succeedWith r).res = r := rfl
@[simp] theorem State.succeedWith_ovr (r : Regs4) : (s.succeedWith r).ovr = s.ovr := rfl
@[simp] theorem State.succeedWith_err (r : Regs4) : (s.succeedWith r).err = .ok := rfl
@[simp] theorem State.succeedWith_mem (r : Regs4) : (s.succeedWith r).mem = s.mem := rfl
@[simp] theorem State.succeedWith_seen (r : Regs4) : (s.succeedWith r).seen = s.settledView.1 := rfl
@[simp] theorem State.succeedWith_unseen (r : Regs4) : (s.succeedWith r).unseen = s.settledView.2 := rfl
@[simp] theorem State.succeedWith_races (r : Regs4) : (s.succeedWith r).races = [] := rfl
@[simp] theorem State.succeedWith_hosts (r : Regs4) : (s.succeedWith r).hosts = s.hosts := rfl
@[simp] theorem State.succeedWith_sched (r : Regs4) : (s.succeedWith r).sched = s.sched := rfl
@[simp] theorem State.succeedWith_resetReq (r : Regs4) : (s.succeedWith r).resetReq = s.resetReq := rfl

/-! ### doReset -/

@[simp] theorem State.doReset_params : (s.doReset).params = s.params := rfl
@[simp] theorem State.doReset_slots32 : (s.doReset).slots32 = List.replicate s.params.nSlots32 Slot.reset32 := rfl
@[simp] theorem State.doReset_slots64 : (s.doReset).slots64 = List.replicate s.params.nSlots64 Slot.reset64 := rfl
@[simp] theorem State.doReset_phase : (s.doReset).phase = .idle := rfl
@[simp] theorem State.doReset_lcmd : (s.doReset).lcmd = 0 := rfl
@[simp] theorem State.doReset_larg : (s.doReset).larg = Regs4.zero := rfl
@[simp] theorem State.doReset_fill32 : (s.doReset).fill32 = none := rfl
@[simp] theorem State.doReset_fill64 : (s.doReset).fill64 = none := rfl
@[simp] theorem State.doReset_arg : (s.doReset).arg = Regs4.zero := rfl
@[simp] theorem State.doReset_res : (s.doReset).res = Regs4.zero := rfl
@[simp] theorem State.doReset_ovr : (s.doReset).ovr = false := rfl
@[simp] theorem State.doReset_err : (s.doReset).err = .ok := rfl
@[simp] theorem State.doReset_mem : (s.doReset).mem = s.mem := rfl
@[simp] theorem State.doReset_seen : (s.doReset).seen = s.settledView.1 := rfl
@[simp] theorem State.doReset_unseen : (s.doReset).unseen = s.settledView.2 := rfl
@[simp] theorem State.doReset_races : (s.doReset).races = [] := rfl
@[simp] theorem State.doReset_hosts : (s.doReset).hosts = s.hosts := rfl
@[simp] theorem State.doReset_sched : (s.doReset).sched = s.sched := rfl
@[simp] theorem State.doReset_resetReq : (s.doReset).resetReq = false := rfl

/-! ### setSlot32 -/

@[simp] theorem State.setSlot32_params (h : Nat) (sl : Slot Ctr32 32) : (gen32.setSlot h sl s).params = s.params := rfl
@[simp] theorem State.setSlot32_slots32 (h : Nat) (sl : Slot Ctr32 32) : (gen32.setSlot h sl s).slots32 =
    s.slots32.set (h - 1) sl := rfl
@[simp] theorem State.setSlot32_slots64 (h : Nat) (sl : Slot Ctr32 32) : (gen32.setSlot h sl s).slots64 =
    s.slots64 := rfl
@[simp] theorem State.setSlot32_phase (h : Nat) (sl : Slot Ctr32 32) : (gen32.setSlot h sl s).phase = s.phase := rfl
@[simp] theorem State.setSlot32_lcmd (h : Nat) (sl : Slot Ctr32 32) : (gen32.setSlot h sl s).lcmd = s.lcmd := rfl
@[simp] theorem State.setSlot32_larg (h : Nat) (sl : Slot Ctr32 32) : (gen32.setSlot h sl s).larg = s.larg := rfl
@[simp] theorem State.setSlot32_fill32 (h : Nat) (sl : Slot Ctr32 32) : (gen32.setSlot h sl s).fill32 = s.fill32 := rfl
@[simp] theorem State.setSlot32_fill64 (h : Nat) (sl : Slot Ctr32 32) : (gen32.setSlot h sl s).fill64 = s.fill64 := rfl
@[simp] theorem State.setSlot32_arg (h : Nat) (sl : Slot Ctr32 32) : (gen32.setSlot h sl s).arg = s.arg := rfl
@[simp] theorem State.setSlot32_res (h : Nat) (sl : Slot Ctr32 32) : (gen32.setSlot h sl s).res = s.res := rfl
@[simp] theorem State.setSlot32_ovr (h : Nat) (sl : Slot Ctr32 32) : (gen32.setSlot h sl s).ovr = s.ovr := rfl
@[simp] theorem State.setSlot32_err (h : Nat) (sl : Slot Ctr32 32) : (gen32.setSlot h sl s).err = s.err := rfl
@[simp] theorem State.setSlot32_mem (h : Nat) (sl : Slot Ctr32 32) : (gen32.setSlot h sl s).mem = s.mem := rfl
@[simp] theorem State.setSlot32_seen (h : Nat) (sl : Slot Ctr32 32) : (gen32.setSlot h sl s).seen = s.seen := rfl
@[simp] theorem State.setSlot32_unseen (h : Nat) (sl : Slot Ctr32 32) : (gen32.setSlot h sl s).unseen = s.unseen := rfl
@[simp] theorem State.setSlot32_races (h : Nat) (sl : Slot Ctr32 32) : (gen32.setSlot h sl s).races = s.races := rfl
@[simp] theorem State.setSlot32_hosts (h : Nat) (sl : Slot Ctr32 32) : (gen32.setSlot h sl s).hosts = s.hosts := rfl
@[simp] theorem State.setSlot32_sched (h : Nat) (sl : Slot Ctr32 32) : (gen32.setSlot h sl s).sched = s.sched := rfl
@[simp] theorem State.setSlot32_resetReq (h : Nat) (sl : Slot Ctr32 32) : (gen32.setSlot h sl s).resetReq =
    s.resetReq := rfl

/-! ### setSlot64 -/

@[simp] theorem State.setSlot64_params (h : Nat) (sl : Slot Ctr64 64) : (gen64.setSlot h sl s).params = s.params := rfl
@[simp] theorem State.setSlot64_slots32 (h : Nat) (sl : Slot Ctr64 64) : (gen64.setSlot h sl s).slots32 =
    s.slots32 := rfl
@[simp] theorem State.setSlot64_slots64 (h : Nat) (sl : Slot Ctr64 64) : (gen64.setSlot h sl s).slots64 =
    s.slots64.set (h - 1) sl := rfl
@[simp] theorem State.setSlot64_phase (h : Nat) (sl : Slot Ctr64 64) : (gen64.setSlot h sl s).phase = s.phase := rfl
@[simp] theorem State.setSlot64_lcmd (h : Nat) (sl : Slot Ctr64 64) : (gen64.setSlot h sl s).lcmd = s.lcmd := rfl
@[simp] theorem State.setSlot64_larg (h : Nat) (sl : Slot Ctr64 64) : (gen64.setSlot h sl s).larg = s.larg := rfl
@[simp] theorem State.setSlot64_fill32 (h : Nat) (sl : Slot Ctr64 64) : (gen64.setSlot h sl s).fill32 = s.fill32 := rfl
@[simp] theorem State.setSlot64_fill64 (h : Nat) (sl : Slot Ctr64 64) : (gen64.setSlot h sl s).fill64 = s.fill64 := rfl
@[simp] theorem State.setSlot64_arg (h : Nat) (sl : Slot Ctr64 64) : (gen64.setSlot h sl s).arg = s.arg := rfl
@[simp] theorem State.setSlot64_res (h : Nat) (sl : Slot Ctr64 64) : (gen64.setSlot h sl s).res = s.res := rfl
@[simp] theorem State.setSlot64_ovr (h : Nat) (sl : Slot Ctr64 64) : (gen64.setSlot h sl s).ovr = s.ovr := rfl
@[simp] theorem State.setSlot64_err (h : Nat) (sl : Slot Ctr64 64) : (gen64.setSlot h sl s).err = s.err := rfl
@[simp] theorem State.setSlot64_mem (h : Nat) (sl : Slot Ctr64 64) : (gen64.setSlot h sl s).mem = s.mem := rfl
@[simp] theorem State.setSlot64_seen (h : Nat) (sl : Slot Ctr64 64) : (gen64.setSlot h sl s).seen = s.seen := rfl
@[simp] theorem State.setSlot64_unseen (h : Nat) (sl : Slot Ctr64 64) : (gen64.setSlot h sl s).unseen = s.unseen := rfl
@[simp] theorem State.setSlot64_races (h : Nat) (sl : Slot Ctr64 64) : (gen64.setSlot h sl s).races = s.races := rfl
@[simp] theorem State.setSlot64_hosts (h : Nat) (sl : Slot Ctr64 64) : (gen64.setSlot h sl s).hosts = s.hosts := rfl
@[simp] theorem State.setSlot64_sched (h : Nat) (sl : Slot Ctr64 64) : (gen64.setSlot h sl s).sched = s.sched := rfl
@[simp] theorem State.setSlot64_resetReq (h : Nat) (sl : Slot Ctr64 64) : (gen64.setSlot h sl s).resetReq =
    s.resetReq := rfl

/-! ### advanceSlot32 -/

@[simp] theorem State.advanceSlot32_params (h : Nat) (sl : Slot Ctr32 32) : (gen32.advanceSlot h sl s).params =
    s.params := rfl
@[simp] theorem State.advanceSlot32_slots32 (h : Nat) (sl : Slot Ctr32 32) : (gen32.advanceSlot h sl s).slots32 =
    s.slots32.set (h - 1) ⟨sl.live, advance32 sl.ctr, sl.key⟩ := rfl
@[simp] theorem State.advanceSlot32_slots64 (h : Nat) (sl : Slot Ctr32 32) : (gen32.advanceSlot h sl s).slots64 =
    s.slots64 := rfl
@[simp] theorem State.advanceSlot32_phase (h : Nat) (sl : Slot Ctr32 32) : (gen32.advanceSlot h sl s).phase =
    s.phase := rfl
@[simp] theorem State.advanceSlot32_lcmd (h : Nat) (sl : Slot Ctr32 32) : (gen32.advanceSlot h sl s).lcmd =
    s.lcmd := rfl
@[simp] theorem State.advanceSlot32_larg (h : Nat) (sl : Slot Ctr32 32) : (gen32.advanceSlot h sl s).larg =
    s.larg := rfl
@[simp] theorem State.advanceSlot32_fill32 (h : Nat) (sl : Slot Ctr32 32) : (gen32.advanceSlot h sl s).fill32 =
    s.fill32 := rfl
@[simp] theorem State.advanceSlot32_fill64 (h : Nat) (sl : Slot Ctr32 32) : (gen32.advanceSlot h sl s).fill64 =
    s.fill64 := rfl
@[simp] theorem State.advanceSlot32_arg (h : Nat) (sl : Slot Ctr32 32) : (gen32.advanceSlot h sl s).arg = s.arg := rfl
@[simp] theorem State.advanceSlot32_res (h : Nat) (sl : Slot Ctr32 32) : (gen32.advanceSlot h sl s).res = s.res := rfl
@[simp] theorem State.advanceSlot32_ovr (h : Nat) (sl : Slot Ctr32 32) : (gen32.advanceSlot h sl s).ovr = s.ovr := rfl
@[simp] theorem State.advanceSlot32_err (h : Nat) (sl : Slot Ctr32 32) : (gen32.advanceSlot h sl s).err = s.err := rfl
@[simp] theorem State.advanceSlot32_mem (h : Nat) (sl : Slot Ctr32 32) : (gen32.advanceSlot h sl s).mem = s.mem := rfl
@[simp] theorem State.advanceSlot32_seen (h : Nat) (sl : Slot Ctr32 32) : (gen32.advanceSlot h sl s).seen =
    s.seen := rfl
@[simp] theorem State.advanceSlot32_unseen (h : Nat) (sl : Slot Ctr32 32) : (gen32.advanceSlot h sl s).unseen =
    s.unseen := rfl
@[simp] theorem State.advanceSlot32_races (h : Nat) (sl : Slot Ctr32 32) : (gen32.advanceSlot h sl s).races =
    s.races := rfl
@[simp] theorem State.advanceSlot32_hosts (h : Nat) (sl : Slot Ctr32 32) : (gen32.advanceSlot h sl s).hosts =
    s.hosts := rfl
@[simp] theorem State.advanceSlot32_sched (h : Nat) (sl : Slot Ctr32 32) : (gen32.advanceSlot h sl s).sched =
    s.sched := rfl
@[simp] theorem State.advanceSlot32_resetReq (h : Nat) (sl : Slot Ctr32 32) : (gen32.advanceSlot h sl s).resetReq =
    s.resetReq := rfl

/-! ### advanceSlot64 -/

@[simp] theorem State.advanceSlot64_params (h : Nat) (sl : Slot Ctr64 64) : (gen64.advanceSlot h sl s).params =
    s.params := rfl
@[simp] theorem State.advanceSlot64_slots32 (h : Nat) (sl : Slot Ctr64 64) : (gen64.advanceSlot h sl s).slots32 =
    s.slots32 := rfl
@[simp] theorem State.advanceSlot64_slots64 (h : Nat) (sl : Slot Ctr64 64) : (gen64.advanceSlot h sl s).slots64 =
    s.slots64.set (h - 1) ⟨sl.live, advance64 sl.ctr, sl.key⟩ := rfl
@[simp] theorem State.advanceSlot64_phase (h : Nat) (sl : Slot Ctr64 64) : (gen64.advanceSlot h sl s).phase =
    s.phase := rfl
@[simp] theorem State.advanceSlot64_lcmd (h : Nat) (sl : Slot Ctr64 64) : (gen64.advanceSlot h sl s).lcmd =
    s.lcmd := rfl
@[simp] theorem State.advanceSlot64_larg (h : Nat) (sl : Slot Ctr64 64) : (gen64.advanceSlot h sl s).larg =
    s.larg := rfl
@[simp] theorem State.advanceSlot64_fill32 (h : Nat) (sl : Slot Ctr64 64) : (gen64.advanceSlot h sl s).fill32 =
    s.fill32 := rfl
@[simp] theorem State.advanceSlot64_fill64 (h : Nat) (sl : Slot Ctr64 64) : (gen64.advanceSlot h sl s).fill64 =
    s.fill64 := rfl
@[simp] theorem State.advanceSlot64_arg (h : Nat) (sl : Slot Ctr64 64) : (gen64.advanceSlot h sl s).arg = s.arg := rfl
@[simp] theorem State.advanceSlot64_res (h : Nat) (sl : Slot Ctr64 64) : (gen64.advanceSlot h sl s).res = s.res := rfl
@[simp] theorem State.advanceSlot64_ovr (h : Nat) (sl : Slot Ctr64 64) : (gen64.advanceSlot h sl s).ovr = s.ovr := rfl
@[simp] theorem State.advanceSlot64_err (h : Nat) (sl : Slot Ctr64 64) : (gen64.advanceSlot h sl s).err = s.err := rfl
@[simp] theorem State.advanceSlot64_mem (h : Nat) (sl : Slot Ctr64 64) : (gen64.advanceSlot h sl s).mem = s.mem := rfl
@[simp] theorem State.advanceSlot64_seen (h : Nat) (sl : Slot Ctr64 64) : (gen64.advanceSlot h sl s).seen =
    s.seen := rfl
@[simp] theorem State.advanceSlot64_unseen (h : Nat) (sl : Slot Ctr64 64) : (gen64.advanceSlot h sl s).unseen =
    s.unseen := rfl
@[simp] theorem State.advanceSlot64_races (h : Nat) (sl : Slot Ctr64 64) : (gen64.advanceSlot h sl s).races =
    s.races := rfl
@[simp] theorem State.advanceSlot64_hosts (h : Nat) (sl : Slot Ctr64 64) : (gen64.advanceSlot h sl s).hosts =
    s.hosts := rfl
@[simp] theorem State.advanceSlot64_sched (h : Nat) (sl : Slot Ctr64 64) : (gen64.advanceSlot h sl s).sched =
    s.sched := rfl
@[simp] theorem State.advanceSlot64_resetReq (h : Nat) (sl : Slot Ctr64 64) : (gen64.advanceSlot h sl s).resetReq =
    s.resetReq := rfl

/-! ### fillRound32 -/

@[simp] theorem State.fillRound32_params (h i : Nat) (sl : Slot Ctr32 32) : (gen32.fillRound h sl i s).params =
    s.params := rfl
@[simp] theorem State.fillRound32_slots32 (h i : Nat) (sl : Slot Ctr32 32) : (gen32.fillRound h sl i s).slots32 =
    s.slots32.set (h - 1) ⟨sl.live, advance32 sl.ctr, sl.key⟩ := rfl
@[simp] theorem State.fillRound32_slots64 (h i : Nat) (sl : Slot Ctr32 32) : (gen32.fillRound h sl i s).slots64 =
    s.slots64 := rfl
@[simp] theorem State.fillRound32_phase (h i : Nat) (sl : Slot Ctr32 32) : (gen32.fillRound h sl i s).phase =
    s.phase := rfl
@[simp] theorem State.fillRound32_lcmd (h i : Nat) (sl : Slot Ctr32 32) : (gen32.fillRound h sl i s).lcmd =
    s.lcmd := rfl
@[simp] theorem State.fillRound32_larg (h i : Nat) (sl : Slot Ctr32 32) : (gen32.fillRound h sl i s).larg =
    s.larg := rfl
@[simp] theorem State.fillRound32_fill32 (h i : Nat) (sl : Slot Ctr32 32) : (gen32.fillRound h sl i s).fill32 =
    some ⟨i, 0, round32 s.params.g32Out1 sl.ctr sl.key⟩ := rfl
@[simp] theorem State.fillRound32_fill64 (h i : Nat) (sl : Slot Ctr32 32) : (gen32.fillRound h sl i s).fill64 =
    s.fill64 := rfl
@[simp] theorem State.fillRound32_arg (h i : Nat) (sl : Slot Ctr32 32) : (gen32.fillRound h sl i s).arg = s.arg := rfl
@[simp] theorem State.fillRound32_res (h i : Nat) (sl : Slot Ctr32 32) : (gen32.fillRound h sl i s).res = s.res := rfl
@[simp] theorem State.fillRound32_ovr (h i : Nat) (sl : Slot Ctr32 32) : (gen32.fillRound h sl i s).ovr = s.ovr := rfl
@[simp] theorem State.fillRound32_err (h i : Nat) (sl : Slot Ctr32 32) : (gen32.fillRound h sl i s).err = s.err := rfl
@[simp] theorem State.fillRound32_mem (h i : Nat) (sl : Slot Ctr32 32) : (gen32.fillRound h sl i s).mem = s.mem := rfl
@[simp] theorem State.fillRound32_seen (h i : Nat) (sl : Slot Ctr32 32) : (gen32.fillRound h sl i s).seen =
    s.seen := rfl
@[simp] theorem State.fillRound32_unseen (h i : Nat) (sl : Slot Ctr32 32) : (gen32.fillRound h sl i s).unseen =
    s.unseen := rfl
@[simp] theorem State.fillRound32_races (h i : Nat) (sl : Slot Ctr32 32) : (gen32.fillRound h sl i s).races =
    s.races := rfl
@[simp] theorem State.fillRound32_hosts (h i : Nat) (sl : Slot Ctr32 32) : (gen32.fillRound h sl i s).hosts =
    s.hosts := rfl
@[simp] theorem State.fillRound32_sched (h i : Nat) (sl : Slot Ctr32 32) : (gen32.fillRound h sl i s).sched =
    s.sched := rfl
@[simp] theorem State.fillRound32_resetReq (h i : Nat) (sl : Slot Ctr32 32) : (gen32.fillRound h sl i s).resetReq =
    s.resetReq := rfl

/-! ### fillRound64 -/

@[simp] theorem State.fillRound64_params (h i : Nat) (sl : Slot Ctr64 64) : (gen64.fillRound h sl i s).params =
    s.params := rfl
@[simp] theorem State.fillRound64_slots32 (h i : Nat) (sl : Slot Ctr64 64) : (gen64.fillRound h sl i s).slots32 =
    s.slots32 := rfl
@[simp] theorem State.fillRound64_slots64 (h i : Nat) (sl : Slot Ctr64 64) : (gen64.fillRound h sl i s).slots64 =
    s.slots64.set (h - 1) ⟨sl.live, advance64 sl.ctr, sl.key⟩ := rfl
@[simp] theorem State.fillRound64_phase (h i : Nat) (sl : Slot Ctr64 64) : (gen64.fillRound h sl i s).phase =
    s.phase := rfl
@[simp] theorem State.fillRound64_lcmd (h i : Nat) (sl : Slot Ctr64 64) : (gen64.fillRound h sl i s).lcmd =
    s.lcmd := rfl
@[simp] theorem State.fillRound64_larg (h i : Nat) (sl : Slot Ctr64 64) : (gen64.fillRound h sl i s).larg =
    s.larg := rfl
@[simp] theorem State.fillRound64_fill32 (h i : Nat) (sl : Slot Ctr64 64) : (gen64.fillRound h sl i s).fill32 =
    s.fill32 := rfl
@[simp] theorem State.fillRound64_fill64 (h i : Nat) (sl : Slot Ctr64 64) : (gen64.fillRound h sl i s).fill64 =
    some ⟨i, 0, round64 sl.ctr sl.key⟩ := rfl
@[simp] theorem State.fillRound64_arg (h i : Nat) (sl : Slot Ctr64 64) : (gen64.fillRound h sl i s).arg = s.arg := rfl
@[simp] theorem State.fillRound64_res (h i : Nat) (sl : Slot Ctr64 64) : (gen64.fillRound h sl i s).res = s.res := rfl
@[simp] theorem State.fillRound64_ovr (h i : Nat) (sl : Slot Ctr64 64) : (gen64.fillRound h sl i s).ovr = s.ovr := rfl
@[simp] theorem State.fillRound64_err (h i : Nat) (sl : Slot Ctr64 64) : (gen64.fillRound h sl i s).err = s.err := rfl
@[simp] theorem State.fillRound64_mem (h i : Nat) (sl : Slot Ctr64 64) : (gen64.fillRound h sl i s).mem = s.mem := rfl
@[simp] theorem State.fillRound64_seen (h i : Nat) (sl : Slot Ctr64 64) : (gen64.fillRound h sl i s).seen =
    s.seen := rfl
@[simp] theorem State.fillRound64_unseen (h i : Nat) (sl : Slot Ctr64 64) : (gen64.fillRound h sl i s).unseen =
    s.unseen := rfl
@[simp] theorem State.fillRound64_races (h i : Nat) (sl : Slot Ctr64 64) : (gen64.fillRound h sl i s).races =
    s.races := rfl
@[simp] theorem State.fillRound64_hosts (h i : Nat) (sl : Slot Ctr64 64) : (gen64.fillRound h sl i s).hosts =
    s.hosts := rfl
@[simp] theorem State.fillRound64_sched (h i : Nat) (sl : Slot Ctr64 64) : (gen64.fillRound h sl i s).sched =
    s.sched := rfl
@[simp] theorem State.fillRound64_resetReq (h i : Nat) (sl : Slot Ctr64 64) : (gen64.fillRound h sl i s).resetReq =
    s.resetReq := rfl

/-! ### storeHostByte -/

@[simp] theorem State.storeHostByte_params (a : Nat) (b : Byte) : (s.storeHostByte a b).params = s.params := rfl
@[simp] theorem State.storeHostByte_slots32 (a : Nat) (b : Byte) : (s.storeHostByte a b).slots32 = s.slots32 := rfl
@[simp] theorem State.storeHostByte_slots64 (a : Nat) (b : Byte) : (s.storeHostByte a b).slots64 = s.slots64 := rfl
@[simp] theorem State.storeHostByte_phase (a : Nat) (b : Byte) : (s.storeHostByte a b).phase = s.phase := rfl
@[simp] theorem State.storeHostByte_lcmd (a : Nat) (b : Byte) : (s.storeHostByte a b).lcmd = s.lcmd := rfl
@[simp] theorem State.storeHostByte_larg (a : Nat) (b : Byte) : (s.storeHostByte a b).larg = s.larg := rfl
@[simp] theorem State.storeHostByte_fill32 (a : Nat) (b : Byte) : (s.storeHostByte a b).fill32 = s.fill32 := rfl
@[simp] theorem State.storeHostByte_fill64 (a : Nat) (b : Byte) : (s.storeHostByte a b).fill64 = s.fill64 := rfl
@[simp] theorem State.storeHostByte_arg (a : Nat) (b : Byte) : (s.storeHostByte a b).arg = s.arg := rfl
@[simp] theorem State.storeHostByte_res (a : Nat) (b : Byte) : (s.storeHostByte a b).res = s.res := rfl
@[simp] theorem State.storeHostByte_ovr (a : Nat) (b : Byte) : (s.storeHostByte a b).ovr = s.ovr := rfl
@[simp] theorem State.storeHostByte_err (a : Nat) (b : Byte) : (s.storeHostByte a b).err = s.err := rfl
@[simp] theorem State.storeHostByte_mem (a : Nat) (b : Byte) : (s.storeHostByte a b).mem = s.mem.set a b := rfl
@[simp] theorem State.storeHostByte_seen (a : Nat) (b : Byte) : (s.storeHostByte a b).seen = s.seen.set a b := rfl
@[simp] theorem State.storeHostByte_unseen (a : Nat) (b : Byte) : (s.storeHostByte a b).unseen =
    s.unseen.map (Unseen.hide a) := rfl
@[simp] theorem State.storeHostByte_races (a : Nat) (b : Byte) : (s.storeHostByte a b).races =
    s.races.filter fun r => r.addr != a := rfl
@[simp] theorem State.storeHostByte_hosts (a : Nat) (b : Byte) : (s.storeHostByte a b).hosts = s.hosts := rfl
@[simp] theorem State.storeHostByte_sched (a : Nat) (b : Byte) : (s.storeHostByte a b).sched = s.sched := rfl
@[simp] theorem State.storeHostByte_resetReq (a : Nat) (b : Byte) : (s.storeHostByte a b).resetReq = s.resetReq := rfl

/-! ### setHost -/

@[simp] theorem State.setHost_params (n : Nat) (a : HostAgent) : (s.setHost n a).params = s.params := rfl
@[simp] theorem State.setHost_slots32 (n : Nat) (a : HostAgent) : (s.setHost n a).slots32 = s.slots32 := rfl
@[simp] theorem State.setHost_slots64 (n : Nat) (a : HostAgent) : (s.setHost n a).slots64 = s.slots64 := rfl
@[simp] theorem State.setHost_phase (n : Nat) (a : HostAgent) : (s.setHost n a).phase = s.phase := rfl
@[simp] theorem State.setHost_lcmd (n : Nat) (a : HostAgent) : (s.setHost n a).lcmd = s.lcmd := rfl
@[simp] theorem State.setHost_larg (n : Nat) (a : HostAgent) : (s.setHost n a).larg = s.larg := rfl
@[simp] theorem State.setHost_fill32 (n : Nat) (a : HostAgent) : (s.setHost n a).fill32 = s.fill32 := rfl
@[simp] theorem State.setHost_fill64 (n : Nat) (a : HostAgent) : (s.setHost n a).fill64 = s.fill64 := rfl
@[simp] theorem State.setHost_arg (n : Nat) (a : HostAgent) : (s.setHost n a).arg = s.arg := rfl
@[simp] theorem State.setHost_res (n : Nat) (a : HostAgent) : (s.setHost n a).res = s.res := rfl
@[simp] theorem State.setHost_ovr (n : Nat) (a : HostAgent) : (s.setHost n a).ovr = s.ovr := rfl
@[simp] theorem State.setHost_err (n : Nat) (a : HostAgent) : (s.setHost n a).err = s.err := rfl
@[simp] theorem State.setHost_mem (n : Nat) (a : HostAgent) : (s.setHost n a).mem = s.mem := rfl
@[simp] theorem State.setHost_seen (n : Nat) (a : HostAgent) : (s.setHost n a).seen = s.seen := rfl
@[simp] theorem State.setHost_unseen (n : Nat) (a : HostAgent) : (s.setHost n a).unseen = s.unseen := rfl
@[simp] theorem State.setHost_races (n : Nat) (a : HostAgent) : (s.setHost n a).races = s.races := rfl
@[simp] theorem State.setHost_hosts (n : Nat) (a : HostAgent) : (s.setHost n a).hosts = s.hosts.set n a := rfl
@[simp] theorem State.setHost_sched (n : Nat) (a : HostAgent) : (s.setHost n a).sched = s.sched := rfl
@[simp] theorem State.setHost_resetReq (n : Nat) (a : HostAgent) : (s.setHost n a).resetReq = s.resetReq := rfl

/-! ### maintain -/

@[simp] theorem State.maintain_params (a n : Nat) : (s.maintain a n).params = s.params := rfl
@[simp] theorem State.maintain_slots32 (a n : Nat) : (s.maintain a n).slots32 = s.slots32 := rfl
@[simp] theorem State.maintain_slots64 (a n : Nat) : (s.maintain a n).slots64 = s.slots64 := rfl
@[simp] theorem State.maintain_phase (a n : Nat) : (s.maintain a n).phase = s.phase := rfl
@[simp] theorem State.maintain_lcmd (a n : Nat) : (s.maintain a n).lcmd = s.lcmd := rfl
@[simp] theorem State.maintain_larg (a n : Nat) : (s.maintain a n).larg = s.larg := rfl
@[simp] theorem State.maintain_fill32 (a n : Nat) : (s.maintain a n).fill32 = s.fill32 := rfl
@[simp] theorem State.maintain_fill64 (a n : Nat) : (s.maintain a n).fill64 = s.fill64 := rfl
@[simp] theorem State.maintain_arg (a n : Nat) : (s.maintain a n).arg = s.arg := rfl
@[simp] theorem State.maintain_res (a n : Nat) : (s.maintain a n).res = s.res := rfl
@[simp] theorem State.maintain_ovr (a n : Nat) : (s.maintain a n).ovr = s.ovr := rfl
@[simp] theorem State.maintain_err (a n : Nat) : (s.maintain a n).err = s.err := rfl
@[simp] theorem State.maintain_mem (a n : Nat) : (s.maintain a n).mem = s.mem := rfl
@[simp] theorem State.maintain_seen (a n : Nat) : (s.maintain a n).seen =
    (shown (s.unseen.map fun u => (u, u.ended && rangesMeet u.addr u.bytes.length a n))).foldl Unseen.showIn s.seen := rfl
@[simp] theorem State.maintain_unseen (a n : Nat) : (s.maintain a n).unseen =
    stay (s.unseen.map fun u => (u, u.ended && rangesMeet u.addr u.bytes.length a n)) := rfl
@[simp] theorem State.maintain_races (a n : Nat) : (s.maintain a n).races = s.races := rfl
@[simp] theorem State.maintain_hosts (a n : Nat) : (s.maintain a n).hosts = s.hosts := rfl
@[simp] theorem State.maintain_sched (a n : Nat) : (s.maintain a n).sched = s.sched := rfl
@[simp] theorem State.maintain_resetReq (a n : Nat) : (s.maintain a n).resetReq = s.resetReq := rfl

/-! ### reveal -/

@[simp] theorem State.reveal_params (k : Nat) : (s.reveal k).params = s.params := rfl
@[simp] theorem State.reveal_slots32 (k : Nat) : (s.reveal k).slots32 = s.slots32 := rfl
@[simp] theorem State.reveal_slots64 (k : Nat) : (s.reveal k).slots64 = s.slots64 := rfl
@[simp] theorem State.reveal_phase (k : Nat) : (s.reveal k).phase = s.phase := rfl
@[simp] theorem State.reveal_lcmd (k : Nat) : (s.reveal k).lcmd = s.lcmd := rfl
@[simp] theorem State.reveal_larg (k : Nat) : (s.reveal k).larg = s.larg := rfl
@[simp] theorem State.reveal_fill32 (k : Nat) : (s.reveal k).fill32 = s.fill32 := rfl
@[simp] theorem State.reveal_fill64 (k : Nat) : (s.reveal k).fill64 = s.fill64 := rfl
@[simp] theorem State.reveal_arg (k : Nat) : (s.reveal k).arg = s.arg := rfl
@[simp] theorem State.reveal_res (k : Nat) : (s.reveal k).res = s.res := rfl
@[simp] theorem State.reveal_ovr (k : Nat) : (s.reveal k).ovr = s.ovr := rfl
@[simp] theorem State.reveal_err (k : Nat) : (s.reveal k).err = s.err := rfl
@[simp] theorem State.reveal_mem (k : Nat) : (s.reveal k).mem = s.mem := rfl
@[simp] theorem State.reveal_seen (k : Nat) : (s.reveal k).seen =
    (shown (s.unseen.mapIdx fun i u => (u, decide (i = k)))).foldl Unseen.showIn s.seen := rfl
@[simp] theorem State.reveal_unseen (k : Nat) : (s.reveal k).unseen =
    stay (s.unseen.mapIdx fun i u => (u, decide (i = k))) := rfl
@[simp] theorem State.reveal_races (k : Nat) : (s.reveal k).races = s.races := rfl
@[simp] theorem State.reveal_hosts (k : Nat) : (s.reveal k).hosts = s.hosts := rfl
@[simp] theorem State.reveal_sched (k : Nat) : (s.reveal k).sched = s.sched := rfl
@[simp] theorem State.reveal_resetReq (k : Nat) : (s.reveal k).resetReq = s.resetReq := rfl

/-! ### acceptedNow -/

@[simp] theorem State.acceptedNow_params (w : Word32) : (s.acceptedNow w).params = s.params := rfl
@[simp] theorem State.acceptedNow_slots32 (w : Word32) : (s.acceptedNow w).slots32 = s.slots32 := rfl
@[simp] theorem State.acceptedNow_slots64 (w : Word32) : (s.acceptedNow w).slots64 = s.slots64 := rfl
@[simp] theorem State.acceptedNow_phase (w : Word32) : (s.acceptedNow w).phase = .exec := rfl
@[simp] theorem State.acceptedNow_lcmd (w : Word32) : (s.acceptedNow w).lcmd = w := rfl
@[simp] theorem State.acceptedNow_larg (w : Word32) : (s.acceptedNow w).larg = s.arg := rfl
@[simp] theorem State.acceptedNow_fill32 (w : Word32) : (s.acceptedNow w).fill32 = none := rfl
@[simp] theorem State.acceptedNow_fill64 (w : Word32) : (s.acceptedNow w).fill64 = none := rfl
@[simp] theorem State.acceptedNow_arg (w : Word32) : (s.acceptedNow w).arg = s.arg := rfl
@[simp] theorem State.acceptedNow_res (w : Word32) : (s.acceptedNow w).res = s.res := rfl
@[simp] theorem State.acceptedNow_ovr (w : Word32) : (s.acceptedNow w).ovr = false := rfl
@[simp] theorem State.acceptedNow_err (w : Word32) : (s.acceptedNow w).err = .ok := rfl
@[simp] theorem State.acceptedNow_mem (w : Word32) : (s.acceptedNow w).mem = s.mem := rfl
@[simp] theorem State.acceptedNow_seen (w : Word32) : (s.acceptedNow w).seen = s.seen := rfl
@[simp] theorem State.acceptedNow_unseen (w : Word32) : (s.acceptedNow w).unseen = s.unseen := rfl
@[simp] theorem State.acceptedNow_races (w : Word32) : (s.acceptedNow w).races = [] := rfl
@[simp] theorem State.acceptedNow_hosts (w : Word32) : (s.acceptedNow w).hosts = s.hosts := rfl
@[simp] theorem State.acceptedNow_sched (w : Word32) : (s.acceptedNow w).sched = [] := rfl
@[simp] theorem State.acceptedNow_resetReq (w : Word32) : (s.acceptedNow w).resetReq = false := rfl

end Fields

end Sys2Proof.Machine
end

