-- ==== Sys2Proof/Laws/Visibility.lean ====
section
/-! SUPPORT. The laws of what hosts see: showing, hiding and replacing unseen writes, and the end of races. -/

namespace Sys2Proof.Machine

/-! ## Writing the bytes that are present -/

/-- A byte read after the present bytes are written: the byte there, or the old one where it is absent. -/
theorem Memory.get_setSome (m : Memory) (a x : Nat) (bs : List (Option Byte)) :
    (m.setSome a bs).get x = (if a ≤ x then bs.getD (x - a) none else none).or (m.get x) := by
  induction bs generalizing m a with
  | nil => simp [Memory.setSome]
  | cons b bs ih =>
    have tail : (if a ≤ x then (b :: bs).getD (x - a) none else none) =
        if x = a then b else if a + 1 ≤ x then bs.getD (x - (a + 1)) none else none := by
      by_cases h : x = a
      · simp [h]
      · by_cases h1 : a + 1 ≤ x
        · rw [if_pos (by omega), if_neg h, if_pos h1, show x - a = x - (a + 1) + 1 by omega, List.getD_cons_succ]
        · rw [if_neg (by omega), if_neg h, if_neg h1]
    rw [tail]
    cases b with
    | none =>
      rw [Memory.setSome, ih]
      by_cases h : x = a
      · simp [h]
      · rw [if_neg h]
    | some b =>
      rw [Memory.setSome, ih, Memory.get_set]
      by_cases h : x = a
      · simp [h]
      · rw [if_neg h, if_neg h]

/-- Writing the present bytes keeps the canonical form. -/
theorem Memory.wf_setSome {m : Memory} (h : m.wf) (a : Nat) (bs : List (Option Byte)) : (m.setSome a bs).wf := by
  induction bs generalizing m a with
  | nil => exact h
  | cons b bs ih =>
    cases b with
    | none => exact ih h (a + 1)
    | some b => exact ih (Memory.wf_set h a b) (a + 1)

/-- Writing the present bytes inside a range keeps all addresses in it. -/
theorem Memory.below_setSome {n : Nat} {m : Memory} (h : m.Below n) {a : Nat} {bs : List (Option Byte)}
    (ha : a + bs.length ≤ n) : (m.setSome a bs).Below n := by
  induction bs generalizing m a with
  | nil => exact h
  | cons b bs ih =>
    rw [List.length_cons] at ha
    cases b with
    | none => exact ih h (by omega)
    | some b => exact ih (Memory.below_set h (by omega) b) (by omega)

/-- The view once a write is seen: its byte, or the old one where it has none. -/
theorem Unseen.get_showIn (v : Memory) (u : Unseen) (a : Nat) : (u.showIn v).get a = (u.byteAt a).or (v.get a) :=
  Memory.get_setSome v u.addr a u.bytes

/-! ## Hiding and replacing -/

/-- Hiding takes the byte at its address and no other. -/
theorem Unseen.byteAt_hide (u : Unseen) (a x : Nat) : (u.hide a).byteAt x = if x = a then none else u.byteAt x := by
  unfold Unseen.hide
  split
  · rename_i h
    simp only [Unseen.byteAt, List.getD_eq_getElem?_getD, List.getElem?_set]
    by_cases hx : x = a
    · subst hx
      simp
      intro
      split <;> rfl
    · by_cases hu : u.addr ≤ x
      · rw [if_neg hx, if_pos hu, if_pos hu, if_neg (by omega)]
      · rw [if_neg hu, if_neg hx, if_neg hu]
  · rename_i h
    by_cases hx : x = a
    · rw [if_pos hx, hx]
      exact if_neg h
    · rw [if_neg hx]

/-- Hiding keeps the address of a write. -/
@[simp] theorem Unseen.hide_addr (u : Unseen) (a : Nat) : (u.hide a).addr = u.addr := by
  unfold Unseen.hide
  split <;> rfl

/-- Hiding keeps the length of a write. -/
@[simp] theorem Unseen.hide_length (u : Unseen) (a : Nat) : (u.hide a).bytes.length = u.bytes.length := by
  unfold Unseen.hide
  split <;> simp

/-- Hiding leaves whether the command has ended. -/
@[simp] theorem Unseen.hide_ended (u : Unseen) (a : Nat) : (u.hide a).ended = u.ended := by
  unfold Unseen.hide
  split <;> rfl

/-- The end of its command leaves the bytes of a write. -/
@[simp] theorem Unseen.byteAt_atEnd (u : Unseen) (a : Nat) : u.atEnd.byteAt a = u.byteAt a := rfl

/-- The byte of a write under younger ones: its own where none of them has one. -/
theorem Unseen.byteAt_under (u : Unseen) (younger : List Unseen) (x : Nat) :
    (u.under younger).byteAt x = if younger.any fun w => (w.byteAt x).isSome then none else u.byteAt x := by
  unfold Unseen.under Unseen.byteAt
  by_cases h : u.addr ≤ x
  · simp only [if_pos h, List.getD_eq_getElem?_getD, List.getElem?_mapIdx, show u.addr + (x - u.addr) = x by omega]
    cases u.bytes[x - u.addr]? <;> simp
  · simp only [if_neg h, ite_self]

/-- Nothing younger replaces nothing. -/
@[simp] theorem Unseen.under_nil (u : Unseen) : u.under [] = u := by
  have h : u.bytes.mapIdx (fun _ b => b) = u.bytes := List.ext_getElem (by simp) (by simp)
  exact congrArg (fun b => Unseen.mk u.addr b u.ended) h

/-! ## The newest byte -/

/-- The newest byte, with more writes after. -/
theorem newest_append (l r : List Unseen) (a : Nat) (v : Option Byte) :
    newest (l ++ r) a v = newest r a (newest l a v) := by
  induction l generalizing v with
  | nil => rfl
  | cons u l ih => exact ih _

/-- Writes without a byte at an address leave the view of it. -/
theorem newest_of_none {l : List Unseen} {a : Nat} (h : ∀ u ∈ l, u.byteAt a = none) (v : Option Byte) :
    newest l a v = v := by
  induction l generalizing v with
  | nil => rfl
  | cons u l ih =>
    rw [newest, h u List.mem_cons_self, Option.none_or]
    exact ih (fun w hw => h w (List.mem_cons_of_mem _ hw)) v

/-- Where some write has a byte, the view under the writes does not matter. -/
theorem newest_of_some {l : List Unseen} {a : Nat} (h : (l.any fun u => (u.byteAt a).isSome) = true) (v v' : Option Byte) :
    newest l a v = newest l a v' := by
  induction l generalizing v v' with
  | nil => simp at h
  | cons u l ih =>
    rw [newest, newest]
    by_cases hl : (l.any fun u => (u.byteAt a).isSome) = true
    · exact ih hl _ _
    · cases hu : u.byteAt a with
      | some b => rfl
      | none =>
        rw [List.any_cons, hu] at h
        exact absurd h hl

/-- Hiding the bytes for one address in all writes. -/
theorem newest_map_hide (l : List Unseen) (a x : Nat) (v : Option Byte) :
    newest (l.map (Unseen.hide a)) x v = if x = a then v else newest l x v := by
  induction l generalizing v with
  | nil => simp [newest]
  | cons u l ih =>
    rw [List.map_cons, newest, ih, Unseen.byteAt_hide, newest]
    split <;> simp

/-- The end of their command leaves the newest byte. -/
@[simp] theorem newest_map_atEnd (l : List Unseen) (a : Nat) (v : Option Byte) :
    newest (l.map Unseen.atEnd) a v = newest l a v := by
  induction l generalizing v with
  | nil => rfl
  | cons u l ih => exact ih _

/-- The view once all writes are seen holds the newest bytes. -/
theorem shown_view (l : List Unseen) (v : Memory) (a : Nat) : (l.foldl Unseen.showIn v).get a = newest l a (v.get a) := by
  induction l generalizing v with
  | nil => rfl
  | cons u l ih => rw [List.foldl_cons, ih, newest, Unseen.get_showIn]

/-- Showing some of the writes leaves the newest byte. -/
theorem newest_reveal (l : List (Unseen × Bool)) (a : Nat) (v : Option Byte) :
    newest (stay l) a (newest (shown l) a v) = newest (l.map Prod.fst) a v := by
  induction l generalizing v with
  | nil => rfl
  | cons p l ih =>
    obtain ⟨u, m⟩ := p
    cases m with
    | true => exact ih _
    | false =>
      show newest (stay l) a (((u.under (shown l)).byteAt a).or (newest (shown l) a v)) = newest (l.map Prod.fst) a ((u.byteAt a).or v)
      rw [← ih, Unseen.byteAt_under]
      by_cases h : ((shown l).any fun w => (w.byteAt a).isSome) = true
      · rw [if_pos h, Option.none_or, newest_of_some h]
      · have hn : ∀ w ∈ shown l, w.byteAt a = none := by simpa using h
        rw [if_neg h, newest_of_none hn, newest_of_none hn]

/-- A write that stays is one of the writes, with the same place. -/
theorem mem_stay {l : List (Unseen × Bool)} {u : Unseen} (h : u ∈ stay l) :
    ∃ w, (w, false) ∈ l ∧ u.addr = w.addr ∧ u.bytes.length = w.bytes.length ∧ u.ended = w.ended ∧
      ∀ a, w.byteAt a = none → u.byteAt a = none := by
  induction l with
  | nil => exact absurd h List.not_mem_nil
  | cons p l ih =>
    obtain ⟨w, m⟩ := p
    cases m with
    | true =>
      obtain ⟨x, hx, hr⟩ := ih h
      exact ⟨x, List.mem_cons_of_mem _ hx, hr⟩
    | false =>
      rcases List.mem_cons.1 h with rfl | h
      · refine ⟨w, List.mem_cons_self, rfl, by simp [Unseen.under], rfl, fun a ha => ?_⟩
        rw [Unseen.byteAt_under, ha, ite_self]
      · obtain ⟨x, hx, hr⟩ := ih h
        exact ⟨x, List.mem_cons_of_mem _ hx, hr⟩

/-- A write that is shown is a marked one. -/
theorem mem_shown {l : List (Unseen × Bool)} {u : Unseen} : u ∈ shown l ↔ (u, true) ∈ l := by
  simp [shown]

/-- Showing none of the writes changes nothing. -/
theorem State.revealMarked_none (s : State) {f : Unseen → Bool} (h : ∀ u ∈ s.unseen, f u = false) :
    s.revealMarked (s.unseen.map fun u => (u, f u)) = s := by
  have key : ∀ l : List Unseen, (∀ u ∈ l, f u = false) →
      shown (l.map fun u => (u, f u)) = [] ∧ stay (l.map fun u => (u, f u)) = l := by
    intro l
    induction l with
    | nil => exact fun _ => ⟨rfl, rfl⟩
    | cons u l ih =>
      intro hl
      obtain ⟨h1, h2⟩ := ih fun w hw => hl w (List.mem_cons_of_mem _ hw)
      simp only [List.map_cons, hl u List.mem_cons_self]
      refine ⟨h1, ?_⟩
      rw [stay, h1, h2, Unseen.under_nil]
  obtain ⟨h1, h2⟩ := key s.unseen h
  unfold State.revealMarked
  rw [h1, h2]
  rfl

/-- Keeping only the youngest byte for an address leaves the newest byte where there is one. -/
theorem newest_hideOlder (l : List Unseen) (a x : Nat) (v : Option Byte) :
    newest (hideOlder a l) x v = newest l x v := by
  induction l generalizing v with
  | nil => rfl
  | cons u l ih =>
    rw [hideOlder, newest, ih, newest]
    split
    · rename_i h
      rw [Unseen.byteAt_hide]
      by_cases hx : x = a
      · subst hx
        exact newest_of_some h _ _
      · rw [if_neg hx]
    · rfl

/-! ## Races -/

/-- The race for an address, after the race for one address is replaced. -/
theorem raceAt_cons_filter (races : List Race) (r : Race) (x : Nat) :
    raceAt (r :: races.filter fun q => q.addr != r.addr) x = if x = r.addr then some r else raceAt races x := by
  unfold raceAt
  by_cases h : x = r.addr
  · simp [h]
  · rw [if_neg h, List.find?_cons_of_neg (by simp; omega), List.find?_filter]
    congr 1
    funext q
    by_cases hq : q.addr = x <;> simp_all

/-- The race for an address, after the races for one address are over. -/
theorem raceAt_filter (races : List Race) (a x : Nat) :
    raceAt (races.filter fun q => q.addr != a) x = if x = a then none else raceAt races x := by
  unfold raceAt
  rw [List.find?_filter]
  by_cases h : x = a
  · simp [h]
  · rw [if_neg h]
    congr 1
    funext q
    by_cases hq : q.addr = x <;> simp_all

/-- An element write meets the race for an address. -/
theorem raceAt_map_meet (races : List Race) (a x : Nat) (bytes : List Byte) :
    raceAt (races.map (Race.meet a bytes)) x = (raceAt races x).map (Race.meet a bytes) := by
  unfold raceAt
  rw [List.find?_map]
  congr 2
  funext r
  simp only [Function.comp, Race.meet]
  split <;> rfl

/-- The race for an address is for that address, and is one of the races. -/
theorem raceAt_some {races : List Race} {a : Nat} {r : Race} (h : raceAt races a = some r) : r.addr = a ∧ r ∈ races :=
  ⟨by simpa using List.find?_some h, List.mem_of_find?_eq_some h⟩

/-- The end of the race for one address leaves the newest byte at the others. -/
theorem endRace_outside (r : Race) (v : Memory × List Unseen) (x : Nat) (h : x ≠ r.addr) :
    newest (endRace r v).2 x ((endRace r v).1.get x) = newest v.2 x (v.1.get x) := by
  unfold endRace
  split
  · split
    · rw [newest_hideOlder, Memory.get_set, if_neg h]
    · rw [Memory.get_set, if_neg h]
  · rw [newest_map_hide, if_neg h, Memory.get_set, if_neg h]

/-- The end of the race for an address leaves its final byte newest, where the engine's byte was newest or nothing is unseen
there. -/
theorem endRace_inside (r : Race) (v : Memory × List Unseen)
    (h : ∀ e, r.engine = some e → newest v.2 r.addr (v.1.get r.addr) = some e ∨ ∀ u ∈ v.2, u.byteAt r.addr = none) :
    newest (endRace r v).2 r.addr ((endRace r v).1.get r.addr) = some r.final := by
  unfold endRace Race.final
  split
  · rename_i e hw he
    rw [hw, he]
    split
    · rename_i ha
      rw [newest_hideOlder, newest_of_some ha _ (v.1.get r.addr)]
      rcases h e he with h | h
      · simpa using h
      · rw [List.any_eq_true] at ha
        obtain ⟨u, hu, hs⟩ := ha
        rw [h u hu] at hs
        cases hs
    · rename_i ha
      have hn : ∀ u ∈ v.2, u.byteAt r.addr = none := by simpa using ha
      rw [newest_of_none hn, Memory.get_set, if_pos rfl]
      rfl
  · rename_i hne
    rw [newest_map_hide, if_pos rfl, Memory.get_set, if_pos rfl]
    cases hw : r.wins with
    | true => rfl
    | false =>
      cases he : r.engine with
      | none => rfl
      | some e => exact absurd he (hne e hw)

/-- Where a race has ended the engine's byte is newest still, or nothing is unseen. -/
theorem endRace_keeps (r : Race) (v : Memory × List Unseen) (x : Nat) (e : Byte)
    (h : newest v.2 x (v.1.get x) = some e ∨ ∀ u ∈ v.2, u.byteAt x = none) :
    newest (endRace r v).2 x ((endRace r v).1.get x) = some e ∨ ∀ u ∈ (endRace r v).2, u.byteAt x = none := by
  by_cases hx : x = r.addr
  · subst hx
    unfold endRace
    split
    · split
      · rename_i ha
        rw [newest_hideOlder, newest_of_some ha _ (v.1.get r.addr)]
        rcases h with h | h
        · exact .inl h
        · rw [List.any_eq_true] at ha
          obtain ⟨u, hu, hs⟩ := ha
          rw [h u hu] at hs
          cases hs
      · rename_i ha
        exact .inr (by simpa using ha)
    · refine .inr fun u hu => ?_
      obtain ⟨w, -, rfl⟩ := List.mem_map.1 hu
      rw [Unseen.byteAt_hide, if_pos rfl]
  · rcases h with h | h
    · exact .inl ((endRace_outside r v x hx).trans h)
    · refine .inr fun u hu => ?_
      have map : ∀ u ∈ v.2.map (Unseen.hide r.addr), u.byteAt x = none := by
        intro u hu
        obtain ⟨w, hw, rfl⟩ := List.mem_map.1 hu
        rw [Unseen.byteAt_hide, if_neg hx, h w hw]
      have older : ∀ l : List Unseen, (∀ u ∈ l, u.byteAt x = none) → ∀ u ∈ hideOlder r.addr l, u.byteAt x = none := by
        intro l
        induction l with
        | nil => simp [hideOlder]
        | cons w l ih =>
          intro hl u hu
          rcases List.mem_cons.1 hu with rfl | hu
          · split
            · rw [Unseen.byteAt_hide, if_neg hx, hl w List.mem_cons_self]
            · exact hl w List.mem_cons_self
          · exact ih (fun u hu => hl u (List.mem_cons_of_mem _ hu)) u hu
      unfold endRace at hu
      split at hu
      · split at hu
        · exact older _ h u hu
        · exact h u hu
      · exact map u hu

/-- The end of all races: where an address has one, its final byte is newest, provided the engine's byte was; elsewhere the
newest byte stays. -/
theorem endRaces_newest (races : List Race) (v : Memory × List Unseen) (x : Nat)
    (h : ∀ r e, raceAt races x = some r → r.engine = some e → newest v.2 x (v.1.get x) = some e) :
    newest (races.foldr endRace v).2 x ((races.foldr endRace v).1.get x) =
      match raceAt races x with
      | some r => some r.final
      | none => newest v.2 x (v.1.get x) := by
  cases races with
  | nil => rfl
  | cons r races =>
    have keep : ∀ (l : List Race) (e : Byte), newest v.2 x (v.1.get x) = some e →
        newest (l.foldr endRace v).2 x ((l.foldr endRace v).1.get x) = some e ∨
          ∀ u ∈ (l.foldr endRace v).2, u.byteAt x = none := by
      intro l e he
      induction l with
      | nil => exact .inl he
      | cons q l ih => exact endRace_keeps q _ x e ih
    by_cases hx : x = r.addr
    · have hr : raceAt (r :: races) x = some r := by simp [raceAt, hx]
      rw [hr]
      subst hx
      exact endRace_inside r _ fun e he => keep races e (h r e hr he)
    · have hr : raceAt (r :: races) x = raceAt races x := by
        unfold raceAt
        rw [List.find?_cons_of_neg (by simp; omega)]
      rw [hr] at h ⊢
      rw [List.foldr_cons, endRace_outside _ _ _ hx]
      exact endRaces_newest races v x h

/-- The end of a race keeps the canonical form of the view. -/
theorem endRace_wf (r : Race) (v : Memory × List Unseen) (h : v.1.wf) : (endRace r v).1.wf := by
  unfold endRace
  split
  · split <;> exact Memory.wf_set h _ _
  · exact Memory.wf_set h _ _

/-- The end of a race keeps the range of the view. -/
theorem endRace_below (n : Nat) (r : Race) (v : Memory × List Unseen) (hr : r.addr < n) (h : v.1.Below n) :
    (endRace r v).1.Below n := by
  unfold endRace
  split
  · split <;> exact Memory.below_set h hr _
  · exact Memory.below_set h hr _

/-- Keeping only the youngest byte for an address keeps the places of the writes. -/
theorem mem_hideOlder {a : Nat} {l : List Unseen} {u : Unseen} (h : u ∈ hideOlder a l) :
    ∃ w ∈ l, u.addr = w.addr ∧ u.bytes.length = w.bytes.length := by
  induction l with
  | nil => exact absurd h List.not_mem_nil
  | cons w l ih =>
    rcases List.mem_cons.1 h with rfl | h
    · refine ⟨w, List.mem_cons_self, ?_⟩
      split <;> simp
    · obtain ⟨x, hx, hr⟩ := ih h
      exact ⟨x, List.mem_cons_of_mem _ hx, hr⟩

/-- The end of a race keeps the places of the unseen writes. -/
theorem mem_endRace {r : Race} {v : Memory × List Unseen} {u : Unseen} (h : u ∈ (endRace r v).2) :
    ∃ w ∈ v.2, u.addr = w.addr ∧ u.bytes.length = w.bytes.length := by
  unfold endRace at h
  split at h
  · split at h
    · exact mem_hideOlder h
    · exact ⟨u, h, rfl, rfl⟩
  · obtain ⟨w, hw, rfl⟩ := List.mem_map.1 h
    exact ⟨w, hw, by simp, by simp⟩

/-! ## Reads -/

/-- A byte no unseen write has is seen as it stands. -/
theorem seenInRead_of_none {addr len a : Nat} {l : List Unseen} (h : ∀ u ∈ l, u.byteAt a = none)
    (early : List (List Bool)) (v : Option Byte) : seenInRead addr len a l early v = v := by
  induction l generalizing early v with
  | nil => rfl
  | cons u l ih =>
    rw [seenInRead, h u List.mem_cons_self, Option.none_or, ite_self]
    exact ih (fun w hw => h w (List.mem_cons_of_mem _ hw)) _ _

/-- Where no unseen write has a byte, the youngest of them is not asked. -/
theorem youngestInRead_of_none {addr len a : Nat} {l : List Unseen} (h : ∀ u ∈ l, u.byteAt a = none)
    (early : List (List Bool)) (v : Bool) : youngestInRead addr len a l early v = v := by
  induction l generalizing early v with
  | nil => rfl
  | cons u l ih =>
    rw [youngestInRead, h u List.mem_cons_self]
    exact ih (fun w hw => h w (List.mem_cons_of_mem _ hw)) _ _

/-- A byte that neither a race nor an unseen write concerns is read as hosts see it. -/
theorem State.viewByte_settled {s : State} {a : Nat} (hr : raceAt s.races a = none) (hu : ∀ u ∈ s.unseen, u.byteAt a = none)
    (addr len : Nat) (early : List (List Bool)) (engine : Bool) : s.viewByte addr len early engine a = s.seen.get a := by
  unfold State.viewByte
  rw [hr]
  exact seenInRead_of_none hu early _

end Sys2Proof.Machine
end

