-- ==== Sys2Proof/Laws/HostPort.lean ====
section
/-! SUPPORT. What an access of a host can do, said once, and that host writes keep the form and range of data memory. -/

namespace Sys2Proof.Machine

/-- What a host write of a byte can do: nothing, in the mapped window; a plain store; a race. -/
theorem State.hostWriteByte_cases (a : Nat) (b : Byte) (x : Bool) (s : State) :
    (inWindow s.params a = true ∧ s.hostWriteByte a b x = s) ∨ s.hostWriteByte a b x = s.storeHostByte a b ∨
    ∃ lo written hi, s.runningBuffer = some (lo, written, hi) ∧ lo ≤ a ∧ a < hi ∧
      s.hostWriteByte a b x = s.raceHostByte a written b x := by
  unfold State.hostWriteByte
  split
  · exact .inl ⟨by assumption, rfl⟩
  · split
    · exact .inr (.inl rfl)
    · rename_i lo written hi hb
      split
      · rename_i h
        exact .inr (.inr ⟨lo, written, hi, hb, h.1, h.2, rfl⟩)
      · exact .inr (.inl rfl)

/-- A property that every host write of a byte below `n` keeps is kept by a host write of bytes below `n`. -/
theorem State.hostWriteBytes_induct {P : State → Prop} {n : Nat}
    (one : ∀ (a : Nat) (b : Byte) (x : Bool) (s : State), a < n → P s → P (s.hostWriteByte a b x)) (bs : List Byte)
    (a : Nat) (xs : List Bool) (s : State) (ha : a + bs.length ≤ n) (h : P s) : P (s.hostWriteBytes a bs xs) := by
  induction bs generalizing a xs s with
  | nil => exact h
  | cons b bs ih =>
    rw [List.length_cons] at ha
    exact ih _ _ _ (by omega) (one _ _ _ _ (by omega) h)

/-- A host write of a byte touches data memory, what hosts see of it and the races only. -/
theorem State.hostWriteByte_frame (a : Nat) (b : Byte) (x : Bool) (s : State) :
    ∃ m v u r, s.hostWriteByte a b x = { s with mem := m, seen := v, unseen := u, races := r } := by
  rcases s.hostWriteByte_cases a b x with ⟨-, h⟩ | h | ⟨_, _, _, -, -, -, h⟩ <;> rw [h]
  · exact ⟨s.mem, s.seen, s.unseen, s.races, rfl⟩
  · exact ⟨_, _, _, _, rfl⟩
  · exact ⟨_, s.seen, s.unseen, _, rfl⟩

/-- A host write of bytes touches data memory, what hosts see of it and the races only. -/
theorem State.hostWriteBytes_frame (bs : List Byte) (a : Nat) (xs : List Bool) (s : State) :
    ∃ m v u r, s.hostWriteBytes a bs xs = { s with mem := m, seen := v, unseen := u, races := r } :=
  State.hostWriteBytes_induct (P := fun t => ∃ m v u r, t = { s with mem := m, seen := v, unseen := u, races := r })
    (n := a + bs.length)
    (by
      rintro a b x t - ⟨m, v, u, r, rfl⟩
      obtain ⟨m', v', u', r', h⟩ := State.hostWriteByte_frame a b x { s with mem := m, seen := v, unseen := u, races := r }
      exact ⟨m', v', u', r', h⟩)
    bs a xs s le_rfl ⟨s.mem, s.seen, s.unseen, s.races, rfl⟩

/-- Data memory after a host write of a byte: as before, or with a byte written there. -/
theorem State.hostWriteByte_mem (a : Nat) (b : Byte) (x : Bool) (s : State) :
    (s.hostWriteByte a b x).mem = s.mem ∨ ∃ c, (s.hostWriteByte a b x).mem = s.mem.set a c := by
  rcases s.hostWriteByte_cases a b x with ⟨-, h⟩ | h | ⟨_, _, _, -, -, -, h⟩ <;> rw [h]
  · exact .inl rfl
  · exact .inr ⟨b, rfl⟩
  · exact .inr ⟨_, rfl⟩

/-- Host writes keep the canonical form of data memory. -/
theorem State.hostWriteBytes_wf (bs : List Byte) (a : Nat) (xs : List Bool) (s : State) (h : s.mem.wf) :
    (s.hostWriteBytes a bs xs).mem.wf :=
  State.hostWriteBytes_induct (P := fun t => t.mem.wf) (n := a + bs.length)
    (by
      intro a b x t _ ht
      rcases t.hostWriteByte_mem a b x with he | ⟨c, he⟩ <;> rw [he]
      · exact ht
      · exact Memory.wf_set ht a c)
    bs a xs s le_rfl h

/-- Host writes inside data memory keep it in its range. -/
theorem State.hostWriteBytes_below (n : Nat) (bs : List Byte) (a : Nat) (xs : List Bool) (s : State) (h : s.mem.Below n)
    (ha : a + bs.length ≤ n) : (s.hostWriteBytes a bs xs).mem.Below n :=
  State.hostWriteBytes_induct (P := fun t => t.mem.Below n)
    (by
      intro a b x t hn ht
      rcases t.hostWriteByte_mem a b x with he | ⟨c, he⟩ <;> rw [he]
      · exact ht
      · exact Memory.below_set ht hn c)
    bs a xs s ha h

/-- A byte of memory after a host write of a byte elsewhere. -/
theorem State.hostWriteByte_mem_outside (a : Nat) (b : Byte) (x : Bool) (s : State) (y : Nat) (hy : y ≠ a) :
    (s.hostWriteByte a b x).mem.get y = s.mem.get y := by
  rcases s.hostWriteByte_mem a b x with h | ⟨c, h⟩ <;> rw [h]
  rw [Memory.get_set, if_neg hy]

/-- While no command runs, nothing races. -/
theorem State.runningBuffer_idle {s : State} (h : s.phase = .idle) : s.runningBuffer = none := by
  unfold State.runningBuffer
  rw [h]

/-- The place where a data access reaches the register window is in it. -/
theorem dataWindowOffset_eq_some {p : Params} {addr len off : Nat} :
    dataWindowOffset p addr len = some off ↔
      ∃ base, p.windowAt = some base ∧ base ≤ addr ∧ addr < base + windowBytes ∧ len = 8 ∧ (addr - base) % 8 = 0 ∧
        off = addr - base := by
  unfold dataWindowOffset servedAccess
  cases p.windowAt with
  | none => simp
  | some base =>
    simp only [Option.some.injEq, Bool.and_eq_true, decide_eq_true_eq, Option.ite_none_right_eq_some, exists_eq_left']
    constructor
    · rintro ⟨⟨h1, h2, h3, h4⟩, h5⟩
      exact ⟨h1, h2, h3, h4, h5.symm⟩
    · rintro ⟨h1, h2, h3, h4, h5⟩
      exact ⟨⟨h1, h2, h3, h4⟩, h5.symm⟩

/-- With the window outside data memory no data access reaches it. -/
theorem dataWindowOffset_none {p : Params} (h : p.windowAt = none) (addr len : Nat) : dataWindowOffset p addr len = none := by
  unfold dataWindowOffset
  rw [h]

/-- With the window outside data memory no byte is in it. -/
theorem inWindow_none {p : Params} (h : p.windowAt = none) (a : Nat) : inWindow p a = false := by
  unfold inWindow
  rw [h]

/-- What a served write to the register at an offset can do: nothing; an ARG register; and at CMD, OVR while a command runs,
an acceptance while none does. -/
theorem State.writeReg_cases (off : Nat) (v : Word64) (s : State) :
    s.writeReg off v = s ∨ (∃ r, s.writeReg off v = { s with arg := r }) ∨
    (off = 0 ∧ s.phase = .exec ∧ s.writeReg off v = { s with ovr := true }) ∨
    (off = 0 ∧ s.phase = .idle ∧ s.writeReg off v = s.accept (commandWord v)) := by
  unfold State.writeReg
  split
  · unfold State.writeCmd State.busy
    cases hp : s.phase with
    | idle => exact .inr (.inr (.inr ⟨rfl, rfl, by simp⟩))
    | exec => exact .inr (.inr (.inl ⟨rfl, rfl, by simp⟩))
  · exact .inr (.inl ⟨_, rfl⟩)
  · exact .inr (.inl ⟨_, rfl⟩)
  · exact .inr (.inl ⟨_, rfl⟩)
  · exact .inr (.inl ⟨_, rfl⟩)
  · exact .inl rfl

/-- What a write on the bus can do: nothing; an ARG register; and at REG_BASE, 64 bits wide, OVR while a command runs, an
acceptance while none does. -/
theorem State.hostRegWrite_cases (addr width : Nat) (v : Word64) (s : State) :
    s.hostRegWrite addr width v = s ∨ (∃ r, s.hostRegWrite addr width v = { s with arg := r }) ∨
    (addr = s.params.regBase ∧ width = 8 ∧ s.phase = .exec ∧ s.hostRegWrite addr width v = { s with ovr := true }) ∨
    (addr = s.params.regBase ∧ width = 8 ∧ s.phase = .idle ∧ s.hostRegWrite addr width v = s.accept (commandWord v)) := by
  unfold State.hostRegWrite
  split
  · rename_i off hoff
    unfold windowOffset at hoff
    split at hoff
    · rename_i hw
      cases hoff
      split
      · rename_i hs
        have h8 : width = 8 := by
          simp only [servedAccess, Bool.and_eq_true, decide_eq_true_eq] at hs
          exact hs.1
        rcases s.writeReg_cases (addr - s.params.regBase) v with h | h | ⟨h0, hp, h⟩ | ⟨h0, hp, h⟩
        · exact .inl h
        · exact .inr (.inl h)
        · exact .inr (.inr (.inl ⟨by omega, h8, hp, h⟩))
        · exact .inr (.inr (.inr ⟨by omega, h8, hp, h⟩))
      · exact .inl rfl
    · cases hoff
  · exact .inl rfl

/-- A stop of a data access is no next state. -/
theorem State.hostMemStop_ne_next {addr len : Nat} {s t : State} : s.hostMemStop addr len ≠ some (.next t) := by
  unfold State.hostMemStop
  split
  · exact fun h => by cases h
  · split <;> exact fun h => by cases h

/-- A data access that does not stop is inside data memory. -/
theorem State.hostMemStop_eq_none {addr len : Nat} {s : State} (h : s.hostMemStop addr len = none) :
    addr + len ≤ s.params.memBytes := by
  unfold State.hostMemStop at h
  split at h
  · cases h
  · omega

/-- What a step of a host can do: leave all but the hosts, write an ARG register, set OVR or be accepted by a write to CMD,
write bytes of data memory, or maintain its view. -/
theorem State.hostStep_cases {n : Nat} {s t : State} (h : s.hostStep n = .next t) :
    ∃ l : List HostAgent,
      t = { s with hosts := l } ∨ (∃ r, t = { s with hosts := l, arg := r }) ∨
      (s.phase = .exec ∧ t = { s with hosts := l, ovr := true }) ∨
      (s.phase = .idle ∧ ∃ w, t = State.accept w { s with hosts := l }) ∨
      (∃ addr bytes wins, s.hostMemStop addr bytes.length = none ∧
        t = State.hostWriteBytes addr bytes wins { s with hosts := l }) ∨
      (∃ addr len, t = State.maintain addr len { s with hosts := l }) := by
  unfold State.hostStep at h
  split at h
  · cases h
    exact ⟨s.hosts, .inl rfl⟩
  · rename_i a ha
    split at h
    · cases h
      exact ⟨s.hosts, .inl rfl⟩
    · rename_i op rest hq
      unfold State.hostIssue at h
      cases op with
      | regWrite addr width v =>
        cases h
        refine ⟨s.hosts.set n { a with queue := rest }, ?_⟩
        rcases State.hostRegWrite_cases addr width v (s.setHost n { a with queue := rest }) with
          he | ⟨r, he⟩ | ⟨-, -, hp, he⟩ | ⟨-, -, hp, he⟩
        · exact .inl he
        · exact .inr (.inl ⟨r, he⟩)
        · exact .inr (.inr (.inl ⟨hp, he⟩))
        · exact .inr (.inr (.inr (.inl ⟨hp, _, he⟩)))
      | regRead addr width =>
        cases h
        exact ⟨_, .inl rfl⟩
      | wait =>
        dsimp only at h
        split at h <;> (cases h; exact ⟨_, .inl rfl⟩)
      | check =>
        dsimp only at h
        split at h
        · cases h
          exact ⟨_, .inl rfl⟩
        · split at h <;> (cases h; exact ⟨_, .inl rfl⟩)
      | memWrite addr bytes wins =>
        dsimp only at h
        split at h
        · rename_i stop hs
          subst h
          exact absurd hs State.hostMemStop_ne_next
        · rename_i hs
          cases h
          refine ⟨s.hosts.set n { a with queue := rest }, ?_⟩
          unfold State.hostMemWrite
          split
          · rename_i off _
            rcases State.writeReg_cases off (BitVec.ofNat 64 (leNat bytes)) (s.setHost n { a with queue := rest }) with
              he | ⟨r, he⟩ | ⟨-, hp, he⟩ | ⟨-, hp, he⟩
            · exact .inl he
            · exact .inr (.inl ⟨r, he⟩)
            · exact .inr (.inr (.inl ⟨hp, he⟩))
            · exact .inr (.inr (.inr (.inl ⟨hp, _, he⟩)))
          · exact .inr (.inr (.inr (.inr (.inl ⟨addr, bytes, wins, hs, rfl⟩))))
      | memRead addr len early engine =>
        dsimp only at h
        split at h
        · rename_i stop hs
          subst h
          exact absurd hs State.hostMemStop_ne_next
        · cases h
          exact ⟨_, .inl rfl⟩
      | maintain addr len =>
        cases h
        exact ⟨_, .inr (.inr (.inr (.inr (.inr ⟨addr, len, rfl⟩))))⟩

end Sys2Proof.Machine
end

