-- ==== Sys2Proof/Laws/Ops.lean ====
section
/-! SUPPORT. What each shared operation can do, said once: slots, CREATE, DESTROY, NEXT, one step of a FILL. -/

namespace Sys2Proof.Machine

section Slots

variable {w : Nat} {γ : Type} (g : Gen w γ)

/-- A handle names a live slot exactly when it is in 1..N_SLOTSv and that slot's LIVE bit is 1. -/
theorem Gen.liveSlot_eq_some {h : Nat} {s : State} {sl : Slot γ w} :
    g.liveSlot h s = some sl ↔
      1 ≤ h ∧ h ≤ g.nSlots s.params ∧ (g.slots s)[h - 1]? = some sl ∧ sl.live = true := by
  unfold Gen.liveSlot
  split
  · constructor
    · intro hx; cases hx
    · rintro ⟨h1, h2, -⟩; omega
  · split
    · rename_i x hx
      split
      · rename_i hl
        constructor
        · intro he
          cases he
          exact ⟨by omega, by omega, hx, hl⟩
        · rintro ⟨-, -, he, -⟩
          rw [hx] at he
          exact he
      · rename_i hl
        constructor
        · intro he; cases he
        · rintro ⟨-, -, he, hl'⟩
          rw [hx] at he
          cases he
          exact absurd hl' hl
    · rename_i hx
      constructor
      · intro he; cases he
      · rintro ⟨-, -, he, -⟩
        rw [hx] at he
        cases he

/-- A handle names no live slot exactly when it is 0, above N_SLOTSv, or its slot is absent or not live. -/
theorem Gen.liveSlot_eq_none {h : Nat} {s : State} :
    g.liveSlot h s = none ↔
      h = 0 ∨ g.nSlots s.params < h ∨ ∀ sl, (g.slots s)[h - 1]? = some sl → sl.live = false := by
  rw [Option.eq_none_iff_forall_ne_some]
  constructor
  · intro hn
    by_cases h0 : h = 0
    · exact .inl h0
    by_cases h1 : g.nSlots s.params < h
    · exact .inr (.inl h1)
    refine .inr (.inr fun sl hsl => ?_)
    by_contra hl
    exact hn sl ((Gen.liveSlot_eq_some g).2 ⟨by omega, by omega, hsl, by simpa using hl⟩)
  · rintro hn sl hsl
    obtain ⟨h1, h2, h3, h4⟩ := (Gen.liveSlot_eq_some g).1 hsl
    rcases hn with hn | hn | hn
    · omega
    · omega
    · rw [hn sl h3] at h4
      cases h4

/-- CREATE's handle is the lowest-numbered slot whose LIVE bit is 0 (41_lifecycle.md R165). -/
theorem Gen.freeHandle_eq_some {h : Nat} {s : State} :
    g.freeHandle s = some h ↔
      1 ≤ h ∧ h ≤ g.nSlots s.params ∧ (∃ sl, (g.slots s)[h - 1]? = some sl ∧ sl.live = false) ∧
        ∀ k, k < h - 1 → ∃ sl, (g.slots s)[k]? = some sl ∧ sl.live = true := by
  unfold Gen.freeHandle
  rw [Option.map_eq_some_iff]
  constructor
  · rintro ⟨k, hk, rfl⟩
    rw [List.findIdx?_eq_some_iff_getElem] at hk
    obtain ⟨hlt, hp, hq⟩ := hk
    rw [List.length_take] at hlt
    refine ⟨by omega, by omega, ⟨_, List.getElem?_eq_getElem (by omega), ?_⟩, fun j hj => ⟨_, List.getElem?_eq_getElem (by omega), ?_⟩⟩
    · simpa using hp
    · simpa using hq j (by omega)
  · rintro ⟨h1, h2, ⟨sl, hsl, hl⟩, hq⟩
    refine ⟨h - 1, ?_, by omega⟩
    rw [List.findIdx?_eq_some_iff_getElem]
    obtain ⟨hlt, rfl⟩ := List.getElem?_eq_some_iff.1 hsl
    refine ⟨by rw [List.length_take]; omega, by simpa using hl, fun j hj => ?_⟩
    obtain ⟨sl', hs', hl'⟩ := hq j hj
    obtain ⟨hlt', rfl⟩ := List.getElem?_eq_some_iff.1 hs'
    simpa using hl'

/-- No slot is free exactly when every slot of the variant is live (60_exceptions.md R233). -/
theorem Gen.freeHandle_eq_none {s : State} :
    g.freeHandle s = none ↔
      ∀ k, k < g.nSlots s.params → ∀ sl, (g.slots s)[k]? = some sl → sl.live = true := by
  unfold Gen.freeHandle
  rw [Option.map_eq_none_iff, List.findIdx?_eq_none_iff]
  constructor
  · intro hn k hk sl hsl
    have := hn sl (List.mem_iff_getElem?.2 ⟨k, by rw [List.getElem?_take_of_lt hk]; exact hsl⟩)
    simpa using this
  · intro hn sl hsl
    obtain ⟨k, hk⟩ := List.mem_iff_getElem?.1 hsl
    rw [List.getElem?_take] at hk
    split at hk
    · rename_i hlt
      simpa using hn k hlt sl hk
    · cases hk

end Slots

section Commands

variable {w : Nat} {γ : Type} (g : Gen w γ)

/-- What CREATE does: E_NOSLOT, or the free slot is filled. -/
theorem Gen.create_cases (s : State) :
    (g.freeHandle s = none ∧ g.create s = .next (s.raise .noslot)) ∨
    ∃ h, g.freeHandle s = some h ∧
      g.create s = .next ((g.setSlot h ⟨true, g.initCtr, ⟨s.seed0 w, s.seed1 w⟩⟩ s).succeedWith
        ⟨BitVec.ofNat 64 h, 0, 0, 0⟩) := by
  unfold Gen.create
  cases hf : g.freeHandle s with
  | none => exact .inl ⟨rfl, rfl⟩
  | some h => exact .inr ⟨h, rfl, rfl⟩

/-- What DESTROY does: nothing for handle 0, E_HANDLE, or LIVE clears. -/
theorem Gen.destroy_cases (h : Nat) (s : State) :
    (h = 0 ∧ g.destroy h s = .next s.succeed) ∨
    (h ≠ 0 ∧ g.liveSlot h s = none ∧ g.destroy h s = .next (s.raise .handle)) ∨
    ∃ sl, h ≠ 0 ∧ g.liveSlot h s = some sl ∧
      g.destroy h s = .next (g.setSlot h { sl with live := false } s).succeed := by
  unfold Gen.destroy
  by_cases h0 : h = 0
  · exact .inl ⟨h0, if_pos h0⟩
  · rw [if_neg h0]
    cases hf : g.liveSlot h s with
    | none => exact .inr (.inl ⟨h0, rfl, rfl⟩)
    | some sl => exact .inr (.inr ⟨sl, h0, rfl, rfl⟩)

/-- What NEXT does: E_HANDLE, or a round into RES. -/
theorem Gen.next_cases (h : Nat) (s : State) :
    (g.liveSlot h s = none ∧ g.next h s = .next (s.raise .handle)) ∨
    ∃ sl, g.liveSlot h s = some sl ∧
      g.next h s = .next ((g.advanceSlot h sl s).succeedWith (blockRes (g.round s.params sl.ctr sl.key))) := by
  unfold Gen.next
  cases hf : g.liveSlot h s with
  | none => exact .inl ⟨rfl, rfl⟩
  | some sl => exact .inr ⟨sl, rfl, rfl⟩

/-- What the element write of a FILL stores, when data memory takes it. -/
def Gen.elementState (t : BitVec w → BitVec w) (p : Fill w) (s : State) : State :=
  g.withFill (some ⟨p.i + 1, p.j + 1, p.blk⟩)
    { s with
      mem := s.mem.setBytes (g.elemAddr p.i s)
        (keepHostWins s.races (g.elemAddr p.i s) (leBytes g.elemBytes (t (p.blk.getD p.j 0))))
      unseen := s.unseen ++ [⟨g.elemAddr p.i s, (leBytes g.elemBytes (t (p.blk.getD p.j 0))).map some, false⟩]
      races := s.races.map (Race.meet (g.elemAddr p.i s) (leBytes g.elemBytes (t (p.blk.getD p.j 0)))) }

/-- The buffer is in order: aligned and in range. -/
theorem Gen.bufferError_eq_none {s : State} :
    g.bufferError s = none ↔
      s.base % g.elemBytes = 0 ∧ s.base + s.count * g.elemBytes ≤ 2 ^ s.params.addrW := by
  unfold Gen.bufferError Gen.bufferBytes Params.memBytes
  split
  · simp_all
  · split
    · simp_all
    · simp_all

/-- What one engine step of a FILL can do (42_kernels.md R181). -/
theorem Gen.fillStep_cases (t : BitVec w → BitVec w) (h : Nat) (s : State) :
    (g.liveSlot h s = none ∧ g.fillStep t h s = .next (s.raise .handle)) ∨
    ∃ sl, g.liveSlot h s = some sl ∧
      ((s.count = 0 ∧ g.fillStep t h s = .next s.succeed) ∨
      (s.count ≠ 0 ∧ ∃ code, g.bufferError s = some code ∧ g.fillStep t h s = .next (s.raise code)) ∨
      (s.count ≠ 0 ∧ g.bufferError s = none ∧
        ((s.params.windowMeets s.base (g.bufferBytes s) = true ∧ g.fillStep t h s = .refused .windowOverlap) ∨
        (s.params.windowMeets s.base (g.bufferBytes s) = false ∧
          ((g.fill s = none ∧ g.fillStep t h s = .next (g.fillRound h sl 0 s)) ∨
          ∃ p, g.fill s = some p ∧
            ((s.count ≤ p.i ∧ g.fillStep t h s = .next s.succeed) ∨
            (p.i < s.count ∧ p.j < g.blockLen ∧ s.params.refuses (g.elemAddr p.i s) g.elemBytes = true ∧
              g.fillStep t h s = .fault (.refusedWrite (g.elemAddr p.i s))) ∨
            (p.i < s.count ∧ p.j < g.blockLen ∧ s.params.refuses (g.elemAddr p.i s) g.elemBytes = false ∧
              g.fillStep t h s = .next (g.elementState t p s)) ∨
            (p.i < s.count ∧ g.blockLen ≤ p.j ∧ g.fillStep t h s = .next (g.fillRound h sl p.i s)))))))) := by
  unfold Gen.fillStep
  cases hl : g.liveSlot h s with
  | none => exact .inl ⟨rfl, rfl⟩
  | some sl =>
    refine .inr ⟨sl, rfl, ?_⟩
    by_cases hc : s.count = 0
    · exact .inl ⟨hc, by simp only [if_pos hc]⟩
    simp only [if_neg hc]
    refine .inr ?_
    cases hb : g.bufferError s with
    | some code => exact .inl ⟨hc, code, rfl, rfl⟩
    | none =>
      refine .inr ⟨hc, rfl, ?_⟩
      cases hw : s.params.windowMeets s.base (g.bufferBytes s) with
      | true => exact .inl ⟨rfl, rfl⟩
      | false =>
        refine .inr ⟨rfl, ?_⟩
        cases hf : g.fill s with
        | none => exact .inl ⟨rfl, rfl⟩
        | some p =>
          refine .inr ⟨p, rfl, ?_⟩
          by_cases hi : s.count ≤ p.i
          · exact .inl ⟨hi, by simp [hi]⟩
          · refine .inr ?_
            by_cases hj : p.j < g.blockLen
            · cases hr : s.params.refuses (g.elemAddr p.i s) g.elemBytes with
              | true => exact .inl ⟨by omega, hj, rfl, by simp [hi, hj, Gen.fillElement, hr]⟩
              | false =>
                exact .inr (.inl ⟨by omega, hj, rfl, by simp [hi, hj, Gen.fillElement, hr, Gen.elementState]⟩)
            · exact .inr (.inr ⟨by omega, by omega, by simp [hi, hj]⟩)

/-- The bytes an element write stores are as many as the element has. -/
@[simp] theorem keepHostWins_length (races : List Race) (a : Nat) (bs : List Byte) :
    (keepHostWins races a bs).length = bs.length := by
  simp [keepHostWins]

/-- A byte an element write stores: the host's where one has won it, else the element's. -/
theorem keepHostWins_getElem (races : List Race) (a : Nat) (bs : List Byte) (k : Nat)
    (h : k < (keepHostWins races a bs).length) :
    (keepHostWins races a bs)[k] =
      match raceAt races (a + k) with
      | some r => if r.wins then r.host else bs[k]'(by simpa using h)
      | none => bs[k]'(by simpa using h) := by
  refine (List.getElem_mapIdx ..).trans ?_
  cases raceAt races (a + k) <;> rfl

/-- With no race, the engine's bytes are stored. -/
@[simp] theorem keepHostWins_nil (a : Nat) (bs : List Byte) : keepHostWins [] a bs = bs := by
  apply List.ext_getElem
  · simp
  · intro k h1 h2
    simp [keepHostWins, raceAt]

end Commands

end Sys2Proof.Machine
end

