-- ==== Sys2Proof/Laws/PerInstr.lean ====
section
/-! SUPPORT. Statements made of every command as syntax, one lemma a command. Family `Encodes`: the word of a well-formed
command selects the command's own row of the opcode map, and its HANDLE field is the command's handle (spec
30_encoding.md R100, R102). -/

namespace Sys2Proof.Laws.Encodes

/-- The word of a command selects the command's row and carries its handle. -/
abbrev Statement (i : Instr) : Prop := i.wf → i.row.selects (encode i) ∧ handleField (encode i) = i.handle

/-- A word `op | (h << 8)` selects the row with pattern `op` that leaves HANDLE open, and its HANDLE field is `h`. -/
theorem word_selects (op : Nat) (hop : op < 64) {h : Nat} (hh : h < 256) :
    BitVec.ofNat 32 (op ||| (h <<< 8)) &&& 0xFFFF00FF#32 = BitVec.ofNat 32 op ∧
      handleField (BitVec.ofNat 32 (op ||| (h <<< 8))) = h := by
  have key : ∀ (a : Fin 64) (b : Fin 256),
      BitVec.ofNat 32 (a.val ||| (b.val <<< 8)) &&& 0xFFFF00FF#32 = BitVec.ofNat 32 a.val ∧
        handleField (BitVec.ofNat 32 (a.val ||| (b.val <<< 8))) = b.val := by
    decide +kernel
  exact key ⟨op, hop⟩ ⟨h, hh⟩

theorem create32 : Statement .create32 := by decide
theorem destroy32 (h : Nat) : Statement (.destroy32 h) := word_selects 0x02 (by decide)
theorem next32 (h : Nat) : Statement (.next32 h) := word_selects 0x03 (by decide)
theorem fillraw32 (h : Nat) : Statement (.fillraw32 h) := word_selects 0x04 (by decide)
theorem filluf32 (h : Nat) : Statement (.filluf32 h) := word_selects 0x05 (by decide)
theorem fillbi32 (h : Nat) : Statement (.fillbi32 h) := word_selects 0x06 (by decide)
theorem fillbd32 (h : Nat) : Statement (.fillbd32 h) := word_selects 0x07 (by decide)
theorem create64 : Statement .create64 := by decide
theorem destroy64 (h : Nat) : Statement (.destroy64 h) := word_selects 0x12 (by decide)
theorem next64 (h : Nat) : Statement (.next64 h) := word_selects 0x13 (by decide)
theorem fillraw64 (h : Nat) : Statement (.fillraw64 h) := word_selects 0x14 (by decide)
theorem filluf64 (h : Nat) : Statement (.filluf64 h) := word_selects 0x15 (by decide)
theorem fillbi64 (h : Nat) : Statement (.fillbi64 h) := word_selects 0x16 (by decide)
theorem fillbd64 (h : Nat) : Statement (.fillbd64 h) := word_selects 0x17 (by decide)

end Sys2Proof.Laws.Encodes
end

