-- ==== Sys2Proof/Laws/Step.lean ====
section
/-! SUPPORT. What a step can do, said once; the FILL commands as one procedure; the register window by offsets. -/

namespace Sys2Proof.Machine

/-! ## Commands -/

/-- A 32-bit FILL is the fill procedure of Generator-32 with its transform (spec 42_kernels.md R181). -/
theorem exec_kernels32 {k : (Nat → Instr) × (State → Word32 → Word32)} (hk : k ∈ kernels32) (h : Nat) (s : State) :
    exec (k.1 h) s = gen32.fillStep (k.2 s) h s := by
  simp only [kernels32, List.mem_cons, List.not_mem_nil, or_false] at hk
  rcases hk with rfl | rfl | rfl | rfl <;> rfl

/-- A 64-bit FILL is the fill procedure of Generator-64 with its transform. -/
theorem exec_kernels64 {k : (Nat → Instr) × (State → Word64 → Word64)} (hk : k ∈ kernels64) (h : Nat) (s : State) :
    exec (k.1 h) s = gen64.fillStep (k.2 s) h s := by
  simp only [kernels64, List.mem_cons, List.not_mem_nil, or_false] at hk
  rcases hk with rfl | rfl | rfl | rfl <;> rfl

/-- Every command is CREATE, DESTROY, NEXT or a FILL of one of the two generators. -/
theorem exec_cases (i : Instr) (s : State) :
    (i = .create32 ∧ exec i s = gen32.create s) ∨ (i = .create64 ∧ exec i s = gen64.create s) ∨
    (∃ h, i = .destroy32 h ∧ exec i s = gen32.destroy h s) ∨ (∃ h, i = .destroy64 h ∧ exec i s = gen64.destroy h s) ∨
    (∃ h, i = .next32 h ∧ exec i s = gen32.next h s) ∨ (∃ h, i = .next64 h ∧ exec i s = gen64.next h s) ∨
    (∃ k ∈ kernels32, ∃ h, i = k.1 h ∧ exec i s = gen32.fillStep (k.2 s) h s) ∨
    (∃ k ∈ kernels64, ∃ h, i = k.1 h ∧ exec i s = gen64.fillStep (k.2 s) h s) := by
  cases i <;> simp [exec, execCreate32, execDestroy32, execNext32, execFillraw32, execFilluf32, execFillbi32,
    execFillbd32, execCreate64, execDestroy64, execNext64, execFillraw64, execFilluf64, execFillbi64, execFillbd64,
    kernels32, kernels64]

/-- Being live, in the slots' own terms. -/
theorem State.live32_iff {h : Nat} {s : State} {sl : Slot Ctr32 32} : s.live32 h sl ↔ gen32.liveSlot h s = some sl :=
  (Gen.liveSlot_eq_some gen32).symm

/-- Being live, in the slots' own terms. -/
theorem State.live64_iff {h : Nat} {s : State} {sl : Slot Ctr64 64} : s.live64 h sl ↔ gen64.liveSlot h s = some sl :=
  (Gen.liveSlot_eq_some gen64).symm

/-- A bad handle names no live slot. -/
theorem State.badHandle32.noSlot {h : Nat} {s : State} (hb : s.badHandle32 h) : gen32.liveSlot h s = none := by
  rw [Gen.liveSlot_eq_none]
  rcases hb with hb | hb | ⟨sl, h1, h2⟩
  · exact .inl hb
  · exact .inr (.inl hb)
  · refine .inr (.inr fun sl' h' => ?_)
    rw [show gen32.slots s = s.slots32 from rfl, h1] at h'
    cases h'
    exact h2

/-- A bad handle names no live slot. -/
theorem State.badHandle64.noSlot {h : Nat} {s : State} (hb : s.badHandle64 h) : gen64.liveSlot h s = none := by
  rw [Gen.liveSlot_eq_none]
  rcases hb with hb | hb | ⟨sl, h1, h2⟩
  · exact .inl hb
  · exact .inr (.inl hb)
  · refine .inr (.inr fun sl' h' => ?_)
    rw [show gen64.slots s = s.slots64 from rfl, h1] at h'
    cases h'
    exact h2

/-- The checks of a FILL that is ready all pass. -/
theorem Gen.FillReady.checks {w : Nat} {γ : Type} {g : Gen w γ} {h : Nat} {sl : Slot γ w} {s : State}
    (hr : g.FillReady h sl s) :
    g.liveSlot h s = some sl ∧ s.count ≠ 0 ∧ g.bufferError s = none ∧
      s.params.windowMeets s.base (g.bufferBytes s) = false :=
  ⟨(Gen.liveSlot_eq_some g).2 ⟨hr.handle_pos, hr.handle_le, hr.slot, hr.live⟩, hr.count_pos.ne',
    (Gen.bufferError_eq_none g).2 ⟨hr.aligned, hr.fits⟩, hr.window⟩

/-! ## Steps -/

/-- What a step can be: a reset; the engine's step; an access of a host; a write becoming visible; a reset request; nothing.
`evs` is the schedule left. -/
theorem step_cases (s : State) :
    (s.resetReq = true ∧ step s = .next s.doReset) ∨
    (s.resetReq = false ∧ ∃ evs : List Event,
      (s.phase = .exec ∧ step s = State.engineStep { s with sched := evs }) ∨
      (∃ n, step s = State.hostStep n { s with sched := evs }) ∨
      (∃ k, step s = .next (State.reveal k { s with sched := evs })) ∨
      step s = .next { s with sched := evs, resetReq := true } ∨
      step s = .next { s with sched := evs }) := by
  by_cases hr : s.resetReq = true
  · exact .inl ⟨hr, by simp [step, State.machineStep, hr]⟩
  · rw [Bool.not_eq_true] at hr
    refine .inr ⟨hr, ?_⟩
    have same : ({ s with sched := s.sched } : State) = s := rfl
    cases hs : s.sched with
    | nil =>
      refine ⟨[], ?_⟩
      have h0 : ({ s with sched := [] } : State) = s := by rw [← hs]
      rw [h0]
      have hstep : step s = s.autoStep := by simp [step, State.machineStep, hr, hs]
      rw [hstep]
      unfold State.autoStep
      cases hp : s.phase with
      | exec => exact .inl ⟨rfl, rfl⟩
      | idle =>
        cases hf : firstReady s.hosts with
        | some n => exact .inr (.inl ⟨n, rfl⟩)
        | none => exact .inr (.inr (.inr (.inr (by simp))))
    | cons e evs =>
      refine ⟨evs, ?_⟩
      have hstep : step s = State.event e { s with sched := evs } := by simp [step, State.machineStep, hr, hs]
      rw [hstep]
      cases e with
      | host n => exact .inr (.inl ⟨n, rfl⟩)
      | engine =>
        cases hp : s.phase with
        | exec => exact .inl ⟨rfl, rfl⟩
        | idle =>
          refine .inr (.inr (.inr (.inr ?_)))
          simp [State.event, State.engineStep]
      | reveal k => exact .inr (.inr (.inl ⟨k, rfl⟩))
      | assertReset => exact .inr (.inr (.inr (.inl rfl)))

/-- The step when host `n` is next issues its next access. -/
theorem State.HostNext.step_eq {s : State} {n : Nat} {a : HostAgent} {op : HostOp} {rest : List HostOp}
    {evs : List Event} (h : s.HostNext n a op rest evs) :
    step s = State.hostIssue n a op rest { s with sched := evs } := by
  obtain ⟨h1, h2, h3, h4⟩ := h
  simp [step, State.machineStep, h1, h2, State.event, State.hostStep, h3, h4]

/-- The step that is a host's turn issues that host's next access. -/
theorem State.hostTurn.step_eq {s : State} {n : Nat} {a : HostAgent} {op : HostOp} {rest : List HostOp} (h : s.hostTurn n)
    (ha : s.hosts[n]? = some a) (hq : a.queue = op :: rest) :
    ∃ evs, step s = State.hostIssue n a op rest { s with sched := evs } := by
  obtain ⟨hr, ⟨evs, he⟩ | ⟨he, hp, hf⟩⟩ := h
  · exact ⟨evs, by simp [step, State.machineStep, hr, he, State.event, State.hostStep, ha, hq]⟩
  · refine ⟨s.sched, ?_⟩
    show step s = State.hostIssue n a op rest s
    simp [step, State.machineStep, hr, he, State.autoStep, hp, hf, State.hostStep, ha, hq]

/-- A host's write to CMD, on the bus or through a mapped window, is the write of R104 and R105, and its host goes on. -/
theorem State.CmdWriteNext.step_eq {s t : State} {v : Word64} (h : s.CmdWriteNext v) (hs : step s = .next t) :
    ∃ evs l, l ≠ s.hosts ∧ t = State.writeCmd v { s with sched := evs, hosts := l } := by
  obtain ⟨n, a, op, rest, ht, ha, hq, hop⟩ := h
  obtain ⟨evs, he⟩ := ht.step_eq ha hq
  rw [he] at hs
  have moved : s.hosts.set n { a with queue := rest } ≠ s.hosts := by
    intro hc
    have h1 := congrArg (·[n]?) hc
    simp only [List.getElem?_set_self (List.getElem?_eq_some_iff.1 ha).1, ha, Option.some.injEq] at h1
    have h2 := congrArg HostAgent.queue h1
    simp [hq] at h2
  refine ⟨evs, _, moved, ?_⟩
  rcases hop with rfl | ⟨addr, bytes, wins, rfl, hw, hl, rfl⟩
  · cases hs
    simp [State.hostRegWrite, windowOffset, State.setHost, windowBytes, servedAccess, State.writeReg]
  · simp only [State.hostIssue] at hs
    split at hs
    · subst hs
      exact absurd ‹_› State.hostMemStop_ne_next
    · cases hs
      have hoff : dataWindowOffset s.params addr bytes.length = some 0 :=
        dataWindowOffset_eq_some.2 ⟨addr, hw, le_rfl, by simp [windowBytes], hl, by simp, by simp⟩
      unfold State.hostMemWrite
      rw [show dataWindowOffset (State.setHost n { a with queue := rest } { s with sched := evs }).params addr bytes.length =
        some 0 from hoff]
      rfl

/-- Completion ends a command and changes STATUS and PHASE only (30_encoding.md R106). -/
theorem State.complete_endedWith (c : ResultCode) (s : State) : EndedWith c s (s.complete c) := by
  constructor <;> rfl

/-! ## The register window -/

/-- A host read at an offset of the window. -/
theorem State.hostRegRead_offset (s : State) (off width : Nat) (h : off < 256) :
    s.hostRegRead (s.params.regBase + off) width = if servedAccess off width then s.readReg off else 0 := by
  simp [State.hostRegRead, windowOffset, h]

/-- A host write at an offset of the window. -/
theorem State.hostRegWrite_offset (s : State) (off width : Nat) (v : Word64) (h : off < 256) :
    s.hostRegWrite (s.params.regBase + off) width v = if servedAccess off width then s.writeReg off v else s := by
  simp [State.hostRegWrite, windowOffset, h]

end Sys2Proof.Machine
end

