-- ==== Sys2Proof/Tests/Slice0.lean ====
section
/-! SUPPORT. The model's own tests. Expected values come from the spec: words from 30_encoding.md R100 to R102, results from
the vectors of 95_test_vectors.md (named in each test). The witnesses at the end show, for every statement with hypotheses, a
state and operands that meet them. -/

namespace Sys2Proof.Tests

open Sys2Proof Sys2Proof.Machine

/-! ## Well-formedness refuses what it should -/

theorem test_wf_handle_256_refused : ¬ (Instr.next32 256).wf := by decide
theorem test_wf_handle_255_allowed : (Instr.next32 255).wf := by decide
theorem test_wf_slots32_0_refused : Params.wf { Params.vectors with nSlots32 := 0 } = false := by decide
theorem test_wf_slots32_256_refused : Params.wf { Params.vectors with nSlots32 := 256 } = false := by decide
theorem test_wf_slots64_0_refused : Params.wf { Params.vectors with nSlots64 := 0 } = false := by decide
theorem test_wf_slots64_256_refused : Params.wf { Params.vectors with nSlots64 := 256 } = false := by decide
theorem test_wf_addrW_0_refused : Params.wf { Params.vectors with addrW := 0 } = false := by decide
theorem test_wf_addrW_65_refused : Params.wf { Params.vectors with addrW := 65 } = false := by decide
theorem test_wf_vectors_allowed : Params.vectors.wf = true := by decide

/-! ## Decoding: RSV1 (16 bits), HANDLE (8 bits), RSV0 (2 bits), OP (V, 4-bit FN with its two top bits) -/

theorem test_decode_create32 : decode (0b0000000000000000_00000000_00_000001#32) = .ok .create32 := by decide
theorem test_decode_destroy32 : decode (0b0000000000000000_10000001_00_000010#32) = .ok (.destroy32 129) := by decide
theorem test_decode_next32 : decode (0b0000000000000000_00000001_00_000011#32) = .ok (.next32 1) := by decide
theorem test_decode_fillraw32 : decode (0b0000000000000000_00000010_00_000100#32) = .ok (.fillraw32 2) := by decide
theorem test_decode_filluf32 : decode (0b0000000000000000_00000100_00_000101#32) = .ok (.filluf32 4) := by decide
theorem test_decode_fillbi32 : decode (0b0000000000000000_00001000_00_000110#32) = .ok (.fillbi32 8) := by decide
theorem test_decode_fillbd32 : decode (0b0000000000000000_11111111_00_000111#32) = .ok (.fillbd32 255) := by decide
theorem test_decode_create64 : decode (0b0000000000000000_00000000_00_010001#32) = .ok .create64 := by decide
theorem test_decode_destroy64 : decode (0b0000000000000000_00000000_00_010010#32) = .ok (.destroy64 0) := by decide
theorem test_decode_next64 : decode (0b0000000000000000_00010000_00_010011#32) = .ok (.next64 16) := by decide
theorem test_decode_fillraw64 : decode (0b0000000000000000_00100000_00_010100#32) = .ok (.fillraw64 32) := by decide
theorem test_decode_filluf64 : decode (0b0000000000000000_01000000_00_010101#32) = .ok (.filluf64 64) := by decide
theorem test_decode_fillbi64 : decode (0b0000000000000000_10000000_00_010110#32) = .ok (.fillbi64 128) := by decide
theorem test_decode_fillbd64 : decode (0b0000000000000000_00000011_00_010111#32) = .ok (.fillbd64 3) := by decide
theorem test_decode_rsv0 : decode (0b0000000000000000_00000001_10_000100#32) = .error .rsv0 := by decide
theorem test_decode_rsv1 : decode (0b1000000000000000_00000001_00_000100#32) = .error .rsv1 := by decide
theorem test_decode_fn0 : decode 0x00000008#32 = .error .unassignedOp := by decide
theorem test_decode_create_handle : decode 0x00000101#32 = .error .createHandle := by decide
theorem test_decode_bytes : decodeBytes [0x04#8, 0x02#8, 0x00#8, 0x00#8, 0xAA#8] = .ok (.fillraw32 2, [0xAA#8]) := by decide
theorem test_decode_bytes_short : decodeBytes [0x04#8, 0x02#8, 0x00#8] = .error .truncated := by decide
theorem test_encode_next64 : encode (.next64 16) = 0x00001013#32 := by decide

/-- No two rows of the opcode map share a word: some bit both masks fix differs. -/
theorem test_rows_do_not_overlap :
    opcodeTable.Pairwise fun r q => r.pattern &&& (r.mask &&& q.mask) ≠ q.pattern &&& (r.mask &&& q.mask) := by decide

/-! ## States for the tests -/

/-- A live 32-bit slot as CREATE32 1, 2 leaves it (95_test_vectors.md, conventions of L2-F). -/
def live32Slot : Slot Ctr32 32 := ⟨true, ⟨1, 0, 0, 0⟩, ⟨1, 2⟩⟩

/-- A live 64-bit slot as CREATE64 1, 2 leaves it. -/
def live64Slot : Slot Ctr64 64 := ⟨true, ⟨1, 0⟩, ⟨1, 2⟩⟩

/-- The word `w` is executing with latched operands `l`; slot 1 of each variant is live. -/
def running (w : Word32) (l : Regs4) : State :=
  { State.reset with
    phase := .exec
    lcmd := w
    larg := l
    slots32 := live32Slot :: List.replicate 3 Slot.reset32
    slots64 := live64Slot :: List.replicate 3 Slot.reset64 }

/-- Four elements to 0x1000. -/
def operands (n : Word64) : Regs4 := ⟨0x1000, n, 0, 0⟩

/-- A state whose only host is next and has one access to issue. -/
def hosting (op : HostOp) (s : State) : State :=
  { s with hosts := [{ HostAgent.quiet with queue := [op] }], sched := [.host 0] }

/-- What a test looks at in the state a result leaves. -/
def see {α : Type} (f : State → α) (r : Result) : Option α := (nextOf r).map f

/-- Bytes of data memory, from `a` on. -/
def bytesAt (a n : Nat) (s : State) : List (Option Byte) := (List.range n).map fun k => s.mem.get (a + k)

/-- The end of a command: at most `n` engine steps. -/
def ends (n : Nat) (i : Instr) (l : Regs4) : Result := runCommand n i (running (encode i) l)

/-! ## One command each (95_test_vectors.md) -/

/-- L3-1 step 1. -/
theorem test_create32 :
    see (fun s => (s.res, s.slots32[0]?, s.err)) (exec .create32 { State.reset with larg := ⟨1, 2, 0, 0⟩ }) =
      some (⟨1, 0, 0, 0⟩, some live32Slot, .ok) := by decide
/-- L3-3 step 2: the lowest free slot. -/
theorem test_create32_second : see (fun s => s.res.r0) (exec .create32 (running 1 ⟨7, 9, 0, 0⟩)) = some 2 := by decide
/-- L3-2 step 1. -/
theorem test_create64 :
    see (fun s => (s.res, s.slots64[0]?)) (exec .create64 { State.reset with larg := ⟨1, 2, 0, 0⟩ }) =
      some (⟨1, 0, 0, 0⟩, some live64Slot) := by decide
/-- L3-4 step 5: every slot live. -/
theorem test_create64_noslot :
    see (fun s => (s.err.code, s.res)) (exec .create64 { State.reset with slots64 := List.replicate 4 live64Slot }) =
      some (0x03#8, ⟨0, 0, 0, 0⟩) := by decide
/-- L3-1 step 4. -/
theorem test_destroy32 :
    see (fun s => (s.err, s.slots32[0]?)) (exec (.destroy32 1) (running 0x102 (operands 0))) =
      some (.ok, some ⟨false, ⟨1, 0, 0, 0⟩, ⟨1, 2⟩⟩) := by decide
/-- L3-1 step 5 (a dead slot). -/
theorem test_destroy32_dead : see (fun s => s.err.code) (exec (.destroy32 2) (running 0x202 (operands 0))) = some 0x02#8 := by
  decide
/-- L2-E-12. -/
theorem test_destroy64_null : see (fun s => s.err) (exec (.destroy64 0) (running 0x12 (operands 0))) = some .ok := by decide
/-- L3-4 step 6. -/
theorem test_destroy64 :
    see (fun s => s.slots64.map (·.live)) (exec (.destroy64 1) (running 0x112 (operands 0))) =
      some [false, false, false, false] := by decide
/-- L2-N32-1. -/
theorem test_next32 :
    see (fun s => (s.res, s.slots32.head?.map (·.ctr))) (exec (.next32 1) (running 0x103 (operands 0))) =
      some (⟨0xD2511F52, 0, 2, 0⟩, some ⟨2, 1, 0, 0⟩) := by decide
/-- L2-N32-5, with HI: the high half is the second word. -/
theorem test_round32_wrap :
    round32 .hi ⟨0xFFFFFFFF, 0xFFFFFFFE, 0, 0⟩ ⟨1, 2⟩ = [0xD2511F52#32, 0xD2511F52#32, 2#32, 0#32] ∧
    round32 .lo ⟨0xFFFFFFFF, 0xFFFFFFFE, 0, 0⟩ ⟨1, 2⟩ = [0xD2511F52#32, 0x2DAEE0AD#32, 2#32, 0#32] ∧
    advance32 ⟨0xFFFFFFFF, 0xFFFFFFFE, 0, 0⟩ = ⟨0, 0xFFFFFFFF, 0, 0⟩ := by decide
/-- L2-N64-1. -/
theorem test_next64 :
    see (fun s => (s.res, s.slots64.head?.map (·.ctr))) (exec (.next64 1) (running 0x113 (operands 0))) =
      some (⟨0xD2B74407B1CE6E92, 0, 0, 0⟩, some ⟨2, 1⟩) := by decide
/-- L2-N64-7. -/
theorem test_round64_key1_unused :
    round64 ⟨1, 0⟩ ⟨0xDEADBEEFCAFEBABE, 5⟩ = [0x0C1AFAE87B30D42D#64, 0#64] := by decide
/-- L2-F-1 (the first element and the counter). -/
theorem test_fillraw32 :
    see (fun s => (bytesAt 0x1000 4 s, s.slots32.head?.map (·.ctr), s.phase)) (ends 8 (.fillraw32 1) (operands 5)) =
      some ([some 0x52#8, some 0x1F#8, some 0x51#8, some 0xD2#8], some ⟨3, 2, 0, 0⟩, .idle) := by decide +kernel
/-- L2-E-7 and L2-E-6: alignment is checked only when count > 0. -/
theorem test_fillraw32_align :
    see (fun s => s.err.code) (exec (.fillraw32 1) (running 0x104 ⟨3, 1, 0, 0⟩)) = some 0x04#8 ∧
    see (fun s => s.err.code) (exec (.fillraw32 1) (running 0x104 ⟨3, 0, 0, 0⟩)) = some 0x00#8 := by decide
/-- L2-F-2, element 2. -/
theorem test_fillraw64 :
    see (fun s => (bytesAt 0x1010 8 s, s.slots64.head?.map (·.ctr))) (ends 6 (.fillraw64 1) (operands 3)) =
      some ([some 0x26#8, some 0xDD#8, some 0x9C#8, some 0x63#8, some 0x0F#8, some 0x88#8, some 0x6E#8, some 0xA5#8],
        some ⟨3, 2⟩) := by decide +kernel
/-- L2-E-8 (for the 64-bit kernel): the range check. -/
theorem test_fillraw64_range :
    see (fun s => s.err.code) (exec (.fillraw64 1) (running 0x114 ⟨0xFFFFFFFFFFFFFFF8, 2, 0, 0⟩)) = some 0x05#8 := by
  decide +kernel
/-- L2-F-3, element 0. -/
theorem test_filluf32 :
    see (bytesAt 0x1000 4) (ends 6 (.filluf32 1) (operands 4)) = some [some 0x1F#8, some 0x51#8, some 0x52#8, some 0x3F#8] := by
  decide +kernel
/-- L2-UF32-5 and -7: rounding to nearest, ties to even. -/
theorem test_tUf32 : tUf binary32 0xFFFFFF80#32 = 0x3F800000#32 ∧ tUf binary32 0xFFFFFF7F#32 = 0x3F7FFFFF#32 := by
  decide +kernel
/-- L2-F-4, element 0. -/
theorem test_filluf64 :
    see (bytesAt 0x1000 8) (ends 4 (.filluf64 1) (operands 2)) =
      some [some 0xCE#8, some 0x39#8, some 0xF6#8, some 0x80#8, some 0xE8#8, some 0x56#8, some 0xEA#8, some 0x3F#8] := by
  decide +kernel
/-- L2-UF64-5 and -2. -/
theorem test_tUf64 :
    tUf binary64 0xFFFFFFFFFFFFFC00#64 = 0x3FF0000000000000#64 ∧ tUf binary64 1#64 = 0x3BF0000000000000#64 := by decide +kernel
/-- L2-F-5, elements 1 and 2: -3, -1. -/
theorem test_fillbi32 :
    see (bytesAt 0x1004 8) (ends 6 (.fillbi32 1) ⟨0x1000, 4, 0xFFFFFFFD, 3⟩) =
      some [some 0xFD#8, some 0xFF#8, some 0xFF#8, some 0xFF#8, some 0xFF#8, some 0xFF#8, some 0xFF#8, some 0xFF#8] := by
  decide +kernel
/-- L2-BI32-4 and L2-BI32-11 (reversed bounds). -/
theorem test_tBi32 :
    tBi (BitVec.ofInt 32 (-3)) 3#32 0xFFFFFFFF#32 = 0#32 ∧ tBi 3#32 2#32 0xFFFFFFFF#32 = 2#32 := by decide
/-- L2-F-6: 0, -3. -/
theorem test_fillbi64 :
    see (fun s => (s.mem.get 0x1000, s.mem.get 0x1008, s.mem.get 0x100F))
      (ends 4 (.fillbi64 1) ⟨0x1000, 2, 0xFFFFFFFFFFFFFFFD, 3⟩) = some (some 0x00#8, some 0xFD#8, some 0xFF#8) := by
  decide +kernel
/-- L2-BI64-4: R = 2^64. -/
theorem test_tBi64 : tBi 0x8000000000000000#64 0x7FFFFFFFFFFFFFFF#64 0xFFFFFFFFFFFFFFFF#64 = 0x7FFFFFFFFFFFFFFF#64 := by
  decide
/-- L2-F-7, element 0: 82. -/
theorem test_fillbd32 :
    see (bytesAt 0x1000 4) (ends 6 (.fillbd32 1) ⟨0x1000, 4, 0, 0x42C80000⟩) =
      some [some 0x52#8, some 0x00#8, some 0x00#8, some 0x00#8] := by decide +kernel
/-- L2-BD32-3, -6, -13, -15 and -17: rounding, saturation below, 24 bits kept, NaN, 0 * infinity. -/
theorem test_tBd32 :
    tBd binary32 0x00000000#32 0x41200000#32 0xFFFFFF7F#32 = 9#32 ∧ tBd binary32 0xC0A00000#32 0x40A00000#32 0#32 = 0#32 ∧
    tBd binary32 0x00000000#32 0x4F800000#32 0xD2511F52#32 = 0xD2511F00#32 ∧
    tBd binary32 0x7FC00000#32 0x41200000#32 0x80000000#32 = 0#32 ∧ tBd binary32 0#32 0x7F800000#32 0#32 = 0#32 := by
  decide +kernel
/-- L2-F-8, element 0: 82. -/
theorem test_fillbd64 :
    see (bytesAt 0x1000 8) (ends 4 (.fillbd64 1) ⟨0x1000, 2, 0, 0x4059000000000000⟩) =
      some [some 0x52#8, some 0#8, some 0#8, some 0#8, some 0#8, some 0#8, some 0#8, some 0#8] := by decide +kernel
/-- L2-BD64-3 and -6. -/
theorem test_tBd64 :
    tBd binary64 0#64 0x4024000000000000#64 0xFFFFFFFFFFFFFFFF#64 = 10#64 ∧
    tBd binary64 0#64 0x46293E5939A08CEA#64 0xFFFFFFFFFFFFFFFF#64 = 0xFFFFFFFFFFFFFFFF#64 := by decide +kernel

/-! ## Registers, the step, the assembler -/

/-- L2-REG-1 and L2-REG-2. -/
theorem test_reset_registers : State.reset.status = 0 ∧ State.reset.hostRegRead 0x50 8 = 0x0000000000400404#64 := by decide
/-- L2-REG-3. -/
theorem test_status_after_handle_error :
    see (fun s => s.status) (exec (.next32 1) State.reset) = some 0x00000200#32 := by decide
/-- L2-REG-5. -/
theorem test_status_busy : (State.reset.accept 0x103#32).status = 0x00000001#32 := by decide
/-- L2-REG-6 and L2-REG-5: a CMD write while BUSY = 1 sets OVR. -/
theorem test_ovr : ((running 0x103 (operands 0)).hostRegWrite 0 8 1).status = 0x00000003#32 := by decide
/-- L2-REG-8. -/
theorem test_res_is_read_only : State.reset.hostRegWrite 0x28 8 5 = State.reset := by decide
/-- 10_state.md R41: a narrow write is ignored. -/
theorem test_narrow_write_ignored : State.reset.hostRegWrite 0x08 4 5 = State.reset := by decide
/-- After reset the first command is CREATE64 when its word is placed (30_encoding.md R104, 41_lifecycle.md R164). -/
theorem test_step_runs_fetched_word :
    see (fun s => (s.res.r0, s.phase)) (step (State.reset.withFetchWord 32 0x11)) = some (1, .idle) := by decide
/-- 70_reset_and_hazards.md R260, R261: reset stops a running command. -/
theorem test_reset_stops_command :
    see (fun s => (s.phase, s.slots32.map (·.live), s.status))
      (step { running 0x104 (operands 4) with resetReq := true }) =
      some (.idle, [false, false, false, false], 0) := by decide
/-- L3-3 step 3: the text of a line and its host writes. -/
theorem test_assembler_line :
    (parseLine "FILLBI32 2, 0x2000, 6, -3, 3".toList).map (AsmLine.expand Params.vectors) =
      some [.regWrite 0x08 8 0x2000, .regWrite 0x10 8 6, .regWrite 0x18 8 0xFFFFFFFD, .regWrite 0x20 8 3,
        .regWrite 0x00 8 0x206, .wait] := by decide +kernel
/-- L3-5 step 2: 10.0 is 0x41200000. -/
theorem test_assembler_float :
    (parseLine "FILLBD32 1, 0x5000, 6, 0.0, 10.0".toList).map AsmLine.args =
      some [0x5000, 6, 0, 0x41200000] := by decide +kernel
/-- 20_memory.md R78: an element write over a device leaves the engine stuck. -/
theorem test_device_write_is_stuck :
    exec (.fillraw32 1) { running 0x104 (operands 1) with
      params := { Params.vectors with deviceRegions := [⟨0x1003, 1⟩] }, fill32 := some ⟨0, 0, [1, 2, 3, 4]⟩ } =
      .fault (.refusedWrite 0x1000) := rfl

/-- Two unseen writes over the same bytes on a platform without coherence: 4 bytes, then 8 (20_memory.md R77, R88). -/
def overlapping : State :=
  { State.reset with
    params := { Params.vectors with coherent := false }
    unseen := [⟨0x1000, [some 1, some 2, some 3, some 4], true⟩,
      ⟨0x1000, [some 11, some 12, some 13, some 14, some 15, some 16, some 17, some 18], true⟩] }

/-- 20_memory.md R77: an aligned read of the younger element sees it whole or not at all, whatever the flags. -/
theorem test_read_of_younger_element_is_whole :
    (overlapping.hostMemRead 0x1000 8 [[], [true, false, false, false, true]] []).all (·.isSome) = true ∧
    overlapping.hostMemRead 0x1000 8 [[], [false, true, true, true, true, true, true, true]] [] = List.replicate 8 none := by
  decide

/-- A running fill of 5 elements, 2 of them written, of which byte 0x1000 is 0x11 and not seen yet; hosts see 0x99 there. -/
def racing : State :=
  { running 0x104 (operands 5) with
    fill32 := some ⟨2, 2, [1, 2, 3, 4]⟩
    mem := [(0x1000, 0x11)]
    seen := [(0x1000, 0x99)]
    unseen := [⟨0x1000, [some 0x11, some 0x12, some 0x13, some 0x14], false⟩] }

/-- 20_memory.md R84, 70_reset_and_hazards.md R266: after a winning and then a losing host write the byte is the engine's, and
a read meanwhile sees the host's last value or the engine's, never the byte from before the fill. -/
theorem test_losing_race_leaves_the_engine_value :
    (((racing.hostWriteByte 0x1000 0xB1 true).hostWriteByte 0x1000 0xB2 false).mem.get 0x1000,
      ((racing.hostWriteByte 0x1000 0xB1 true).hostWriteByte 0x1000 0xB2 false).hostMemRead 0x1000 1 [] [false],
      ((racing.hostWriteByte 0x1000 0xB1 true).hostWriteByte 0x1000 0xB2 false).hostMemRead 0x1000 1 [[true]] [true],
      ((racing.hostWriteByte 0x1000 0xB1 true).hostWriteByte 0x1000 0xB2 false).hostMemRead 0x1000 1 [] [true]) =
      (some 0x11, [some 0xB2], [some 0x11], [some 0xB2]) := by decide +kernel

/-- 20_memory.md R81, R88: maintenance shows the write of an ended command and not that of the running one. -/
theorem test_maintenance_spares_the_running_command :
    (({ racing with unseen := ⟨0x2000, [some 0x21, some 0x22, some 0x23, some 0x24], true⟩ :: racing.unseen }.maintain
      0x1000 0x1004).unseen, ({ racing with unseen := ⟨0x2000, [some 0x21, some 0x22, some 0x23, some 0x24], true⟩ ::
      racing.unseen }.maintain 0x1000 0x1004).seen.get 0x2003) = (racing.unseen, some 0x24) := by decide

/-- 10_state.md R41, 20_memory.md R72, R79: through the window mapped at 0x2000, an access of 8 bytes at 0x2008 is ARG0; one of
4 bytes is ignored. -/
theorem test_mapped_window_is_the_register_window :
    (State.resetWith { Params.vectors with windowAt := some 0x2000 }).hostMemWrite 0x2008 [1, 2, 0, 0, 0, 0, 0, 0x80] [] =
      { State.resetWith { Params.vectors with windowAt := some 0x2000 } with arg := ⟨0x8000000000000201, 0, 0, 0⟩ } ∧
    (State.resetWith { Params.vectors with windowAt := some 0x2000 }).hostMemWrite 0x2008 [1, 2, 3, 4] [] =
      State.resetWith { Params.vectors with windowAt := some 0x2000 } := by decide +kernel

/-! ## Witnesses: a state and operands that meet the hypotheses of each statement that has some -/

/-- Every slot live. -/
def full : State :=
  { running 1 (operands 0) with slots32 := List.replicate 4 live32Slot, slots64 := List.replicate 4 live64Slot }

/-- A 32-bit FILL with operands `l`, its handle 1, as far as `f`. -/
def filling32 (l : Regs4) (f : Option (Fill 32)) : State := { running 0x104 l with fill32 := f }

/-- A 64-bit FILL with operands `l`, its handle 1, as far as `f`. -/
def filling64 (l : Regs4) (f : Option (Fill 64)) : State := { running 0x114 l with fill64 := f }

/-- A platform with a device at 0x1000 and the register window mapped at 0x2000. -/
def devicePlatform : Params :=
  { Params.vectors with windowAt := some 0x2000, deviceRegions := [⟨0x1000, 4⟩] }

theorem raw32_mem : (Instr.fillraw32, fun (_ : State) => (tRaw : Word32 → Word32)) ∈ kernels32 := by simp [kernels32]
theorem raw64_mem : (Instr.fillraw64, fun (_ : State) => (tRaw : Word64 → Word64)) ∈ kernels64 := by simp [kernels64]

theorem live32_running (w : Word32) (l : Regs4) : (running w l).live32 1 live32Slot :=
  ⟨le_refl 1, (by decide : 1 ≤ 4), rfl, rfl⟩
theorem live64_running (w : Word32) (l : Regs4) : (running w l).live64 1 live64Slot :=
  ⟨le_refl 1, (by decide : 1 ≤ 4), rfl, rfl⟩

theorem ready32 (f : Option (Fill 32)) : gen32.FillReady 1 live32Slot (filling32 (operands 5) f) :=
  ⟨le_refl 1, (by decide : 1 ≤ 4), rfl, rfl, (by decide : 0 < 5), (by decide : 0x1000 % 4 = 0), (by norm_num : 0x1000 + 5 * 4 ≤ 2 ^ 64), rfl⟩
theorem ready64 (f : Option (Fill 64)) : gen64.FillReady 1 live64Slot (filling64 (operands 3) f) :=
  ⟨le_refl 1, (by decide : 1 ≤ 4), rfl, rfl, (by decide : 0 < 3), (by decide : 0x1000 % 8 = 0), (by norm_num : 0x1000 + 3 * 8 ≤ 2 ^ 64), rfl⟩

/-- A buffer that ends at the last byte of data memory is still ready (20_memory.md R75, L2-E-9). -/
theorem ready32_top : gen32.FillReady 1 live32Slot (filling32 ⟨0xFFFFFFFFFFFFFFFC, 1, 0, 0⟩ none) :=
  ⟨by decide, by decide, rfl, rfl, by decide, by decide, by decide +kernel, rfl⟩
theorem ready64_top : gen64.FillReady 1 live64Slot (filling64 ⟨0xFFFFFFFFFFFFFFF8, 1, 0, 0⟩ none) :=
  ⟨by decide, by decide, rfl, rfl, by decide, by decide, by decide +kernel, rfl⟩

theorem hostNext_hosting (op : HostOp) (s : State) (h : s.resetReq = false) :
    (hosting op s).HostNext 0 { HostAgent.quiet with queue := [op] } op [] [] := ⟨h, rfl, rfl, rfl⟩

theorem inv_running : (running 0x103 (operands 5)).Inv where
  params := (Params.wf_iff _).1 rfl
  slots32_length := rfl
  slots64_length := rfl
  slots32_ok := by
    intro sl hsl
    simp only [running, live32Slot, Slot.reset32, List.mem_cons, List.mem_replicate] at hsl
    rcases hsl with rfl | ⟨-, rfl⟩
    · exact fun _ => ⟨rfl, rfl, rfl⟩
    · exact fun h => by cases h
  slots64_ok := by
    intro sl hsl
    simp only [running, live64Slot, Slot.reset64, List.mem_cons, List.mem_replicate] at hsl
    rcases hsl with rfl | ⟨-, rfl⟩
    · exact fun _ => rfl
    · exact fun h => by cases h
  busy_err := fun _ => rfl
  idle_fill := fun h => by cases h
  fill32_ok := fun p h => by cases h
  fill64_ok := fun p h => by cases h
  idle_race := fun _ => rfl
  idle_seen := fun _ _ => ⟨rfl, rfl⟩
  idle_ended := fun _ u h => by cases h
  coherent_running := fun _ u h => by cases h
  mem_wf := List.Pairwise.nil
  mem_below := fun c h => by cases h
  seen_wf := List.Pairwise.nil
  seen_below := fun c h => by cases h
  unseen_below := fun u h => by cases h
  races_below := fun r h => by cases h
  mem_newest := fun _ _ => rfl
  mem_race := fun _ _ h => by cases h
  race_engine := fun _ _ _ h => by cases h

theorem witness_DecodeOfEncodeGivesCommand : (Instr.fillbd64 0).wf ∧ (Instr.fillbd64 255).wf := by decide
theorem witness_EncodeOfDecodeGivesWord : decode 0x0000FF17#32 = .ok (.fillbd64 255) := by decide

/-- One word for each reason of R103, and the state of its last clause. -/
theorem witness_IllegalWordsAndTheirCompletion :
    rsv0Field 0x00000041#32 ≠ 0 ∧ rsv1Field 0x00010001#32 ≠ 0 ∧ opField 0x00000010#32 % 8 = 0 ∧
    opField 0x00000009#32 / 8 % 2 = 1 ∧ opField 0x00000021#32 / 32 % 2 = 1 ∧
    (opField 0x00000111#32 % 8 = 1 ∧ handleField 0x00000111#32 ≠ 0) ∧
    (running 0x111 (operands 0)).resetReq = false ∧ (running 0x111 (operands 0)).sched = [] ∧
    (running 0x111 (operands 0)).phase = .exec ∧ (∃ e, decode (running 0x111 (operands 0)).lcmd = .error e) ∧
    { running 0x111 (operands 0) with sched := [.engine, .host 0] }.sched = Event.engine :: [.host 0] :=
  ⟨by decide, by decide, by decide, by decide, by decide, by decide, rfl, rfl, rfl, ⟨.createHandle, by decide⟩, rfl⟩

theorem witness_StepRunsDecodedCommand :
    ((running 0x103 (operands 0)).resetReq = false ∧ (running 0x103 (operands 0)).phase = .exec ∧
      decode (running 0x103 (operands 0)).lcmd = .ok (.next32 1) ∧ (running 0x103 (operands 0)).sched = []) ∧
    { running 0x103 (operands 0) with sched := [.engine, .host 0] }.sched = Event.engine :: [.host 0] := by decide
theorem witness_FetchedWordRunsNext : decode 0x00000104#32 = .ok (.fillraw32 1) := by decide
theorem witness_CmdWriteWhileIdleIsAccepted :
    (hosting (.regWrite 0 8 0x103) State.reset).HostNext 0
      { HostAgent.quiet with queue := [.regWrite 0 8 0x103] }
      (.regWrite (hosting (.regWrite 0 8 0x103) State.reset).params.regBase 8 0x103) [] [] ∧
    (hosting (.regWrite 0 8 0x103) State.reset).phase = .idle := ⟨hostNext_hosting _ _ rfl, rfl⟩
theorem witness_CmdWriteWhileBusyOnlySetsOvr :
    (hosting (.regWrite 0 8 0x103) (running 0x103 (operands 0))).HostNext 0
      { HostAgent.quiet with queue := [.regWrite 0 8 0x103] }
      (.regWrite (hosting (.regWrite 0 8 0x103) (running 0x103 (operands 0))).params.regBase 8 0x103) [] [] ∧
    (hosting (.regWrite 0 8 0x103) (running 0x103 (operands 0))).phase = .exec := ⟨hostNext_hosting _ _ rfl, rfl⟩

/-- A write to CMD on the bus comes next, and one through the window mapped at 0x2000; OVR rises in both; OVR falls at an
acceptance; BUSY rises; BUSY falls at a completion and at a reset. -/
theorem witness_OvrAndBusyChangeOnlyAsSpecified :
    (hosting (.regWrite 0 8 0x103) (running 0x103 (operands 0))).CmdWriteNext 0x103 ∧
    State.CmdWriteNext 0x103 (hosting (.memWrite 0x2000 [3, 1, 0, 0, 0, 0, 0, 0] [])
      { running 0x103 (operands 0) with params := devicePlatform }) ∧
    State.CmdWriteNext 0x103 { State.reset with hosts := [{ HostAgent.quiet with queue := [.regWrite 0 8 0x103] }] } ∧
    (running 0x103 (operands 0)).engineNext ∧
    see (·.ovr) (step (hosting (.memWrite 0x2000 [3, 1, 0, 0, 0, 0, 0, 0] [])
      { running 0x103 (operands 0) with params := devicePlatform })) = some true ∧
    see (·.ovr) (step (hosting (.regWrite 0 8 0x103) (running 0x103 (operands 0)))) = some true ∧
    see (fun t => (t.ovr, t.phase)) (step (hosting (.regWrite 0 8 0x103) { State.reset with ovr := true })) =
      some (false, .exec) ∧
    see (·.phase) (step (running 0x103 (operands 0))) = some .idle ∧
    see (fun t => (t.ovr, t.phase)) (step { running 0x103 (operands 0) with resetReq := true, ovr := true }) =
      some (false, .idle) :=
  ⟨⟨0, _, _, [], ⟨rfl, .inl ⟨[], rfl⟩⟩, rfl, rfl, .inl rfl⟩,
    ⟨0, _, _, [], ⟨rfl, .inl ⟨[], rfl⟩⟩, rfl, rfl, .inr ⟨_, _, _, rfl, rfl, rfl, by decide⟩⟩,
    ⟨0, _, _, [], ⟨rfl, .inr ⟨rfl, rfl, rfl⟩⟩, rfl, rfl, .inl rfl⟩, ⟨rfl, rfl, .inl rfl⟩, by decide +kernel, by decide, by decide,
    by decide, by decide⟩
theorem witness_CompletionWritesOnlyStatus : State.reset.params.coherent = true := rfl
theorem witness_CapsReportsConstantParameters :
    Params.Wf { Params.vectors with nSlots32 := 1, nSlots64 := 255, addrW := 1 } ∧
    Params.Wf { Params.vectors with nSlots32 := 255, nSlots64 := 1, addrW := 64 } ∧
    ∃ t, step State.reset = .next t :=
  ⟨(Params.wf_iff _).1 rfl, (Params.wf_iff _).1 rfl, _, rfl⟩
theorem witness_HostWindowAccesses :
    (0 < 256 ∧ 255 < 256) ∧ (4 ≠ 8 ∨ 0x08 % 8 ≠ 0 ∨ 0x28 ≤ 0x08) ∧ (8 ≠ 8 ∨ 0x09 % 8 ≠ 0 ∨ 0x28 ≤ 0x09) ∧
    (8 ≠ 8 ∨ 0x28 % 8 ≠ 0 ∨ 0x28 ≤ 0x28) ∧
    (hosting (.regRead 0x48 8) State.reset).HostNext 0 { HostAgent.quiet with queue := [.regRead 0x48 8] }
      (.regRead 0x48 8) [] [] ∧
    (devicePlatform.windowAt = some 0x2000 ∧ 0 < 256 ∧ 0xF8 < 256 ∧ 0xF8 % 8 = 0) ∧ (4 ≠ 8 ∨ 0xFC % 8 ≠ 0) ∧ 0xFC + 4 ≤ 256 :=
  ⟨by decide, by decide, by decide, by decide, hostNext_hosting _ _ rfl, by decide, by decide, by decide⟩
theorem witness_WaitPollsUntilNotBusy :
    (hosting .wait State.reset).HostNext 0 { HostAgent.quiet with queue := [.wait] } .wait [] [] ∧
    (hosting .wait (running 0x103 (operands 0))).HostNext 0 { HostAgent.quiet with queue := [.wait] } .wait [] [] ∧
    ((hosting .check (running 0x103 (operands 0))).HostNext 0 { HostAgent.quiet with queue := [.check] } .check [] [] ∧
      (hosting .check (running 0x103 (operands 0))).phase = .exec) ∧
    ((hosting .check State.reset).HostNext 0 { HostAgent.quiet with queue := [.check] } .check [] [] ∧
      (hosting .check State.reset).phase = .idle ∧ (hosting .check State.reset).err = .ok) ∧
    (hosting .check { State.reset with err := .handle }).HostNext 0 { HostAgent.quiet with queue := [.check] } .check [] [] ∧
    (hosting .check { State.reset with err := .handle }).err ≠ .ok :=
  ⟨hostNext_hosting _ _ rfl, hostNext_hosting _ _ rfl, ⟨hostNext_hosting _ _ rfl, rfl⟩,
    ⟨hostNext_hosting _ _ rfl, rfl, rfl⟩, hostNext_hosting _ _ rfl, by decide⟩

/-- Each error code but E_ILLEGAL, which no command raises; and a FILL that goes on for two steps. -/
theorem witness_ErrorsAreFoundBeforeAnyChange :
    State.reset.err = .ok ∧ full.err = .ok ∧
    see (·.err) (exec (.next32 1) State.reset) = some .handle ∧ see (·.err) (exec .create32 full) = some .noslot ∧
    see (·.err) (exec (.fillraw32 1) (filling32 ⟨3, 1, 0, 0⟩ none)) = some .align ∧
    see (·.err) (exec (.fillraw32 1) (filling32 ⟨0xFFFFFFFFFFFFFFFC, 2, 0, 0⟩ none)) = some .range ∧
    (filling32 (operands 5) none).phase = .exec ∧
    see (·.phase) (exec (.fillraw32 1) (filling32 (operands 5) none)) = some .exec ∧
    (((nextOf (exec (.fillraw32 1) (filling32 (operands 5) none))).map (exec (.fillraw32 1))).bind (see (·.phase))) =
      some .exec := by
  decide +kernel

/-- Each way a handle is bad, at the ends of its range, and a variant whose slots are all live. -/
theorem witness_HandleAndSlotErrors :
    State.reset.badHandle32 0 ∧ State.reset.badHandle32 5 ∧ State.reset.badHandle32 1 ∧ State.reset.badHandle32 4 ∧
    State.reset.badHandle64 0 ∧ State.reset.badHandle64 5 ∧ State.reset.badHandle64 1 ∧ State.reset.badHandle64 4 ∧
    (∀ k < full.params.nSlots32, ∃ sl, full.slots32[k]? = some sl ∧ sl.live = true) ∧
    (∀ k < full.params.nSlots64, ∃ sl, full.slots64[k]? = some sl ∧ sl.live = true) := by
  refine ⟨.inl rfl, .inr (.inl (by decide)), .inr (.inr ⟨_, rfl, rfl⟩), .inr (.inr ⟨_, rfl, rfl⟩), .inl rfl,
    .inr (.inl (by decide)), .inr (.inr ⟨_, rfl, rfl⟩), .inr (.inr ⟨_, rfl, rfl⟩), fun k hk => ?_, fun k hk => ?_⟩ <;>
  · have hk : k < 4 := hk
    exact ⟨_, List.getElem?_replicate_of_lt hk, rfl⟩

/-- count = 0; then misaligned by 1; then aligned and one element too long; for both variants. -/
theorem witness_FillChecksInOrder :
    (filling32 ⟨3, 0, 0, 0⟩ none).live32 1 live32Slot ∧ (filling32 ⟨3, 0, 0, 0⟩ none).count = 0 ∧
    (0 < (filling32 ⟨1, 1, 0, 0⟩ none).count ∧ (filling32 ⟨1, 1, 0, 0⟩ none).base % 4 ≠ 0) ∧
    (0 < (filling32 ⟨0xFFFFFFFFFFFFFFFC, 2, 0, 0⟩ none).count ∧
      (filling32 ⟨0xFFFFFFFFFFFFFFFC, 2, 0, 0⟩ none).base % 4 = 0 ∧
      2 ^ (filling32 ⟨0xFFFFFFFFFFFFFFFC, 2, 0, 0⟩ none).params.addrW <
        (filling32 ⟨0xFFFFFFFFFFFFFFFC, 2, 0, 0⟩ none).base + (filling32 ⟨0xFFFFFFFFFFFFFFFC, 2, 0, 0⟩ none).count * 4) ∧
    (filling64 ⟨4, 0, 0, 0⟩ none).live64 1 live64Slot ∧ (filling64 ⟨4, 0, 0, 0⟩ none).count = 0 ∧
    (0 < (filling64 ⟨4, 1, 0, 0⟩ none).count ∧ (filling64 ⟨4, 1, 0, 0⟩ none).base % 8 ≠ 0) ∧
    (0 < (filling64 ⟨0xFFFFFFFFFFFFFFF8, 2, 0, 0⟩ none).count ∧
      (filling64 ⟨0xFFFFFFFFFFFFFFF8, 2, 0, 0⟩ none).base % 8 = 0 ∧
      2 ^ (filling64 ⟨0xFFFFFFFFFFFFFFF8, 2, 0, 0⟩ none).params.addrW <
        (filling64 ⟨0xFFFFFFFFFFFFFFF8, 2, 0, 0⟩ none).base + (filling64 ⟨0xFFFFFFFFFFFFFFF8, 2, 0, 0⟩ none).count * 8) :=
  ⟨live32_running _ _, rfl, by decide, by decide +kernel, live64_running _ _, rfl, by decide, by decide +kernel⟩

/-- The first slot is free (h = 1), and only the last is (h = 4). -/
theorem witness_CreateFillsLowestFreeSlot :
    ((∃ sl, State.reset.slots32[1 - 1]? = some sl ∧ sl.live = false) ∧
      ∀ k < 1 - 1, ∃ sl, State.reset.slots32[k]? = some sl ∧ sl.live = true) ∧
    4 ≤ State.reset.params.nSlots32 ∧
    ((∃ sl, (List.replicate 3 live32Slot ++ [Slot.reset32])[4 - 1]? = some sl ∧ sl.live = false) ∧
      ∀ k < 4 - 1, ∃ sl, (List.replicate 3 live32Slot ++ [Slot.reset32])[k]? = some sl ∧ sl.live = true) ∧
    ((∃ sl, State.reset.slots64[1 - 1]? = some sl ∧ sl.live = false) ∧
      ∀ k < 1 - 1, ∃ sl, State.reset.slots64[k]? = some sl ∧ sl.live = true) ∧
    ((∃ sl, (List.replicate 3 live64Slot ++ [Slot.reset64])[4 - 1]? = some sl ∧ sl.live = false) ∧
      ∀ k < 4 - 1, ∃ sl, (List.replicate 3 live64Slot ++ [Slot.reset64])[k]? = some sl ∧ sl.live = true) := by
  refine ⟨⟨⟨_, rfl, rfl⟩, fun k hk => by omega⟩, by decide, ⟨⟨_, rfl, rfl⟩, fun k hk => ?_⟩,
    ⟨⟨_, rfl, rfl⟩, fun k hk => by omega⟩, ⟨_, rfl, rfl⟩, fun k hk => ?_⟩ <;>
  · interval_cases k <;> exact ⟨_, rfl, rfl⟩

theorem witness_DestroyClearsOnlyLive :
    (running 0x102 (operands 0)).live32 1 live32Slot ∧ (running 0x112 (operands 0)).live64 1 live64Slot ∧
    full.live32 4 live32Slot ∧ full.live64 4 live64Slot :=
  ⟨live32_running _ _, live64_running _ _, ⟨by decide, by decide, rfl, rfl⟩, ⟨by decide, by decide, rfl, rfl⟩⟩
theorem witness_Next32DrawsOneBlock : (running 0x103 (operands 0)).live32 1 live32Slot := live32_running _ _
theorem witness_Next64DrawsOneBlock : (running 0x113 (operands 0)).live64 1 live64Slot := live64_running _ _
theorem witness_CounterPeriodIsOneWord :
    2 ^ 32 - 1 < 2 ^ 32 ∧ 2 ^ 64 - 1 < 2 ^ 64 ∧ (advance32^[2 ^ 32 - 1] initCtr32).c0 = (advance32^[2 ^ 32 - 1] initCtr32).c0 :=
  ⟨by norm_num, by norm_num, rfl⟩
theorem witness_DegenerateLaneOfLiveSlots :
    (running 0x103 (operands 5)).Inv ∧ (running 0x103 (operands 5)).live32 1 live32Slot ∧
    gen32.FillReady 1 live32Slot (running 0x103 (operands 5)) ∧ (running 0x103 (operands 5)).fill32 = none :=
  ⟨inv_running, live32_running _ _,
    ⟨le_refl 1, by decide, rfl, rfl, by decide, by decide, by decide +kernel, rfl⟩, rfl⟩

/-- The first round; a further round after a used-up block; the completion; for both variants. -/
theorem witness_FillComputesRoundsAndCompletes :
    (gen32.FillReady 1 live32Slot (filling32 (operands 5) none) ∧ (filling32 (operands 5) none).fill32 = none) ∧
    (gen64.FillReady 1 live64Slot (filling64 (operands 3) none) ∧ (filling64 (operands 3) none).fill64 = none) ∧
    (gen32.FillReady 1 live32Slot (filling32 (operands 5) (some ⟨4, 4, [1, 2, 3, 4]⟩)) ∧
      4 < (filling32 (operands 5) (some ⟨4, 4, [1, 2, 3, 4]⟩)).count) ∧
    (gen32.FillReady 1 live32Slot (filling32 (operands 5) (some ⟨5, 1, [1, 2, 3, 4]⟩)) ∧
      (filling32 (operands 5) (some ⟨5, 1, [1, 2, 3, 4]⟩)).count ≤ 5) ∧
    (gen64.FillReady 1 live64Slot (filling64 (operands 3) (some ⟨2, 2, [1, 2]⟩)) ∧
      2 < (filling64 (operands 3) (some ⟨2, 2, [1, 2]⟩)).count) ∧
    (gen64.FillReady 1 live64Slot (filling64 (operands 3) (some ⟨3, 1, [1, 2]⟩)) ∧
      (filling64 (operands 3) (some ⟨3, 1, [1, 2]⟩)).count ≤ 3) :=
  ⟨⟨ready32 _, rfl⟩, ⟨ready64 _, rfl⟩, ⟨ready32 _, by decide⟩, ⟨ready32 _, by decide⟩, ⟨ready64 _, by decide⟩,
    ready64 _, by decide⟩

/-- The last word of the first block is written next; for both variants. -/
theorem witness_FillWritesElement :
    (gen32.FillReady 1 live32Slot (filling32 (operands 5) (some ⟨3, 3, [1, 2, 3, 4]⟩)) ∧
      3 < (filling32 (operands 5) (some ⟨3, 3, [1, 2, 3, 4]⟩)).count ∧ ([1, 2, 3, 4] : List Word32)[3]? = some 4 ∧
      (filling32 (operands 5) (some ⟨3, 3, [1, 2, 3, 4]⟩)).params.refuses (0x1000 + 3 * 4) 4 = false) ∧
    (gen64.FillReady 1 live64Slot (filling64 (operands 3) (some ⟨1, 1, [1, 2]⟩)) ∧
      1 < (filling64 (operands 3) (some ⟨1, 1, [1, 2]⟩)).count ∧ ([1, 2] : List Word64)[1]? = some 2 ∧
      (filling64 (operands 3) (some ⟨1, 1, [1, 2]⟩)).params.refuses (0x1000 + 1 * 8) 8 = false) :=
  ⟨⟨ready32 _, by decide, rfl, rfl⟩, ready64 _, by decide, rfl, rfl⟩

/-- The first element lies on the device; and a buffer whose last element is the first address of the window. -/
theorem witness_FillStopsWhereMemoryIsNoMemory :
    (gen32.FillReady 1 live32Slot { filling32 (operands 1) (some ⟨0, 0, [1, 2, 3, 4]⟩) with params := devicePlatform } ∧
      devicePlatform.refuses (0x1000 + 0 * 4) 4 = true) ∧
    (gen64.FillReady 1 live64Slot { filling64 (operands 1) (some ⟨0, 0, [1, 2]⟩) with params := devicePlatform } ∧
      devicePlatform.refuses (0x1000 + 0 * 8) 8 = true) ∧
    (State.live32 1 live32Slot { filling32 ⟨0x1FFC, 2, 0, 0⟩ none with params := devicePlatform } ∧
      0x1FFC + 2 * 4 ≤ 2 ^ devicePlatform.addrW ∧ devicePlatform.windowMeets 0x1FFC (2 * 4) = true) ∧
    (State.live64 1 live64Slot { filling64 ⟨0x20F8, 1, 0, 0⟩ none with params := devicePlatform } ∧
      0x20F8 + 1 * 8 ≤ 2 ^ devicePlatform.addrW ∧ devicePlatform.windowMeets 0x20F8 (1 * 8) = true) :=
  ⟨⟨⟨by decide, by decide, rfl, rfl, by decide, by decide, by decide +kernel, by decide⟩, by decide⟩,
    ⟨⟨by decide, by decide, rfl, rfl, by decide, by decide, by decide +kernel, by decide⟩, by decide⟩,
    ⟨⟨by decide, by decide, rfl, rfl⟩, by decide +kernel, by decide⟩,
    ⟨by decide, by decide, rfl, rfl⟩, by decide +kernel, by decide⟩

theorem witness_WholeFill32 :
    gen32.FillReady 1 live32Slot (filling32 (operands 5) none) ∧ (filling32 (operands 5) none).phase = .exec ∧
    (filling32 (operands 5) none).races = [] ∧ (filling32 (operands 5) none).params.refuses 0x1000 (5 * 4) = false :=
  ⟨ready32 _, rfl, rfl, rfl⟩
theorem witness_WholeFill64 :
    gen64.FillReady 1 live64Slot (filling64 (operands 3) none) ∧ (filling64 (operands 3) none).phase = .exec ∧
    (filling64 (operands 3) none).races = [] ∧ (filling64 (operands 3) none).params.refuses 0x1000 (3 * 8) = false :=
  ⟨ready64 _, rfl, rfl, rfl⟩
theorem witness_AcceptedCommandsComplete :
    (running 0x104 (operands 5)).phase = .exec ∧ (running 0x104 (operands 5)).fill32 = none ∧
    (running 0x104 (operands 5)).fill64 = none ∧ (running 0x104 (operands 5)).params.deviceRegions = [] ∧
    (running 0x104 (operands 5)).params.windowAt = none := by decide
theorem witness_FillOfFiveIsFillOfFourThenOne :
    (running 0x104 (operands 5)).params.Wf ∧ (running 0x104 (operands 5)).live32 1 live32Slot ∧
    (0xFFFFFFFFFFFFFFEC#64).toNat % 4 = 0 ∧
    (0xFFFFFFFFFFFFFFEC#64).toNat + 20 ≤ 2 ^ (running 0x104 (operands 5)).params.addrW :=
  ⟨(Params.wf_iff _).1 rfl, live32_running _ _, by decide, by decide +kernel⟩

/-- A command of each kind answers a next state. -/
theorem witness_NonFillCommandsFrame :
    (∃ t, exec .create32 State.reset = .next t) ∧ (∃ t, exec (.destroy64 0) State.reset = .next t) ∧
    ∃ t, exec (.next32 1) (running 0x103 (operands 0)) = .next t := ⟨⟨_, rfl⟩, ⟨_, rfl⟩, _, rfl⟩
theorem witness_FillStepFrame :
    (∃ t, exec (.fillraw32 1) (filling32 (operands 5) none) = .next t) ∧
    (∃ t, exec (.fillraw32 1) (filling32 (operands 5) (some ⟨4, 4, [1, 2, 3, 4]⟩)) = .next t) ∧
    (∃ t, exec (.fillraw64 1) (filling64 (operands 3) none) = .next t) ∧
    ∃ t, exec (.fillraw64 1) (filling64 (operands 3) (some ⟨1, 1, [1, 2]⟩)) = .next t :=
  ⟨⟨_, rfl⟩, ⟨_, rfl⟩, ⟨_, rfl⟩, _, rfl⟩
theorem witness_SlotFrame :
    (∃ t, exec .create32 (running 1 (operands 0)) = .next t) ∧
    (∃ sl, (running 1 (operands 0)).slots32[0]? = some sl ∧ sl.live = true) ∧
    ∃ t, exec (.next64 1) (running 0x113 (operands 0)) = .next t := ⟨⟨_, rfl⟩, ⟨_, rfl, rfl⟩, _, rfl⟩
theorem witness_KeyNeverChangesWhileLive :
    (∃ t sl', step (running 0x103 (operands 0)) = .next t ∧ t.slots32[0]? = some sl' ∧ sl'.live = true) ∧
    (running 0x01 ⟨7, 9, 0, 0⟩).resetReq = false ∧
    ∃ t sl sl', step (running 0x01 ⟨7, 9, 0, 0⟩) = .next t ∧ (running 0x01 ⟨7, 9, 0, 0⟩).slots32[1]? = some sl ∧
      t.slots32[1]? = some sl' ∧ sl'.key ≠ sl.key :=
  ⟨⟨_, _, rfl, rfl, rfl⟩, rfl, _, _, _, rfl, rfl, rfl, by decide⟩
theorem witness_ResChangesOnlyAtCreateOrNext :
    ∃ t, step (running 0x103 (operands 0)) = .next t ∧ t.res ≠ (running 0x103 (operands 0)).res :=
  ⟨_, rfl, by decide⟩
theorem witness_CommandsReadNeitherArgNorMemory :
    (∃ t, exec (.fillraw32 1) (filling32 (operands 5) none) = .next t) ∧
    ∃ t, exec (.fillraw32 1) (filling32 (operands 5) (some ⟨3, 3, [1, 2, 3, 4]⟩)) = .next t := ⟨⟨_, rfl⟩, _, rfl⟩
theorem witness_BlocksDependOnCounterAndKeyAlone :
    (running 0x103 (operands 0)).live32 1 live32Slot ∧ full.live32 3 live32Slot ∧
    (running 0x113 (operands 0)).live64 1 live64Slot ∧ full.live64 3 live64Slot ∧
    (∃ t, exec (.next32 3) full = .next t) ∧ gen32.FillReady 1 live32Slot (filling32 (operands 5) none) ∧
    gen64.FillReady 1 live64Slot (filling64 (operands 3) none) :=
  ⟨live32_running _ _, ⟨by decide, by decide, rfl, rfl⟩, live64_running _ _, ⟨by decide, by decide, rfl, rfl⟩, ⟨_, rfl⟩,
    ready32 _, ready64 _⟩
theorem witness_UniformFloat32Range : (1#32) ≠ 0 ∧ 0xFFFFFF80 ≤ (0xFFFFFF80#32).toNat ∧ (0xFFFFFF7F#32).toNat < 0xFFFFFF80 := by
  decide
theorem witness_UniformFloat64Range :
    (1#64) ≠ 0 ∧ 0xFFFFFFFFFFFFFC00 ≤ (0xFFFFFFFFFFFFFC00#64).toNat ∧
    (0xFFFFFFFFFFFFFBFF#64).toNat < 0xFFFFFFFFFFFFFC00 := by decide

/-- A rounding that is inexact (1/3), and one that is a tie (2^24 + 1); a difference that cancels, and a quotient. -/
theorem witness_RoundingIsToNearestEven :
    roundTo binary32 false 1 3 0 = .fin false 11184811 (-25) ∧ roundTo binary32 false 16777217 1 0 = .fin false 8388608 1 ∧
    (FloatVal.fin false 3 0).sub binary32 (.fin false 3 0) = .fin false 0 (-149) ∧
    (FloatVal.fin false 1 0).div binary32 (.fin true 3 0) = .fin true 11184811 (-25) := by
  decide +kernel
theorem witness_FloorIsLargestIntegerBelow :
    16777215 < 2 ^ binary32.prec ∧ binary32.minExp ≤ (-1 : Int) ∧ (-1 : Int) ≤ binary32.maxExp := by decide

/-- Each clause at its boundary: just below 1; 1; just below 2^32; 2^32. -/
theorem witness_SaturatingConversion :
    finValue false 16777215 (-24) < 1 ∧ finValue false 8388608 (-23) = 1 ∧ finValue false 16777215 8 < (2 : ℚ) ^ 32 ∧
    (2 : ℚ) ^ 32 = finValue false 8388608 9 ∧ finValue true 3 0 < 1 := by
  norm_num [finValue]
theorem witness_BoundedIntTransform :
    (BitVec.ofInt 32 (-3)).toInt ≤ (3#32).toInt ∧ (5#32).toInt ≤ (5#32).toInt ∧ (2#32).toInt < (3#32).toInt ∧
    (BitVec.ofNat 64 (2 ^ (64 - 1))).toInt ≤ (BitVec.ofNat 64 (2 ^ (64 - 1) - 1)).toInt := by decide
theorem witness_BoundedDerivedFacts :
    FloatVal.unpack binary32 0x7FC00000#32 = .nan ∧ FloatVal.unpack binary32 0x7F800000#32 = .inf false ∧
    FloatVal.unpack binary32 0x00000000#32 = .fin false 0 (-149) ∧ FloatVal.unpack binary64 0x7FF8000000000000#64 = .nan ∧
    FloatVal.unpack binary64 0x7FF0000000000000#64 = .inf false ∧
    FloatVal.unpack binary64 0#64 = .fin false 0 (-1074) ∧
    FloatVal.unpack binary32 0x41200000#32 = .fin false 10485760 (-20) ∧
    (FloatVal.unpack binary32 0x41200000#32).sub binary32 (FloatVal.unpack binary32 0#32) = .fin false 10485760 (-20) ∧
    scaled binary32 0#32 0x41200000#32 0x80000000#32 = .fin false 10485760 (-21) ∧
    FloatVal.unpack binary64 0x4024000000000000#64 = .fin false 5629499534213120 (-49) ∧
    (FloatVal.unpack binary64 0#64).sub binary64 (FloatVal.unpack binary64 0x4024000000000000#64) =
      .fin true 5629499534213120 (-49) := by decide +kernel
theorem witness_MemoryWriteIsLittleEndian : 3 < 4 ∧ (3 < 4 ∨ 4 + 4 ≤ 3) ∧ (8 < 4 ∨ 4 + 4 ≤ 8) ∧ Memory.wf [(3, 1#8), (9, 2#8)] := by
  decide

/-- Two element writes not seen yet. -/
def twoUnseen : List Unseen :=
  [⟨0x1000, [some 1, some 2, some 3, some 4], false⟩, ⟨0x1004, [some 5, some 6, some 7, some 8], false⟩]

/-- The second write alone becomes visible. -/
theorem witness_AnySubsetOfWritesCanBeSeen :
    { State.reset with unseen := twoUnseen }.resetReq = false ∧ { State.reset with unseen := twoUnseen }.sched = [] ∧
    [⟨0x1000, [some 1, some 2, some 3, some 4], false⟩].Sublist twoUnseen ∧
    twoUnseen.Pairwise (fun u w => rangesMeet u.addr u.bytes.length w.addr w.bytes.length = false) :=
  ⟨rfl, rfl, by simp [twoUnseen], by simp [twoUnseen, rangesMeet]⟩
theorem witness_CompletionMakesWritesVisible :
    { filling32 (operands 5) (some ⟨5, 1, [1, 2, 3, 4]⟩) with unseen := twoUnseen }.params.coherent = true ∧
    see (fun t => (t.phase, t.unseen)) (step { filling32 (operands 5) (some ⟨5, 1, [1, 2, 3, 4]⟩) with unseen := twoUnseen }) =
      some (.idle, []) := by decide

/-- The first write of two, and the second; and a range that neither touches. -/
theorem witness_ElementReadsAreWhole :
    State.reset.params.windowAt = none ∧ twoUnseen = [] ++ ⟨0x1000, [1, 2, 3, 4].map some, false⟩ :: [⟨0x1004, [5, 6, 7, 8].map some, false⟩] ∧
    rangesMeet 0x1004 4 0x1000 4 = false ∧
    twoUnseen = [⟨0x1000, [1, 2, 3, 4].map some, false⟩] ++ ⟨0x1004, [5, 6, 7, 8].map some, false⟩ :: [] ∧
    (∀ k < 4, ∀ u ∈ twoUnseen, u.byteAt (0x1008 + k) = none) ∧ State.reset.races = [] := by
  refine ⟨rfl, rfl, by decide, rfl, by decide, rfl⟩

/-- The reset state of a platform without coherence meets the hypotheses of the first two clauses; a running fill those of the
third, and a state of a coherent platform those of the last. -/
theorem witness_StaleReadsEndWithMaintenance :
    (State.resetWith { Params.vectors with coherent := false }).params.coherent = false ∧
    (State.resetWith { Params.vectors with coherent := false }).races = [] ∧
    (State.resetWith { Params.vectors with coherent := false }).Inv ∧
    (State.resetWith { Params.vectors with coherent := false }).phase = .idle ∧ (0x1000 ≤ 0x1003 ∧ 0x1003 < 0x1000 + 4) ∧
    (∀ u ∈ racing.unseen, u.ended = false) ∧
    (running 0x103 (operands 5)).Inv ∧ (running 0x103 (operands 5)).params.coherent = true := by
  refine ⟨rfl, rfl, ?_, rfl, by decide, by decide, inv_running, rfl⟩
  constructor
  case params => exact (Params.wf_iff _).1 rfl
  case slots32_ok => exact fun sl hsl hl => by rw [(List.mem_replicate.1 hsl).2] at hl; cases hl
  case slots64_ok => exact fun sl hsl hl => by rw [(List.mem_replicate.1 hsl).2] at hl; cases hl
  all_goals simp [State.resetWith, Params.vectors, Memory.Below, raceAt, newest]

/-- A running fill of 5 elements, 2 of them written: a byte already written and one still to be written. -/
theorem witness_RacingHostByteOutcomes :
    (filling32 (operands 5) (some ⟨2, 2, [1, 2, 3, 4]⟩)).runningBuffer = some (0x1000, 0x1008, 0x1014) ∧
    (0x1000 ≤ 0x1007 ∧ 0x1007 < 0x1014 ∧ 0x1007 < 0x1008) ∧ (0x1000 ≤ 0x1008 ∧ 0x1008 < 0x1014 ∧ 0x1008 ≤ 0x1008) ∧
    inWindow (filling32 (operands 5) none).params 0x1007 = false ∧ raceAt (racing.hostWriteByte 0x1000 0xB1 true).races 0x1000 =
      some ⟨0x1000, 0xB1, some 0x11, true⟩ ∧
    (racing.hostWriteByte 0x1000 0xB1 true).viewByte 0x1000 1 [[true]] true 0x1000 = some 0x11 := by
  decide +kernel
theorem witness_ResetTakesPrecedence : { running 0x104 (operands 5) with resetReq := true, sched := [.host 0] }.resetReq = true := rfl
theorem witness_NoHandleIsValidAfterReset : 1 ≤ 1 ∧ 1 ≤ 255 := by decide
theorem witness_ResetSatisfiesInvariant :
    Params.Wf Params.vectors ∧ Params.Wf { Params.vectors with nSlots32 := 1, nSlots64 := 255, addrW := 1 } :=
  ⟨(Params.wf_iff _).1 rfl, (Params.wf_iff _).1 rfl⟩
theorem witness_EveryStepKeepsInvariant :
    (running 0x103 (operands 5)).Inv ∧ ∃ t, step (running 0x103 (operands 5)) = .next t := ⟨inv_running, _, rfl⟩
theorem witness_NoStopOnPlainPlatform :
    (running 0x104 (operands 5)).params.deviceRegions = [] ∧ (running 0x104 (operands 5)).params.windowAt = none ∧
    ∀ a ∈ (hosting (.memWrite 0xFFFFFFFFFFFFFFFF [1#8] []) (running 0x104 (operands 5))).hosts, ∀ op ∈ a.queue,
      (∀ addr bytes wins, op = HostOp.memWrite addr bytes wins → addr + bytes.length ≤ 2 ^ 64) ∧
      (∀ addr len early engine, op = HostOp.memRead addr len early engine → addr + len ≤ 2 ^ 64) := by
  refine ⟨rfl, rfl, fun a ha op hop => ?_⟩
  simp only [hosting, HostAgent.quiet, List.mem_singleton] at ha
  subst ha
  simp only [List.mem_singleton] at hop
  subst hop
  refine ⟨fun addr bytes wins h => ?_, fun addr len early engine h => by cases h⟩
  cases h
  decide +kernel
theorem witness_LinesExpandToAccesses :
    0 < 256 ∧ 255 < 256 ∧
    (AsmLine.fillbi .v64 255 0x1000 4 (-3) 3).expand Params.vectors =
      [.regWrite 0x08 8 0x1000, .regWrite 0x10 8 4, .regWrite 0x18 8 0xFFFFFFFFFFFFFFFD, .regWrite 0x20 8 3,
        .regWrite 0x00 8 0xFF16, .wait] := by decide +kernel

end Sys2Proof.Tests
end

section
/-! PROOFS. Rounding to a binary format (spec 00_scope.md R18): `roundTo` gives the exact value rounded once, to nearest, ties to
even, and with it the conversion, the four operations and the floor. An exact value is written `x * 2^q`, with `q` the exponent
the rounding chooses; what is left is a statement about `x` and the integer nearest to it. -/

namespace Sys2Proof.Machine

/-- What the rounding needs of a format: two significand bits or more, and an exponent range around 0. -/
structure FloatFormat.Proper (f : FloatFormat) : Prop where
  fracBits_pos : 0 < f.fracBits
  minExp_le : f.minExp ≤ 0
  maxExp_nonneg : 0 ≤ f.maxExp

theorem FloatFormat.proper_of_mem : ∀ f ∈ [binary32, binary64], f.Proper := by
  intro f hf
  simp only [List.mem_cons, List.not_mem_nil, or_false] at hf
  obtain rfl | rfl := hf
  · exact ⟨by decide, by decide, by decide⟩
  · exact ⟨by decide, by decide, by decide⟩

theorem FloatFormat.two_pow_prec (f : FloatFormat) : 2 ^ f.prec = 2 * 2 ^ f.fracBits := by
  rw [FloatFormat.prec, pow_succ, mul_comm]

theorem FloatFormat.two_pow_prec_cast (f : FloatFormat) : (2 : ℚ) ^ f.prec = 2 * 2 ^ f.fracBits :=
  mod_cast f.two_pow_prec

/-! ## Powers of two with an integer exponent -/

/-- The model shifts the numerator or the denominator, whichever way the exponent `a` points. -/
theorem shifted_div_eq (num den : Nat) (a : Int) :
    ((num * 2 ^ a.toNat : ℕ) : ℚ) / (den * 2 ^ (-a).toNat : ℕ) = num / den * 2 ^ a := by
  obtain ⟨n, rfl | rfl⟩ := a.eq_nat_or_neg
  · simp [mul_div_right_comm]
  · simp [div_eq_mul_inv, mul_assoc, mul_comm]

theorem two_zpow_toNat {a : Int} (h : 0 ≤ a) : (2 : ℚ) ^ a.toNat = 2 ^ a := by
  rw [← zpow_natCast, Int.toNat_of_nonneg h]

/-- The model compares a quotient with a power of two by shifting its two sides. -/
theorem shifted_le_iff {num den : Nat} (hden : 0 < den) (k : Int) :
    den * 2 ^ k.toNat ≤ num * 2 ^ (-k).toNat ↔ (2 : ℚ) ^ k ≤ num / den := by
  have h := shifted_div_eq num den (-k)
  rw [neg_neg, zpow_neg, ← div_eq_mul_inv] at h
  rw [← one_le_div (by positivity : (0 : ℚ) < 2 ^ k), ← h, one_le_div (by positivity), Nat.cast_le]

theorem two_zpow_log2_le {n : Nat} (hn : 0 < n) : (2 : ℚ) ^ (n.log2 : ℤ) ≤ n := mod_cast Nat.log2_self_le hn.ne'

theorem lt_two_zpow_log2_succ (n : Nat) : (n : ℚ) < 2 ^ ((n.log2 : ℤ) + 1) := mod_cast Nat.lt_log2_self

/-- `floorLog2` is the binary logarithm of a positive quotient, rounded down. -/
theorem floorLog2_spec {num den : Nat} (hnum : 0 < num) (hden : 0 < den) :
    (2 : ℚ) ^ floorLog2 num den ≤ num / den ∧ (num : ℚ) / den < 2 ^ (floorLog2 num den + 1) := by
  have hd : (0 : ℚ) < den := mod_cast hden
  unfold floorLog2
  simp only [shifted_le_iff hden]
  split
  next hle =>
    refine ⟨hle, (div_lt_iff₀ hd).2 ((lt_two_zpow_log2_succ num).trans_le ?_)⟩
    calc (2 : ℚ) ^ ((num.log2 : ℤ) + 1) = 2 ^ ((num.log2 : ℤ) - den.log2 + 1) * 2 ^ (den.log2 : ℤ) := by
          rw [← zpow_add₀ two_ne_zero]; congr 1; ring
      _ ≤ _ := by gcongr; exact two_zpow_log2_le hden
  next hlt =>
    refine ⟨(le_div_iff₀ hd).2 (le_trans ?_ (two_zpow_log2_le hnum)), by rw [sub_add_cancel]; exact not_le.1 hlt⟩
    calc (2 : ℚ) ^ ((num.log2 : ℤ) - den.log2 - 1) * den
        ≤ 2 ^ ((num.log2 : ℤ) - den.log2 - 1) * 2 ^ ((den.log2 : ℤ) + 1) := by
          gcongr; exact (lt_two_zpow_log2_succ den).le
      _ = 2 ^ (num.log2 : ℤ) := by rw [← zpow_add₀ two_ne_zero]; congr 1; ring

/-! ## The nearest integer -/

/-- `m` is the integer nearest to `x`, the even one of two as near. -/
def IsNearestInt (x : ℚ) (m : Nat) : Prop := |(m : ℚ) - x| ≤ 1 / 2 ∧ (|(m : ℚ) - x| = 1 / 2 → m % 2 = 0)

/-- The error of `roundDiv`, in units of `1 / den`. -/
theorem roundDiv_error (num den : Nat) (hden : 0 < den) :
    2 * |(roundDiv num den * den - num : ℤ)| ≤ den ∧
      (2 * |(roundDiv num den * den - num : ℤ)| = den → roundDiv num den % 2 = 0) := by
  have hnum : (num : ℤ) = (num / den : ℕ) * den + (num % den : ℕ) := mod_cast (Nat.div_add_mod' num den).symm
  have hrem : num % den < den := Nat.mod_lt num hden
  have down : |((num / den : ℕ) * den - num : ℤ)| = (num % den : ℕ) := by
    rw [hnum, sub_add_cancel_left, abs_neg, Nat.abs_cast]
  have up : |((num / den + 1 : ℕ) * den - num : ℤ)| = den - (num % den : ℕ) := by
    rw [hnum, Nat.cast_succ, add_one_mul, add_sub_add_left_eq_sub, abs_of_nonneg (by omega)]
  simp only [roundDiv]
  split_ifs
  · rw [down]; omega
  · rw [up]; omega
  · rw [down]; omega
  · rw [up]; omega

theorem roundDiv_isNearestInt (num : Nat) {den : Nat} (hden : 0 < den) : IsNearestInt ((num : ℚ) / den) (roundDiv num den) := by
  have hd : (0 : ℚ) < den := mod_cast hden
  have herr : |(roundDiv num den : ℚ) - num / den| = (|(roundDiv num den * den - num : ℤ)| : ℤ) / den := by
    rw [Int.cast_abs, ← abs_of_pos hd, ← abs_div, abs_of_pos hd]
    push_cast
    rw [sub_div, mul_div_cancel_right₀ _ hd.ne']
  obtain ⟨hle, htie⟩ := roundDiv_error num den hden
  rw [IsNearestInt, herr, div_le_div_iff₀ hd two_pos, div_eq_div_iff hd.ne' two_ne_zero, one_mul, mul_comm]
  exact ⟨mod_cast hle, fun h => htie (mod_cast h)⟩

/-- No integer is nearer to `x` than the nearest one, and one as near is left for an even one. -/
theorem IsNearestInt.le {x : ℚ} {m : Nat} (h : IsNearestInt x m) (z : ℤ) :
    |m - x| ≤ |z - x| ∧ (|m - x| = |z - x| → (m : ℚ) ≠ z → m % 2 = 0) := by
  obtain ⟨hhalf, heven⟩ := h
  by_cases hz : (z : ℚ) = m
  · exact ⟨by rw [hz], fun _ hne => absurd hz.symm hne⟩
  · have hfar : 1 ≤ |(z : ℚ) - m| := by
      have : z - m ≠ 0 := fun h => hz (by exact_mod_cast sub_eq_zero.1 h)
      exact_mod_cast Int.one_le_abs this
    have htri : |(z : ℚ) - m| ≤ |z - x| + |m - x| := by
      rw [abs_sub_comm (m : ℚ) x]; exact abs_sub_le _ _ _
    exact ⟨by linarith, fun htie _ => heven (by linarith)⟩

/-! ## Values of the format around `x * 2^q` -/

theorem finValue_not (s : Bool) (m : Nat) (e : Int) : finValue (!s) m e = -finValue s m e := by
  cases s <;> simp [finValue]

theorem abs_finValue (s : Bool) (m : Nat) (e : Int) : |finValue s m e| = m * 2 ^ e := by
  have hpos : (0 : ℚ) < 2 ^ e := by positivity
  cases s <;> simp [finValue, abs_mul, abs_of_pos hpos]

/-- A value with an exponent of `q` or more is a whole multiple of `2^q`. -/
theorem finValue_eq_intCast_mul {q e : Int} (h : q ≤ e) (s : Bool) (m : Nat) :
    finValue s m e = (signedNat s m * 2 ^ (e - q).toNat : ℤ) * 2 ^ q := by
  have hpow : (2 : ℚ) ^ e = 2 ^ (e - q).toNat * 2 ^ q := by
    rw [two_zpow_toNat (sub_nonneg.2 h), ← zpow_add₀ two_ne_zero, sub_add_cancel]
  cases s <;> simp [finValue, signedNat, hpow, mul_assoc]

/-- A value with an exponent below `q` is below every normal value at `q`. -/
theorem finValue_lt_of_exp_lt {f : FloatFormat} {q e : Int} (h : e < q) (s : Bool) {m : Nat} (hm : m < 2 ^ f.prec) :
    finValue s m e < 2 ^ f.fracBits * 2 ^ q := by
  have hm : (m : ℚ) < 2 * 2 ^ f.fracBits := by rw [← f.two_pow_prec_cast]; exact_mod_cast hm
  calc finValue s m e ≤ m * 2 ^ e := abs_finValue s m e ▸ le_abs_self _
    _ < 2 * 2 ^ f.fracBits * 2 ^ e := by gcongr
    _ = 2 ^ f.fracBits * 2 ^ (e + 1) := by rw [zpow_add_one₀ two_ne_zero]; ring
    _ ≤ 2 ^ f.fracBits * 2 ^ q := by gcongr; exacts [one_le_two, h]

/-- The integer `m` nearest to `x` gives the value `m * 2^q` nearest to `x * 2^q` among all values of the format, where `q` is
the least exponent or `x` is normal: a value finer than `2^q` is then too small to be near. -/
theorem IsNearestInt.finValue_le {f : FloatFormat} {x : ℚ} {m : Nat} (h : IsNearestInt x m) {q : Int}
    (hq : q = f.minExp ∨ 2 ^ f.fracBits ≤ x) (s : Bool) {m' : Nat} {e' : Int} (hm' : m' < 2 ^ f.prec) (he' : f.minExp ≤ e') :
    |m * 2 ^ q - x * 2 ^ q| ≤ |finValue s m' e' - x * 2 ^ q| ∧
      (|m * 2 ^ q - x * 2 ^ q| = |finValue s m' e' - x * 2 ^ q| → m * 2 ^ q ≠ finValue s m' e' → m % 2 = 0) := by
  have hpos : (0 : ℚ) < 2 ^ q := by positivity
  have scale (a b : ℚ) : |a * 2 ^ q - b * 2 ^ q| = |a - b| * 2 ^ q := by rw [← sub_mul, abs_mul, abs_of_pos hpos]
  by_cases hcoarse : q ≤ e'
  · rw [finValue_eq_intCast_mul hcoarse, scale, scale]
    obtain ⟨hle, htie⟩ := h.le (signedNat s m' * 2 ^ (e' - q).toNat)
    exact ⟨by gcongr, fun heq hne => htie (mul_right_cancel₀ hpos.ne' heq) fun h => hne (by rw [h])⟩
  · have hnormal : 2 ^ f.fracBits ≤ x := hq.resolve_left fun hmin => hcoarse (hmin ▸ he')
    have hbelow : finValue s m' e' < 2 ^ f.fracBits * 2 ^ q := finValue_lt_of_exp_lt (not_le.1 hcoarse) s hm'
    have hlt : |m * 2 ^ q - x * 2 ^ q| < |finValue s m' e' - x * 2 ^ q| := by
      have hup : 2 ^ f.fracBits * 2 ^ q ≤ x * 2 ^ q := by gcongr
      have hnear := (h.le (2 ^ f.fracBits)).1
      push_cast at hnear
      calc |m * 2 ^ q - x * 2 ^ q| ≤ |2 ^ f.fracBits * 2 ^ q - x * 2 ^ q| := by rw [scale, scale]; gcongr
        _ < |finValue s m' e' - x * 2 ^ q| := by
          rw [abs_of_nonpos (by linarith), abs_of_neg (by linarith)]; linarith
    exact ⟨hlt.le, fun heq => absurd heq hlt.ne⟩

/-! ## Rounding -/

theorem RoundsTo.neg {f : FloatFormat} {v : ℚ} {x : FloatVal} (h : RoundsTo f v x) : RoundsTo f (-v) x.neg := by
  cases x with
  | nan => exact h
  | inf s => cases s <;> simpa [RoundsTo, FloatVal.neg] using h
  | fin s m e =>
    obtain ⟨hm, hmin, hmax, hnear⟩ := h
    refine ⟨hm, hmin, hmax, fun s' m' e' hm' he' => ?_⟩
    have flip (a : ℚ) : |-a - -v| = |a - v| := by rw [← neg_sub', abs_neg]
    have := hnear (!s') m' e' hm' he'
    rw [finValue_not s, flip, ← neg_neg (finValue s' m' e'), ← finValue_not s', flip]
    simpa using this

theorem roundsTo_zero {f : FloatFormat} (hf : f.Proper) (s : Bool) : RoundsTo f 0 (.fin s 0 f.minExp) := by
  refine ⟨by positivity, le_rfl, hf.minExp_le.trans hf.maxExp_nonneg, fun s' m' e' _ _ => ⟨?_, fun _ _ => rfl⟩⟩
  simp [finValue]

/-- Half a unit above the largest finite value, from where on a value rounds to an infinity. -/
theorem infThreshold_eq (f : FloatFormat) :
    (2 ^ (f.prec + 1) - 1 : ℚ) * 2 ^ (f.maxExp - 1) = (2 ^ f.prec - 1 / 2) * 2 ^ f.maxExp := by
  rw [pow_succ, zpow_sub_one₀ two_ne_zero]; ring

theorem roundsTo_inf {f : FloatFormat} {v : ℚ} (h : (2 ^ f.prec - 1 / 2) * 2 ^ f.maxExp ≤ v) : RoundsTo f v (.inf false) := by
  rw [← infThreshold_eq] at h
  exact h

/-- A significand rounded up to one bit more is the least normal one at the next exponent. -/
theorem finValue_carry (f : FloatFormat) (q : Int) : finValue false (2 ^ f.fracBits) (q + 1) = 2 ^ f.prec * 2 ^ q := by
  rw [finValue, f.two_pow_prec_cast, zpow_add_one₀ two_ne_zero, if_neg Bool.false_ne_true]
  push_cast
  ring

/-- The value of the format for the significand `m` nearest to `x`, or the infinity when it is beyond the largest. -/
theorem IsNearestInt.roundsTo {f : FloatFormat} (hf : f.Proper) {x : ℚ} {m : Nat} (h : IsNearestInt x m) {q : Int}
    (hmin : f.minExp ≤ q) (hq : q = f.minExp ∨ 2 ^ f.fracBits ≤ x) (hx : x < 2 ^ f.prec) :
    RoundsTo f (x * 2 ^ q)
      (if m < 2 ^ f.prec then if q ≤ f.maxExp then .fin false m q else .inf false
        else if q + 1 ≤ f.maxExp then .fin false (2 ^ f.fracBits) (q + 1) else .inf false) := by
  have near := h.finValue_le hq
  obtain ⟨hlo, hhi⟩ := abs_le.1 h.1
  have hone : (1 : ℚ) ≤ 2 ^ f.prec := one_le_pow₀ one_le_two
  split_ifs with hm hmax hmax
  · refine ⟨hm, hmin, hmax, fun s' m' e' hm' he' => ?_⟩
    simpa [finValue] using near s' hm' he'
  · have hnormal : 2 ^ f.fracBits ≤ x := hq.resolve_left fun hq => hmax (by linarith [hf.minExp_le, hf.maxExp_nonneg])
    refine roundsTo_inf ?_
    calc (2 ^ f.prec - 1 / 2) * (2 : ℚ) ^ f.maxExp ≤ 2 ^ f.prec * 2 ^ f.maxExp := by gcongr; linarith
      _ = 2 ^ f.fracBits * 2 ^ (f.maxExp + 1) := by rw [f.two_pow_prec_cast, zpow_add_one₀ two_ne_zero]; ring
      _ ≤ 2 ^ f.fracBits * 2 ^ q := by gcongr; exacts [one_le_two, not_le.1 hmax]
      _ ≤ x * 2 ^ q := by gcongr
  · have hcarry : (m : ℚ) = 2 ^ f.prec := by
      have : (m : ℚ) < 2 ^ f.prec + 1 := by linarith
      exact_mod_cast le_antisymm (Nat.lt_succ_iff.1 (mod_cast this)) (not_lt.1 hm)
    have heven : 2 ^ f.fracBits % 2 = 0 := Nat.even_iff.1 (even_two.pow_of_ne_zero hf.fracBits_pos.ne')
    have hprec : 2 ^ f.fracBits < 2 ^ f.prec := Nat.pow_lt_pow_right one_lt_two f.fracBits.lt_succ_self
    refine ⟨hprec, by omega, hmax, fun s' m' e' hm' he' => ?_⟩
    rw [finValue_carry, ← hcarry]
    exact ⟨(near s' hm' he').1, fun _ _ => heven⟩
  · have hcarry : (2 : ℚ) ^ f.prec ≤ m := mod_cast not_lt.1 hm
    refine roundsTo_inf (mul_le_mul (by linarith) ?_ (by positivity) (by linarith))
    exact zpow_le_zpow_right₀ one_le_two (by omega)

theorem roundTo_not (f : FloatFormat) (s : Bool) (num den : Nat) (e : Int) :
    roundTo f (!s) num den e = (roundTo f s num den e).neg := by
  simp only [roundTo]
  split_ifs <;> rfl

theorem roundTo_sign {f : FloatFormat} {neg s : Bool} {num den m : Nat} {e q : Int} (h : roundTo f neg num den e = .fin s m q) :
    s = neg := by
  simp only [roundTo] at h
  split_ifs at h <;> cases h <;> rfl

theorem roundTo_roundsTo_of_pos {f : FloatFormat} (hf : f.Proper) {num den : Nat} (hnum : 0 < num) (hden : 0 < den) (e : Int) :
    RoundsTo f ((num : ℚ) / den * 2 ^ e) (roundTo f false num den e) := by
  obtain ⟨hlog, hlog'⟩ := floorLog2_spec hnum hden
  rw [roundTo, if_neg hnum.ne']
  extract_lets q m
  have hm : IsNearestInt ((num : ℚ) / den * 2 ^ (e - q)) m := by
    rw [← shifted_div_eq, neg_sub]
    exact roundDiv_isNearestInt _ (by positivity)
  have hval : (num : ℚ) / den * 2 ^ e = num / den * 2 ^ (e - q) * 2 ^ q := by
    rw [mul_assoc, ← zpow_add₀ two_ne_zero, sub_add_cancel]
  have hlogLe : floorLog2 num den + e - f.fracBits ≤ q := le_max_right _ _
  have hx : (num : ℚ) / den * 2 ^ (e - q) < 2 ^ f.prec := by
    calc (num : ℚ) / den * 2 ^ (e - q) < 2 ^ (floorLog2 num den + 1) * 2 ^ (e - q) := by gcongr
      _ = 2 ^ (floorLog2 num den + 1 + (e - q)) := (zpow_add₀ two_ne_zero _ _).symm
      _ ≤ 2 ^ (f.prec : ℤ) := zpow_le_zpow_right₀ one_le_two (by rw [FloatFormat.prec]; omega)
      _ = 2 ^ f.prec := zpow_natCast _ _
  have hq : q = f.minExp ∨ 2 ^ f.fracBits ≤ (num : ℚ) / den * 2 ^ (e - q) := by
    refine (max_choice f.minExp (floorLog2 num den + e - f.fracBits)).imp_right fun hq => ?_
    calc (2 : ℚ) ^ f.fracBits = 2 ^ (f.fracBits : ℤ) := (zpow_natCast _ _).symm
      _ = 2 ^ floorLog2 num den * 2 ^ (e - q) := by rw [← zpow_add₀ two_ne_zero]; congr 1; omega
      _ ≤ (num : ℚ) / den * 2 ^ (e - q) := by gcongr
  rw [hval]
  exact hm.roundsTo hf (le_max_left _ _) hq hx

/-- `roundTo` gives the exact value rounded once, to nearest, ties to even (R18). -/
theorem roundTo_roundsTo {f : FloatFormat} (hf : f.Proper) (neg : Bool) (num : Nat) {den : Nat} (hden : 0 < den) (e : Int) :
    RoundsTo f ((if neg then -1 else 1) * ((num : ℚ) / den) * 2 ^ e) (roundTo f neg num den e) := by
  obtain rfl | hnum := num.eq_zero_or_pos
  · simpa [roundTo] using roundsTo_zero hf neg
  · have hpos := roundTo_roundsTo_of_pos hf hnum hden e
    cases neg with
    | false => simpa using hpos
    | true => simpa [← roundTo_not] using hpos.neg

/-- The rounding of a whole number of `2^e`. -/
theorem roundTo_one_roundsTo {f : FloatFormat} (hf : f.Proper) (neg : Bool) (num : Nat) (e : Int) :
    RoundsTo f (finValue neg num e) (roundTo f neg num 1 e) := by
  simpa [finValue] using roundTo_roundsTo hf neg num one_pos e

/-! ## The operations on finite values -/

theorem finValue_false_zero_exp (u : Nat) : finValue false u 0 = u := by simp [finValue]

theorem finValue_sign_natAbs (z : ℤ) (e : Int) : finValue (decide (z < 0)) z.natAbs e = z * 2 ^ e := by
  rw [finValue, Nat.cast_natAbs]
  congr 1
  by_cases h : z < 0
  · simp [h, abs_of_neg]
  · simp [h, abs_of_nonneg (not_lt.1 h)]

theorem ofUint_roundsTo {f : FloatFormat} (hf : f.Proper) (u : Nat) : RoundsTo f u (FloatVal.ofUint f u) := by
  rw [← finValue_false_zero_exp u]
  exact roundTo_one_roundsTo hf false u 0

theorem add_roundsTo {f : FloatFormat} (hf : f.Proper) (s t : Bool) (m n : Nat) (e d : Int) :
    RoundsTo f (finValue s m e + finValue t n d) ((FloatVal.fin s m e).add f (.fin t n d)) := by
  rw [finValue_eq_intCast_mul (min_le_left e d), finValue_eq_intCast_mul (min_le_right e d), ← add_mul, ← Int.cast_add,
    FloatVal.add]
  split_ifs with hzero
  · simpa [hzero] using roundsTo_zero hf (s && t)
  · rw [← finValue_sign_natAbs]
    exact roundTo_one_roundsTo hf _ _ _

theorem sub_roundsTo {f : FloatFormat} (hf : f.Proper) (s t : Bool) (m n : Nat) (e d : Int) :
    RoundsTo f (finValue s m e - finValue t n d) ((FloatVal.fin s m e).sub f (.fin t n d)) := by
  rw [sub_eq_add_neg, ← finValue_not]
  exact add_roundsTo hf s (!t) m n e d

theorem sign_bne (s t : Bool) : (if s != t then -1 else 1 : ℚ) = (if s then -1 else 1) * (if t then -1 else 1) := by
  cases s <;> cases t <;> simp

theorem sign_inv (s : Bool) : (if s then -1 else 1 : ℚ)⁻¹ = if s then -1 else 1 := by
  cases s <;> simp

theorem mul_roundsTo {f : FloatFormat} (hf : f.Proper) (s t : Bool) (m n : Nat) (e d : Int) :
    RoundsTo f (finValue s m e * finValue t n d) ((FloatVal.fin s m e).mul f (.fin t n d)) := by
  have hprod : finValue s m e * finValue t n d = finValue (s != t) (m * n) (e + d) := by
    rw [finValue, finValue, finValue, sign_bne, zpow_add₀ two_ne_zero]
    push_cast
    ring
  rw [hprod]
  exact roundTo_one_roundsTo hf _ _ _

theorem div_roundsTo {f : FloatFormat} (hf : f.Proper) (s t : Bool) (m : Nat) {n : Nat} (hn : n ≠ 0) (e d : Int) :
    RoundsTo f (finValue s m e / finValue t n d) ((FloatVal.fin s m e).div f (.fin t n d)) := by
  have hquot : finValue s m e / finValue t n d = (if s != t then -1 else 1) * ((m : ℚ) / n) * 2 ^ (e - d) := by
    rw [finValue, finValue, sign_bne, zpow_sub₀ two_ne_zero]
    simp only [div_eq_mul_inv, mul_inv, sign_inv]
    ring
  rw [hquot, FloatVal.div, if_neg hn]
  exact roundTo_roundsTo hf _ _ (Nat.pos_of_ne_zero hn) _

/-- Settles O43: every operation is one `roundTo` of the exact result, which rounds to nearest, ties to even. -/
theorem roundingIsToNearestEven : Obligations.RoundingIsToNearestEven := by
  intro f hmem
  have hf := f.proper_of_mem hmem
  exact ⟨fun neg num den e hden => ⟨roundTo_roundsTo hf neg num hden e, fun _ _ _ => roundTo_sign⟩, ofUint_roundsTo hf,
    fun s t m n e d => ⟨add_roundsTo hf s t m n e d, sub_roundsTo hf s t m n e d, mul_roundsTo hf s t m n e d,
      fun hn => div_roundsTo hf s t m hn e d⟩⟩

/-! ## Floor -/

/-- Rounding leaves a value of the format as it is. -/
theorem RoundsTo.eq_of_finValue {f : FloatFormat} {s : Bool} {m : Nat} {e : Int} {x : FloatVal} (h : RoundsTo f (finValue s m e) x)
    (hm : m < 2 ^ f.prec) (hmin : f.minExp ≤ e) (hmax : e ≤ f.maxExp) :
    ∃ s' m' e', x = .fin s' m' e' ∧ m' < 2 ^ f.prec ∧ finValue s' m' e' = finValue s m e := by
  cases x with
  | nan => exact h.elim
  | inf neg =>
    have hm : (m : ℚ) ≤ 2 ^ f.prec - 1 := by
      rw [le_sub_iff_add_le]; exact_mod_cast hm
    have habs : (if neg then -finValue s m e else finValue s m e) ≤ m * 2 ^ e := by
      rw [← abs_finValue s]
      cases neg
      · exact le_abs_self _
      · exact neg_le_abs _
    have hlt : m * (2 : ℚ) ^ e < (2 ^ f.prec - 1 / 2) * 2 ^ f.maxExp := by
      calc m * (2 : ℚ) ^ e ≤ m * 2 ^ f.maxExp := by gcongr; exact one_le_two
        _ < (2 ^ f.prec - 1 / 2) * 2 ^ f.maxExp := by gcongr; linarith
    exact absurd (h.trans habs) (by rw [infThreshold_eq]; exact not_le.2 hlt)
  | fin s' m' e' =>
    obtain ⟨hm', -, -, hnear⟩ := h
    refine ⟨s', m', e', rfl, hm', ?_⟩
    simpa [sub_eq_zero] using (hnear s m e hm hmin).1

theorem finValue_of_nonneg_exp (s : Bool) (m : Nat) {e : Int} (he : 0 ≤ e) :
    finValue s m e = (signedNat s m * 2 ^ e.toNat : ℤ) := by
  simpa using finValue_eq_intCast_mul he s m

/-- The quotient rounded down, as the model computes it: away from zero when a negative one is not whole. -/
def floorDiv (s : Bool) (m unit : Nat) : Nat := if s ∧ m % unit ≠ 0 then m / unit + 1 else m / unit

theorem signedNat_floorDiv (s : Bool) (m : Nat) {unit : Nat} (h : 0 < unit) :
    signedNat s (floorDiv s m unit) = signedNat s m / (unit : ℤ) := by
  cases s with
  | false => simp [floorDiv, signedNat]
  | true =>
    have hsign : (unit : ℤ).sign = 1 := Int.sign_eq_one_of_pos (mod_cast h)
    have hdvd : (unit : ℤ) ∣ m ↔ m % unit = 0 := by rw [Int.natCast_dvd_natCast, Nat.dvd_iff_mod_eq_zero]
    by_cases hrem : m % unit = 0
    · simp [floorDiv, signedNat, Int.neg_ediv, hdvd, hrem]
    · simp [floorDiv, signedNat, Int.neg_ediv, hdvd, hrem, hsign, sub_eq_add_neg, add_comm]

theorem floorDiv_le (s : Bool) (m unit : Nat) : floorDiv s m unit ≤ m / unit + 1 := by
  unfold floorDiv
  split_ifs <;> omega

theorem floor_finValue_of_neg_exp (s : Bool) (m : Nat) {e : Int} (he : e < 0) :
    (⌊finValue s m e⌋ : ℚ) = finValue s (floorDiv s m (2 ^ (-e).toNat)) 0 := by
  have hquot : finValue s m e = (signedNat s m : ℚ) / (2 ^ (-e).toNat : ℕ) := by
    have hpow : (2 : ℚ) ^ e = 1 / (2 ^ (-e).toNat : ℕ) := by
      push_cast
      rw [two_zpow_toNat (by omega), zpow_neg, one_div, inv_inv]
    cases s <;> simp [finValue, signedNat, hpow, div_eq_mul_inv]
  rw [hquot, Rat.floor_intCast_div_natCast, finValue_of_nonneg_exp _ _ le_rfl, signedNat_floorDiv s m (by positivity)]
  simp

/-- Below the exponent 0 the floor takes one significand bit less, so rounding its magnitude keeps it. -/
theorem floorDiv_lt_two_pow_prec {f : FloatFormat} (hf : f.Proper) (s : Bool) {m : Nat} (hm : m < 2 ^ f.prec) {k : Nat}
    (hk : 0 < k) : floorDiv s m (2 ^ k) < 2 ^ f.prec := by
  have hunit : 2 ≤ 2 ^ k := Nat.le_self_pow hk.ne' 2
  have hdiv : m / 2 ^ k ≤ m / 2 := Nat.div_le_div_left hunit two_pos
  have htwo : 2 ≤ 2 ^ f.fracBits := Nat.le_self_pow hf.fracBits_pos.ne' 2
  have := floorDiv_le s m (2 ^ k)
  rw [f.two_pow_prec] at hm ⊢
  omega

/-- Settles O44: below the exponent 0 the floor is a whole number of at most `2^fracBits`, which rounding keeps. -/
theorem floorIsLargestIntegerBelow : Obligations.FloorIsLargestIntegerBelow := by
  intro f hmem s m e hm hmin hmax
  have hf := f.proper_of_mem hmem
  rw [FloatVal.floor]
  split_ifs with hwhole
  · refine ⟨s, m, e, rfl, hm, ?_⟩
    obtain rfl | he := hwhole
    · simp [finValue]
    · rw [finValue_of_nonneg_exp s m he, Int.floor_intCast]
  · have he : e < 0 := not_le.1 fun he => hwhole (.inr he)
    rw [floor_finValue_of_neg_exp s m he]
    exact (roundTo_one_roundsTo hf s _ 0).eq_of_finValue (floorDiv_lt_two_pow_prec hf s hm (by omega)) hf.minExp_le
      hf.maxExp_nonneg

end Sys2Proof.Machine
end

section
/-! PROOFS. What one engine step of a command is (spec 30_encoding.md R102, 42_kernels.md R181): one of six operations, chosen by
the parameters, LARG, the slots and the fill progress alone. Every frame of a command is read off these six. -/

namespace Sys2Proof.Machine

section Choice

variable {w : Nat} {γ : Type}

/-- The operations a step of command `i` of the variant can be, from `s`. -/
inductive Gen.Does (g : Gen w γ) (i : Instr) (s : State) : (State → State) → Prop where
  /-- The command ends, with an error or with nothing left to do. -/
  | ends (code : ResultCode) : Gen.Does g i s (State.complete code)
  /-- CREATE fills the free slot `h` (41_lifecycle.md R163, R164). -/
  | creates (h : Nat) (key : Key w) (hi : i = .create32 ∨ i = .create64) (free : g.freeHandle s = some h) :
      Gen.Does g i s fun u => (g.setSlot h ⟨true, g.initCtr, key⟩ u).succeedWith ⟨BitVec.ofNat 64 h, 0, 0, 0⟩
  /-- DESTROY clears LIVE (R166, R167). -/
  | destroys (sl : Slot γ w) (live : g.liveSlot i.handle s = some sl) :
      Gen.Does g i s fun u => (g.setSlot i.handle { sl with live := false } u).succeed
  /-- NEXT draws a block (40_generator.md R135, R143). -/
  | draws (sl : Slot γ w) (hi : ∃ h, i = .next32 h ∨ i = .next64 h) (live : g.liveSlot i.handle s = some sl) :
      Gen.Does g i s fun u => (g.advanceSlot i.handle sl u).succeedWith (blockRes (g.round u.params sl.ctr sl.key))
  /-- A FILL computes a round with `n` elements written. -/
  | rounds (sl : Slot γ w) (n : Nat) (fill : i.isFill = true) (live : g.liveSlot i.handle s = some sl) (hn : n ≤ s.count) :
      Gen.Does g i s (g.fillRound i.handle sl n)
  /-- A FILL writes an element. -/
  | writes (tr : BitVec w → BitVec w) (p : Fill w) (fill : i.isFill = true) (progress : g.fill s = some p)
      (more : p.i < s.count) (word : p.j < g.blockLen) (buffer : g.bufferError s = none) : Gen.Does g i s (g.elementState tr p)

/-- The two states agree in all that a step of a command of the variant looks at. -/
structure Gen.Agree (g : Gen w γ) (s u : State) : Prop where
  params : u.params = s.params
  larg : u.larg = s.larg
  slots : g.slots u = g.slots s
  fill : g.fill u = g.fill s

/-- Where `f` answers a next state from `s`, it does one of the operations of command `i`, and the same one from every state that
agrees. -/
def Gen.Answers (g : Gen w γ) (i : Instr) (s : State) (f : State → Result) : Prop :=
  ∀ t, f s = .next t → ∃ op, g.Does i s op ∧ ∀ u, g.Agree s u → f u = .next (op u)

variable {g : Gen w γ} {i : Instr} {s u : State}

theorem Gen.Agree.refl (g : Gen w γ) (s : State) : g.Agree s s := ⟨rfl, rfl, rfl, rfl⟩

/-- All that the procedures ask has the same answer in states that agree. -/
theorem Gen.Agree.asked (a : g.Agree s u) :
    (∀ h, g.liveSlot h u = g.liveSlot h s) ∧ g.freeHandle u = g.freeHandle s ∧
      u.seed0 w = s.seed0 w ∧ u.seed1 w = s.seed1 w ∧ u.count = s.count ∧ g.bufferError u = g.bufferError s ∧
      u.params.windowMeets u.base (g.bufferBytes u) = s.params.windowMeets s.base (g.bufferBytes s) ∧
      (∀ n, u.params.refuses (g.elemAddr n u) g.elemBytes = s.params.refuses (g.elemAddr n s) g.elemBytes) ∧
      g.fill u = g.fill s := by
  have base : u.base = s.base := by simp only [State.base, a.larg]
  have count : u.count = s.count := by simp only [State.count, a.larg]
  have buffer : g.bufferError u = g.bufferError s := by
    unfold Gen.bufferError Gen.bufferBytes
    rw [base, count, a.params]
  simp only [Gen.liveSlot, Gen.freeHandle, State.seed0, State.seed1, Gen.bufferBytes, Gen.elemAddr, base, count, buffer, a.params,
    a.larg, a.slots, a.fill, implies_true, and_self]

theorem Gen.create_answers (hi : i = .create32 ∨ i = .create64) : g.Answers i s g.create := by
  intro t _
  rcases g.create_cases s with ⟨hf, -⟩ | ⟨h, hf, -⟩
  · exact ⟨_, .ends .noslot, fun u a => by simp only [Gen.create, a.asked, hf]; rfl⟩
  · exact ⟨_, .creates h ⟨s.seed0 w, s.seed1 w⟩ hi hf, fun u a => by simp only [Gen.create, a.asked, hf]⟩

theorem Gen.destroy_answers : g.Answers i s (g.destroy i.handle) := by
  intro t _
  rcases g.destroy_cases i.handle s with ⟨h0, -⟩ | ⟨h0, hl, -⟩ | ⟨sl, h0, hl, -⟩
  · exact ⟨_, .ends .ok, fun u a => by simp only [Gen.destroy, h0, if_true]; rfl⟩
  · exact ⟨_, .ends .handle, fun u a => by simp only [Gen.destroy, h0, if_false, a.asked, hl]; rfl⟩
  · exact ⟨_, .destroys sl hl, fun u a => by simp only [Gen.destroy, h0, if_false, a.asked, hl]⟩

theorem Gen.next_answers (hi : ∃ h, i = .next32 h ∨ i = .next64 h) : g.Answers i s (g.next i.handle) := by
  intro t _
  rcases g.next_cases i.handle s with ⟨hl, -⟩ | ⟨sl, hl, -⟩
  · exact ⟨_, .ends .handle, fun u a => by simp only [Gen.next, a.asked, hl]; rfl⟩
  · exact ⟨_, .draws sl hi hl, fun u a => by simp only [Gen.next, a.asked, hl]⟩

/-- The transform of a FILL may come from LARG. -/
theorem Gen.fillStep_answers (hi : i.isFill = true) {tr : State → BitVec w → BitVec w}
    (htr : ∀ u : State, u.larg = s.larg → tr u = tr s) : g.Answers i s fun u => g.fillStep (tr u) i.handle u := by
  intro t ht
  rcases g.fillStep_cases (tr s) i.handle s with
    ⟨hl, -⟩ | ⟨sl, hl, ⟨hc, -⟩ | ⟨hc, code, hb, -⟩ | ⟨hc, hb, ⟨-, he⟩ | ⟨hw, hrun⟩⟩⟩
  · exact ⟨_, .ends .handle, fun u a => by simp only [Gen.fillStep, a.asked, hl]; rfl⟩
  · exact ⟨_, .ends .ok, fun u a => by simp only [Gen.fillStep, a.asked, hl, hc, if_true]; rfl⟩
  · exact ⟨_, .ends code, fun u a => by simp only [Gen.fillStep, a.asked, hl, hc, if_false, hb]; rfl⟩
  · cases he.symm.trans ht
  · rcases hrun with ⟨hf, -⟩ | ⟨p, hf, ⟨hd, -⟩ | ⟨-, -, -, he⟩ | ⟨hm, hj, hr, -⟩ | ⟨hm, hj, -⟩⟩
    · exact ⟨_, .rounds sl 0 hi hl (Nat.zero_le _), fun u a => by simp [Gen.fillStep, a.asked, *]⟩
    · exact ⟨_, .ends .ok, fun u a => by simp [Gen.fillStep, a.asked, *]; rfl⟩
    · cases he.symm.trans ht
    · exact ⟨_, .writes (tr s) p hi hf hm hj hb, fun u a => by
        simp [Gen.fillStep, Gen.fillElement, Gen.elementState, a.asked, htr u a.larg, Nat.not_le.2 hm, *]⟩
    · exact ⟨_, .rounds sl p.i hi hl hm.le, fun u a => by
        simp [Gen.fillStep, a.asked, Nat.not_le.2 hm, Nat.not_lt.2 hj, *]⟩

end Choice

/-- The bounds of a kernel come from LARG. -/
theorem State.bounds_of_larg {w : Nat} {s u : State} (h : u.larg = s.larg) :
    u.minBits w = s.minBits w ∧ u.maxBits w = s.maxBits w := by
  simp only [State.minBits, State.maxBits, h, and_self]

/-- A step of a command of Generator-32 is one of the six operations. -/
theorem exec_answers32 (s : State) : ∀ i : Instr, i.variant = .v32 → gen32.Answers i s (exec i)
  | .create32, _ => Gen.create_answers (.inl rfl)
  | .destroy32 _, _ => Gen.destroy_answers
  | .next32 _, _ => Gen.next_answers ⟨_, .inl rfl⟩
  | .fillraw32 _, _ => Gen.fillStep_answers (tr := fun _ => tRaw) rfl fun _ _ => rfl
  | .filluf32 _, _ => Gen.fillStep_answers (tr := fun _ => tUf binary32) rfl fun _ _ => rfl
  | .fillbi32 _, _ => Gen.fillStep_answers (tr := fun u => tBi (u.minBits 32) (u.maxBits 32)) rfl fun u h => by
      simp only [State.bounds_of_larg h]
  | .fillbd32 _, _ => Gen.fillStep_answers (tr := fun u => tBd binary32 (u.minBits 32) (u.maxBits 32)) rfl fun u h => by
      simp only [State.bounds_of_larg h]

/-- A step of a command of Generator-64 is one of the six operations. -/
theorem exec_answers64 (s : State) : ∀ i : Instr, i.variant = .v64 → gen64.Answers i s (exec i)
  | .create64, _ => Gen.create_answers (.inr rfl)
  | .destroy64 _, _ => Gen.destroy_answers
  | .next64 _, _ => Gen.next_answers ⟨_, .inr rfl⟩
  | .fillraw64 _, _ => Gen.fillStep_answers (tr := fun _ => tRaw) rfl fun _ _ => rfl
  | .filluf64 _, _ => Gen.fillStep_answers (tr := fun _ => tUf binary64) rfl fun _ _ => rfl
  | .fillbi64 _, _ => Gen.fillStep_answers (tr := fun u => tBi (u.minBits 64) (u.maxBits 64)) rfl fun u h => by
      simp only [State.bounds_of_larg h]
  | .fillbd64 _, _ => Gen.fillStep_answers (tr := fun u => tBd binary64 (u.minBits 64) (u.maxBits 64)) rfl fun u h => by
      simp only [State.bounds_of_larg h]

/-- What a step of a command is: an operation of its variant, done from every state that agrees. -/
theorem exec_does {i : Instr} {s t : State} (h : exec i s = .next t) :
    (i.variant = .v32 ∧ ∃ op, gen32.Does i s op ∧ t = op s ∧ ∀ u, gen32.Agree s u → exec i u = .next (op u)) ∨
    (i.variant = .v64 ∧ ∃ op, gen64.Does i s op ∧ t = op s ∧ ∀ u, gen64.Agree s u → exec i u = .next (op u)) := by
  cases hv : i.variant with
  | v32 =>
    obtain ⟨op, hd, he⟩ := exec_answers32 s i hv t h
    exact .inl ⟨rfl, op, hd, Host.Outcome.next.inj <| h.symm.trans (he s (.refl _ _)), he⟩
  | v64 =>
    obtain ⟨op, hd, he⟩ := exec_answers64 s i hv t h
    exact .inr ⟨rfl, op, hd, Host.Outcome.next.inj <| h.symm.trans (he s (.refl _ _)), he⟩

end Sys2Proof.Machine
end

section
/-! PROOFS. The frames of a command and of a step, read off the operations a command's step can be; what touches STATUS; and the
obligations that rest on them. -/

namespace Sys2Proof.Machine

/-! ## What a command leaves unchanged -/

/-- What no step of a command touches. -/
structure CommandFrame (s t : State) : Prop where
  params : t.params = s.params
  lcmd : t.lcmd = s.lcmd
  larg : t.larg = s.larg
  arg : t.arg = s.arg
  ovr : t.ovr = s.ovr
  hosts : t.hosts = s.hosts
  sched : t.sched = s.sched
  resetReq : t.resetReq = s.resetReq

theorem exec_frame {i : Instr} {s t : State} (h : exec i s = .next t) : CommandFrame s t := by
  rcases exec_does h with ⟨-, op, hd, rfl, -⟩ | ⟨-, op, hd, rfl, -⟩
  all_goals cases hd <;> exact ⟨rfl, rfl, rfl, rfl, rfl, rfl, rfl, rfl⟩

/-- A step that does not end the command leaves the phase; one that ends it ends the fill progress. -/
theorem exec_phase {i : Instr} {s t : State} (h : exec i s = .next t) :
    t.phase = s.phase ∨ (t.phase = .idle ∧ t.fill32 = none ∧ t.fill64 = none) := by
  rcases exec_does h with ⟨-, op, hd, rfl, -⟩ | ⟨-, op, hd, rfl, -⟩
  all_goals
    cases hd with
    | rounds | writes => exact .inl rfl
    | ends | creates | destroys | draws => exact .inr ⟨rfl, rfl, rfl⟩

/-- RES changes only where a CREATE or a NEXT succeeds. -/
theorem exec_res {i : Instr} {s t : State} (h : exec i s = .next t) (hr : t.res ≠ s.res) :
    t.phase = .idle ∧ t.err = .ok ∧ i.isFill = false ∧ ∀ h, i ≠ .destroy32 h ∧ i ≠ .destroy64 h := by
  rcases exec_does h with ⟨-, op, hd, rfl, -⟩ | ⟨-, op, hd, rfl, -⟩
  all_goals
    cases hd with
    | creates _ _ hi => rcases hi with rfl | rfl <;> exact ⟨rfl, rfl, rfl, fun _ => ⟨nofun, nofun⟩⟩
    | draws _ hi => obtain ⟨_, rfl | rfl⟩ := hi <;> exact ⟨rfl, rfl, rfl, fun _ => ⟨nofun, nofun⟩⟩
    | ends | destroys | rounds | writes => exact absurd rfl hr

/-! ## Slots -/

section Slots

variable {w : Nat} {γ : Type}

/-- What command `i` can do to the slots of the variant whose CREATE is `c`. -/
inductive SlotStep (c i : Instr) (old : List (Slot γ w)) : List (Slot γ w) → Prop where
  | same : SlotStep c i old old
  /-- The CREATE fills a slot that is not live. -/
  | filled (k : Nat) (sl new : Slot γ w) (hi : i = c) (hsl : old[k]? = some sl) (dead : sl.live = false) :
      SlotStep c i old (old.set k new)
  /-- The slot the handle names is written, its key kept. -/
  | named (k : Nat) (sl new : Slot γ w) (hk : k + 1 = i.handle) (hsl : old[k]? = some sl) (key : new.key = sl.key) :
      SlotStep c i old (old.set k new)

variable {c i : Instr}

theorem Gen.slotStep_named {g : Gen w γ} {s : State} {sl new : Slot γ w} (hl : g.liveSlot i.handle s = some sl)
    (key : new.key = sl.key) : SlotStep c i (g.slots s) ((g.slots s).set (i.handle - 1) new) := by
  obtain ⟨h1, -, hsl, -⟩ := g.liveSlot_eq_some.1 hl
  exact .named _ sl new (by omega) hsl key

theorem Gen.slotStep_filled {g : Gen w γ} {s : State} {h : Nat} (hi : i = c) (hf : g.freeHandle s = some h) (new : Slot γ w) :
    SlotStep c i (g.slots s) ((g.slots s).set (h - 1) new) := by
  obtain ⟨-, -, ⟨sl, hsl, dead⟩, -⟩ := g.freeHandle_eq_some.1 hf
  exact .filled _ sl new hi hsl dead

variable {old new : List (Slot γ w)} (h : SlotStep c i old new)
include h

theorem SlotStep.unnamed (hi : i ≠ c) {k : Nat} (hk : k + 1 ≠ i.handle) : new[k]? = old[k]? := by
  cases h with
  | same => rfl
  | filled _ _ _ hc => exact absurd hc hi
  | named j _ _ hj => rw [List.getElem?_set_ne (by omega)]

theorem SlotStep.unnamed_live (hi : i.handle = 0) {k : Nat} {sl : Slot γ w} (hsl : old[k]? = some sl) (live : sl.live = true) :
    new[k]? = old[k]? := by
  cases h with
  | same => rfl
  | filled j x _ _ hx dead =>
    refine List.getElem?_set_ne fun hj => ?_
    rw [hj, hsl, Option.some.injEq] at hx
    rw [← hx, live] at dead
    cases dead
  | named j _ _ hj => omega

theorem SlotStep.key_eq (hi : i ≠ c) {k : Nat} {sl sl' : Slot γ w} (hsl : old[k]? = some sl) (hsl' : new[k]? = some sl') :
    sl'.key = sl.key := by
  cases h with
  | same => rw [hsl, Option.some.injEq] at hsl'; rw [hsl']
  | filled _ _ _ hc => exact absurd hc hi
  | named j x y hj hx key =>
    rw [List.getElem?_set] at hsl'
    split_ifs at hsl' with hjk
    · subst hjk
      rw [← Option.some.inj hsl', key, Option.some.inj (hx.symm.trans hsl)]
    · rw [Option.some.inj (hsl.symm.trans hsl')]

theorem SlotStep.keys (hc : c.handle = 0) {k : Nat} {sl sl' : Slot γ w} (hsl : old[k]? = some sl) (hsl' : new[k]? = some sl') :
    (sl.live = true → sl'.key = sl.key) ∧ (sl'.key ≠ sl.key → i = c) := by
  by_cases hi : i = c
  · refine ⟨fun live => ?_, fun _ => hi⟩
    rw [h.unnamed_live (hi ▸ hc) hsl live] at hsl'
    rw [Option.some.inj (hsl.symm.trans hsl')]
  · exact ⟨fun _ => h.key_eq hi hsl hsl', fun hk => absurd (h.key_eq hi hsl hsl') hk⟩

end Slots

/-- A command steps the slots of its own variant and leaves those of the other. -/
theorem exec_slots {i : Instr} {s t : State} (h : exec i s = .next t) :
    SlotStep .create32 i s.slots32 t.slots32 ∧ SlotStep .create64 i s.slots64 t.slots64 ∧
      (i.variant = .v32 → t.slots64 = s.slots64) ∧ (i.variant = .v64 → t.slots32 = s.slots32) := by
  rcases exec_does h with ⟨hv, op, hd, rfl, -⟩ | ⟨hv, op, hd, rfl, -⟩
  · have own : SlotStep .create32 i s.slots32 (op s).slots32 ∧ (op s).slots64 = s.slots64 := by
      cases hd with
      | ends | writes => exact ⟨.same, rfl⟩
      | creates _ _ hi free => exact ⟨Gen.slotStep_filled (hi.resolve_right fun he => by cases he ▸ hv) free _, rfl⟩
      | destroys _ live | draws _ _ live | rounds _ _ _ live => exact ⟨Gen.slotStep_named live rfl, rfl⟩
    exact ⟨own.1, own.2 ▸ .same, fun _ => own.2, fun h => nomatch hv.symm.trans h⟩
  · have own : SlotStep .create64 i s.slots64 (op s).slots64 ∧ (op s).slots32 = s.slots32 := by
      cases hd with
      | ends | writes => exact ⟨.same, rfl⟩
      | creates _ _ hi free => exact ⟨Gen.slotStep_filled (hi.resolve_left fun he => by cases he ▸ hv) free _, rfl⟩
      | destroys _ live | draws _ _ live | rounds _ _ _ live => exact ⟨Gen.slotStep_named live rfl, rfl⟩
    exact ⟨own.2 ▸ .same, own.1, fun h => (nomatch hv.symm.trans h), fun _ => own.2⟩

/-- Settles O36: a command's step leaves the slots of the other variant, and steps its own as `SlotStep` says. -/
theorem slotFrame : Obligations.SlotFrame := by
  intro i s t h
  obtain ⟨h32, h64, other32, other64⟩ := exec_slots h
  refine ⟨other32, other64, ?_, ?_, fun hi _ _ _ => h32.key_eq hi, fun hi _ _ _ => h64.key_eq hi⟩
  · rintro k (⟨rfl, sl, hsl, live⟩ | ⟨hi, hk⟩)
    · exact h32.unnamed_live rfl hsl live
    · exact h32.unnamed hi hk
  · rintro k (⟨rfl, sl, hsl, live⟩ | ⟨hi, hk⟩)
    · exact h64.unnamed_live rfl hsl live
    · exact h64.unnamed hi hk

/-! ## What a step leaves unchanged -/

/-- What only a reset and a command change. -/
structure StepFrame (s t : State) : Prop where
  params : t.params = s.params
  slots32 : t.slots32 = s.slots32
  slots64 : t.slots64 = s.slots64
  res : t.res = s.res

theorem State.hostStep_frame {n : Nat} {s t : State} (h : s.hostStep n = .next t) : StepFrame s t := by
  obtain ⟨l, rfl | ⟨r, rfl⟩ | ⟨-, rfl⟩ | ⟨-, v, rfl⟩ | ⟨addr, bytes, wins, -, rfl⟩ | ⟨addr, len, rfl⟩⟩ :=
    State.hostStep_cases h
  · exact ⟨rfl, rfl, rfl, rfl⟩
  · exact ⟨rfl, rfl, rfl, rfl⟩
  · exact ⟨rfl, rfl, rfl, rfl⟩
  · exact ⟨rfl, rfl, rfl, rfl⟩
  · obtain ⟨m, v, u, r, he⟩ := State.hostWriteBytes_frame bytes addr wins { s with hosts := l }
    rw [he]
    exact ⟨rfl, rfl, rfl, rfl⟩
  · exact ⟨rfl, rfl, rfl, rfl⟩

/-- The engine's step of a running command: its LCMD decodes and that command takes a step, or is illegal. -/
theorem State.engineStep_cases {s t : State} (hp : s.phase = .exec) (h : s.engineStep = .next t) :
    (∃ i, decode s.lcmd = .ok i ∧ exec i s = .next t) ∨ t = s.raise .illegal := by
  unfold State.engineStep at h
  rw [hp] at h
  dsimp only at h
  cases hd : decode s.lcmd with
  | ok i => rw [hd] at h; exact .inl ⟨i, rfl, h⟩
  | error e => rw [hd] at h; exact .inr (Host.Outcome.next.inj h).symm

/-- A step resets, steps the decoded command, or leaves the parameters, the slots and RES. -/
theorem step_frame {s t : State} (h : step s = .next t) :
    (s.resetReq = true ∧ t = s.doReset) ∨
    (s.resetReq = false ∧ s.phase = .exec ∧ ∃ i evs, decode s.lcmd = .ok i ∧ exec i { s with sched := evs } = .next t) ∨
    StepFrame s t := by
  rcases step_cases s with ⟨hr, he⟩ | ⟨hr, evs, ⟨hp, he⟩ | ⟨n, he⟩ | ⟨k, he⟩ | he | he⟩ <;> rw [he] at h
  · exact .inl ⟨hr, (Host.Outcome.next.inj h).symm⟩
  · rcases State.engineStep_cases (s := { s with sched := evs }) hp h with ⟨i, hd, hx⟩ | rfl
    · exact .inr (.inl ⟨hr, hp, i, evs, hd, hx⟩)
    · exact .inr (.inr ⟨rfl, rfl, rfl, rfl⟩)
  · obtain ⟨h1, h2, h3, h4⟩ := State.hostStep_frame h
    exact .inr (.inr ⟨h1, h2, h3, h4⟩)
  all_goals
    cases h
    exact .inr (.inr ⟨rfl, rfl, rfl, rfl⟩)

theorem step_params {s t : State} (h : step s = .next t) : t.params = s.params := by
  rcases step_frame h with ⟨-, rfl⟩ | ⟨-, -, i, evs, -, hx⟩ | hf
  · rfl
  · exact (exec_frame hx).params
  · exact hf.params

/-- Settles O37: a reset leaves no slot live, and a command's step keeps the key of each live slot, of each slot when it is no
CREATE. -/
theorem keyNeverChangesWhileLive : Obligations.KeyNeverChangesWhileLive := by
  intro s t h
  rcases step_frame h with ⟨hr, rfl⟩ | ⟨-, hp, i, evs, hd, hx⟩ | hf
  · have dead {w : Nat} {γ : Type} {n k : Nat} {sl sl' : Slot γ w} (h : (List.replicate n sl)[k]? = some sl') : sl' = sl :=
      List.eq_of_mem_replicate (List.mem_of_getElem? h)
    refine ⟨fun k sl sl' _ h' => ⟨fun _ live => ?_, fun h0 => by cases hr.symm.trans h0⟩,
      fun k sl sl' _ h' => ⟨fun _ live => ?_, fun h0 => by cases hr.symm.trans h0⟩⟩
    · cases dead h' ▸ live
    · cases dead h' ▸ live
  · obtain ⟨h32, h64, -⟩ := exec_slots hx
    refine ⟨fun k sl sl' hsl hsl' => ?_, fun k sl sl' hsl hsl' => ?_⟩
    · obtain ⟨hlive, hkey⟩ := h32.keys rfl hsl hsl'
      exact ⟨fun hl _ => hlive hl, fun _ hk => ⟨hp, hkey hk ▸ hd⟩⟩
    · obtain ⟨hlive, hkey⟩ := h64.keys rfl hsl hsl'
      exact ⟨fun hl _ => hlive hl, fun _ hk => ⟨hp, hkey hk ▸ hd⟩⟩
  · rw [hf.slots32, hf.slots64]
    refine ⟨fun k sl sl' hsl hsl' => ?_, fun k sl sl' hsl hsl' => ?_⟩
    all_goals
      cases hsl.symm.trans hsl'
      exact ⟨fun _ _ => rfl, fun _ hk => absurd rfl hk⟩

/-- Settles O38: of the commands only CREATE and NEXT write RES, in the step that ends them with success. -/
theorem resChangesOnlyAtCreateOrNext : Obligations.ResChangesOnlyAtCreateOrNext := by
  intro s t h hres
  rcases step_frame h with ⟨hr, rfl⟩ | ⟨-, hp, i, evs, hd, hx⟩ | hf
  · exact .inl ⟨hr, rfl⟩
  · obtain ⟨hidle, herr, hi⟩ := exec_res hx hres
    exact .inr ⟨hp, hidle, herr, i, hd, hi⟩
  · exact absurd hf.res hres

end Sys2Proof.Machine
end

section
/-! PROOFS. The register window (spec 10_state.md R40 to R49): the fields of STATUS and CAPS, and what the accesses of a host to the
window, on the bus and through a mapping into data memory, return and do. -/

namespace Sys2Proof.Machine

/-! ## Bit fields -/

section Fields

variable {m n : Nat} {hi : BitVec m} {lo : BitVec n} {start len : Nat}

/-- A field above the low part of a register is a field of its high part. -/
theorem extractLsb'_append_above {x : BitVec len} (h : n ≤ start) (hx : hi.extractLsb' (start - n) len = x) :
    (hi ++ lo).extractLsb' start len = x :=
  (BitVec.extractLsb'_append_eq_of_le h).trans hx

end Fields

/-- Settles O12: each field lies above the ones appended after it. -/
theorem statusRegisterFields : Obligations.StatusRegisterFields := by
  intro s
  refine ⟨BitVec.extractLsb'_append_eq_right, ?_, ?_, ?_, ?_, ?_⟩
  · exact extractLsb'_append_above (by decide) BitVec.extractLsb'_append_eq_right
  · exact extractLsb'_append_above (by decide) <| extractLsb'_append_above (by decide) BitVec.extractLsb'_append_eq_right
  · exact extractLsb'_append_above (by decide) <| extractLsb'_append_above (by decide) <|
      extractLsb'_append_above (by decide) BitVec.extractLsb'_append_eq_right
  · exact extractLsb'_append_above (by decide) <| extractLsb'_append_above (by decide) <|
      extractLsb'_append_above (by decide) BitVec.extractLsb'_append_eq_left
  · exact s.hostRegRead_offset 0x48 8 (by decide)

/-- The fields of CAPS. -/
theorem Params.caps_fields (p : Params) :
    p.caps.extractLsb' 0 8 = BitVec.ofNat 8 p.nSlots32 ∧ p.caps.extractLsb' 8 8 = BitVec.ofNat 8 p.nSlots64 ∧
      p.caps.extractLsb' 16 8 = BitVec.ofNat 8 p.addrW ∧ p.caps.extractLsb' 24 8 = 0 := by
  refine ⟨BitVec.extractLsb'_append_eq_right, ?_, ?_, ?_⟩
  · exact extractLsb'_append_above (by decide) BitVec.extractLsb'_append_eq_right
  · exact extractLsb'_append_above (by decide) <| extractLsb'_append_above (by decide) BitVec.extractLsb'_append_eq_right
  · exact extractLsb'_append_above (by decide) <| extractLsb'_append_above (by decide) BitVec.extractLsb'_append_eq_left

/-- Settles O13: the parameters in their ranges fit the fields of CAPS. -/
theorem capsReportsConstantParameters : Obligations.CapsReportsConstantParameters := by
  refine ⟨fun s hw => ?_, fun s t h => step_params h⟩
  obtain ⟨h32, h64, haddr, hzero⟩ := Params.caps_fields s.params
  have fits {n : Nat} (hn : n ≤ 255) : (BitVec.ofNat 8 n).toNat = n := by
    rw [BitVec.toNat_ofNat]
    omega
  rw [h32, h64, haddr]
  exact ⟨fits hw.slots32_le, fits hw.slots64_le, fits (hw.addrW_le.trans (by decide)), hzero,
    s.hostRegRead_offset 0x50 8 (by decide)⟩

/-! ## Registers by offset -/

theorem servedAccess_iff (off width : Nat) : servedAccess off width = true ↔ width = 8 ∧ off % 8 = 0 := by
  simp only [servedAccess, Bool.and_eq_true, decide_eq_true_eq]

/-- Every register stands at a multiple of 8. -/
theorem State.readReg_unaligned (s : State) {off : Nat} (h : off % 8 ≠ 0) : s.readReg off = 0 := by
  unfold State.readReg
  split
  case h_11 => rfl
  all_goals exact absurd rfl h

/-- No register above ARG3 takes a write. -/
theorem State.writeReg_readOnly (s : State) {off : Nat} (h : 0x28 ≤ off) (v : Word64) : s.writeReg off v = s := by
  unfold State.writeReg
  split
  case h_6 => rfl
  all_goals exact absurd h (by decide)

/-- The registers as a table. -/
theorem State.readReg_eq_lookup (s : State) (off : Nat) : s.readReg off =
    (([(0x08, s.arg.r0), (0x10, s.arg.r1), (0x18, s.arg.r2), (0x20, s.arg.r3), (0x28, s.res.r0), (0x30, s.res.r1),
      (0x38, s.res.r2), (0x40, s.res.r3), (0x48, s.status.setWidth 64), (0x50, s.params.caps.setWidth 64)] :
      List (Nat × Word64)).lookup off).getD 0 := by
  unfold State.readReg
  split
  case h_11 =>
    rw [List.lookup_eq_none_iff.2, Option.getD_none]
    simp_all
  all_goals rfl

theorem State.hostRegRead_aligned (s : State) {off : Nat} (h : off < 256) (h8 : off % 8 = 0) :
    s.hostRegRead (s.params.regBase + off) 8 = s.readReg off := by
  rw [s.hostRegRead_offset off 8 h, if_pos ((servedAccess_iff off 8).2 ⟨rfl, h8⟩)]

theorem State.hostRegWrite_aligned (s : State) {off : Nat} (h : off < 256) (h8 : off % 8 = 0) (v : Word64) :
    s.hostRegWrite (s.params.regBase + off) 8 v = s.writeReg off v := by
  rw [s.hostRegWrite_offset off 8 v h, if_pos ((servedAccess_iff off 8).2 ⟨rfl, h8⟩)]

/-! ## The mapped window -/

/-- Eight bytes written are the value of which they are the bytes, the least significant first (20_memory.md R72). -/
theorem ofNat_leNat_eight (b0 b1 b2 b3 b4 b5 b6 b7 : Byte) :
    BitVec.ofNat 64 (leNat [b0, b1, b2, b3, b4, b5, b6, b7]) = b7 ++ b6 ++ b5 ++ b4 ++ b3 ++ b2 ++ b1 ++ b0 := by
  have push {n : Nat} {x : BitVec n} {k : Nat} (b : Byte) (hx : x.toNat = k) : (x ++ b).toNat = b.toNat + 256 * k := by
    rw [BitVec.toNat_append, ← Nat.shiftLeft_add_eq_or_of_lt b.isLt, Nat.shiftLeft_eq]
    omega
  refine BitVec.eq_of_toNat_eq ?_
  have value : (b7 ++ b6 ++ b5 ++ b4 ++ b3 ++ b2 ++ b1 ++ b0).toNat = leNat [b0, b1, b2, b3, b4, b5, b6, b7] :=
    push b0 <| push b1 <| push b2 <| push b3 <| push b4 <| push b5 <| push b6 <| by simp [leNat]
  rw [BitVec.toNat_ofNat, ← value, Nat.mod_eq_of_lt (b7 ++ b6 ++ b5 ++ b4 ++ b3 ++ b2 ++ b1 ++ b0).isLt]

theorem inWindow_iff {p : Params} {base : Nat} (h : p.windowAt = some base) (a : Nat) :
    inWindow p a = true ↔ base ≤ a ∧ a < base + 256 := by
  simp only [inWindow, h, Bool.and_eq_true, decide_eq_true_eq]

/-- The place of an offset of the mapped window in data memory. -/
theorem dataWindowOffset_mapped {p : Params} {base off : Nat} (h : p.windowAt = some base) (hoff : off < 256) (len : Nat) :
    dataWindowOffset p (base + off) len = if servedAccess off len then some off else none := by
  simp [dataWindowOffset, h, hoff]

/-- Bytes inside the mapped window are no memory. -/
theorem State.hostWriteBytes_mapped {base : Nat} (bytes : List Byte) (s : State) (h : s.params.windowAt = some base) (a : Nat)
    (ha : base ≤ a) (hb : a + bytes.length ≤ base + 256) (flags : List Bool) : s.hostWriteBytes a bytes flags = s := by
  induction bytes generalizing a flags with
  | nil => rfl
  | cons b bytes ih =>
    rw [List.length_cons] at hb
    have inside : inWindow s.params a = true := (inWindow_iff h a).2 ⟨ha, by omega⟩
    rw [State.hostWriteBytes, State.hostWriteByte, if_pos inside]
    exact ih (a + 1) (by omega) (by omega) flags.tail

/-- An access the mapped window serves is the access of the register on the bus. -/
theorem State.hostMem_served {base off : Nat} (s : State) (h : s.params.windowAt = some base) (hoff : off < 256)
    (h8 : off % 8 = 0) (early : List (List Bool)) (flags : List Bool) :
    s.hostMemRead (base + off) 8 early flags = (leBytes 8 (s.hostRegRead (s.params.regBase + off) 8)).map some ∧
      ∀ bytes : List Byte, bytes.length = 8 → s.hostMemWrite (base + off) bytes flags =
        s.hostRegWrite (s.params.regBase + off) 8 (BitVec.ofNat 64 (leNat bytes)) := by
  have served := (servedAccess_iff off 8).2 ⟨rfl, h8⟩
  have place := dataWindowOffset_mapped h hoff 8
  rw [if_pos served] at place
  refine ⟨?_, fun bytes hb => ?_⟩
  · rw [s.hostRegRead_aligned hoff h8, State.hostMemRead, place]
  · rw [s.hostRegWrite_aligned hoff h8, State.hostMemWrite, hb, place]

/-- Any other access inside the mapped window reads 0 and is ignored (log 19). -/
theorem State.hostMem_unserved {base off len : Nat} (s : State) (h : s.params.windowAt = some base) (hoff : off < 256)
    (hs : ¬ servedAccess off len = true) (hlen : off + len ≤ 256) (early : List (List Bool)) (flags : List Bool) :
    s.hostMemRead (base + off) len early flags = List.replicate len (some 0) ∧
      ∀ bytes : List Byte, bytes.length = len → s.hostMemWrite (base + off) bytes flags = s := by
  have place := dataWindowOffset_mapped h hoff len
  rw [if_neg hs] at place
  refine ⟨?_, fun bytes hb => ?_⟩
  · rw [State.hostMemRead, place]
    refine List.eq_replicate_iff.2 ⟨by simp, fun b hb => ?_⟩
    obtain ⟨k, hk, rfl⟩ := List.mem_map.1 hb
    exact if_pos ((inWindow_iff h _).2 ⟨by omega, by have := List.mem_range.1 hk; omega⟩)
  · rw [State.hostMemWrite, hb, place]
    exact State.hostWriteBytes_mapped bytes s h _ (by omega) (by omega) flags

/-- Settles O14: an access is that of the register at its offset where the window serves it, on the bus and through the mapping. -/
theorem hostWindowAccesses : Obligations.HostWindowAccesses := by
  refine ⟨fun s off width hoff => ?_, fun s off width v hoff => ⟨fun hign => ?_, ?_, ?_, ?_, ?_⟩, ?_, ?_⟩
  · rw [s.hostRegRead_offset off width hoff, ← s.readReg_eq_lookup off]
    by_cases hw : width = 8
    · by_cases h8 : off % 8 = 0
      · rw [if_pos ((servedAccess_iff off width).2 ⟨hw, h8⟩), if_pos hw]
      · rw [s.readReg_unaligned h8, ite_self, ite_self]
    · rw [if_neg (fun hs => hw ((servedAccess_iff off width).1 hs).1), if_neg hw]
  · rw [s.hostRegWrite_offset off width v hoff]
    split_ifs with hs
    · obtain ⟨hw, h8⟩ := (servedAccess_iff off width).1 hs
      exact s.writeReg_readOnly (by omega) v
    · rfl
  · exact s.hostRegWrite_aligned (off := 0x08) (by decide) rfl v
  · exact s.hostRegWrite_aligned (off := 0x10) (by decide) rfl v
  · exact s.hostRegWrite_aligned (off := 0x18) (by decide) rfl v
  · exact s.hostRegWrite_aligned (off := 0x20) (by decide) rfl v
  · intro s n a addr width rest evs hn
    exact hn.step_eq
  · intro s base off early flags h hoff
    refine ⟨fun h8 => ?_, fun len hlen hfit => ?_⟩
    · obtain ⟨read, write⟩ := s.hostMem_served h hoff h8 early flags
      exact ⟨read, fun b0 b1 b2 b3 b4 b5 b6 b7 => by rw [write _ rfl, ofNat_leNat_eight]⟩
    · refine s.hostMem_unserved h hoff (fun hs => ?_) hfit early flags
      have := (servedAccess_iff off len).1 hs
      omega

end Sys2Proof.Machine
end

section
/-! PROOFS. When OVR and BUSY change (spec 10_state.md R46, R47): a write to CMD, the end of a command, a reset, and nothing else;
and that a command reads neither ARG nor data memory (R37, 20_memory.md R87). -/

namespace Sys2Proof.Machine

/-! ## OVR and BUSY -/

/-- Only a host access that writes CMD touches OVR and PHASE. -/
theorem State.hostStep_status {n : Nat} {s t : State} (h : s.hostStep n = .next t) :
    (∃ a op rest v, s.hosts[n]? = some a ∧ a.queue = op :: rest ∧ op.WritesCmd s.params v) ∨
      (t.ovr = s.ovr ∧ t.phase = s.phase) := by
  unfold State.hostStep at h
  split at h
  · cases h
    exact .inr ⟨rfl, rfl⟩
  rename_i a ha
  split at h
  · cases h
    exact .inr ⟨rfl, rfl⟩
  rename_i op rest hq
  have cmd (v : Word64) (hw : op.WritesCmd s.params v) :
      ∃ a op rest v, s.hosts[n]? = some a ∧ a.queue = op :: rest ∧ op.WritesCmd s.params v := ⟨a, op, rest, v, ha, hq, hw⟩
  unfold State.hostIssue at h
  cases op with
  | regWrite addr width v =>
    cases h
    rcases State.hostRegWrite_cases addr width v (s.setHost n { a with queue := rest }) with
      he | ⟨r, he⟩ | ⟨rfl, rfl, -⟩ | ⟨rfl, rfl, -⟩
    · exact .inr (by rw [he]; exact ⟨rfl, rfl⟩)
    · exact .inr (by rw [he]; exact ⟨rfl, rfl⟩)
    · exact .inl (cmd v (.inl rfl))
    · exact .inl (cmd v (.inl rfl))
  | memWrite addr bytes wins =>
    dsimp only at h
    split at h
    · subst h
      exact absurd ‹_› State.hostMemStop_ne_next
    cases h
    unfold State.hostMemWrite
    split
    · rename_i off hoff
      obtain ⟨base, hbase, hle, -, hlen, -, rfl⟩ := dataWindowOffset_eq_some.1 hoff
      have write (h0 : addr - base = 0) : (HostOp.memWrite addr bytes wins).WritesCmd s.params (BitVec.ofNat 64 (leNat bytes)) :=
        .inr ⟨addr, bytes, wins, rfl, by rw [show addr = base by omega]; exact hbase, hlen, rfl⟩
      rcases State.writeReg_cases (addr - base) (BitVec.ofNat 64 (leNat bytes)) (s.setHost n { a with queue := rest }) with
        he | ⟨r, he⟩ | ⟨h0, -⟩ | ⟨h0, -⟩
      · exact .inr (by rw [he]; exact ⟨rfl, rfl⟩)
      · exact .inr (by rw [he]; exact ⟨rfl, rfl⟩)
      · exact .inl (cmd _ (write h0))
      · exact .inl (cmd _ (write h0))
    · obtain ⟨m, v, u, r, he⟩ := State.hostWriteBytes_frame bytes addr wins (s.setHost n { a with queue := rest })
      exact .inr (by rw [he]; exact ⟨rfl, rfl⟩)
  | regRead | maintain =>
    cases h
    exact .inr ⟨rfl, rfl⟩
  | wait =>
    dsimp only at h
    split at h <;> (cases h; exact .inr ⟨rfl, rfl⟩)
  | check =>
    dsimp only at h
    split at h
    · cases h
      exact .inr ⟨rfl, rfl⟩
    · split at h <;> (cases h; exact .inr ⟨rfl, rfl⟩)
  | memRead =>
    dsimp only at h
    split at h
    · subst h
      exact absurd ‹_› State.hostMemStop_ne_next
    · cases h
      exact .inr ⟨rfl, rfl⟩

theorem State.phase_cases (s : State) : s.phase = .idle ∨ s.phase = .exec := by
  cases s.phase with
  | idle => exact .inl rfl
  | exec => exact .inr rfl

theorem step_of_sched_nil {s : State} (hr : s.resetReq = false) (hs : s.sched = []) : step s = s.autoStep := by
  simp [step, State.machineStep, hr, hs]

theorem step_of_sched_cons {s : State} {e : Event} {evs : List Event} (hr : s.resetReq = false) (hs : s.sched = e :: evs) :
    step s = State.event e { s with sched := evs } := by
  simp [step, State.machineStep, hr, hs]

theorem State.engineStep_idle {s : State} (hp : s.phase = .idle) : s.engineStep = .next s := by
  simp [State.engineStep, hp]

/-- Whose turn a step is: a reset's, the engine's, a host's, or that of an event that leaves OVR and PHASE. -/
theorem step_turn {s t : State} (h : step s = .next t) :
    (s.resetReq = true ∧ t = s.doReset) ∨
    (∃ evs, s.engineNext ∧ State.engineStep { s with sched := evs } = .next t) ∨
    (∃ n evs, s.hostTurn n ∧ State.hostStep n { s with sched := evs } = .next t) ∨
    (t.ovr = s.ovr ∧ t.phase = s.phase) := by
  rcases step_cases s with ⟨hr, he⟩ | ⟨hr, -⟩
  · exact .inl ⟨hr, (Host.Outcome.next.inj (he.symm.trans h)).symm⟩
  refine .inr ?_
  cases hs : s.sched with
  | nil =>
    rw [step_of_sched_nil hr hs] at h
    unfold State.autoStep at h
    rcases s.phase_cases with hp | hp <;> rw [hp] at h
    · dsimp only at h
      split at h
      · exact .inr (.inl ⟨_, s.sched, ⟨hr, .inr ⟨hs, hp, ‹_›⟩⟩, h⟩)
      · cases h
        exact .inr (.inr ⟨rfl, rfl⟩)
    · exact .inl ⟨s.sched, ⟨hr, hp, .inl hs⟩, h⟩
  | cons e evs =>
    rw [step_of_sched_cons hr hs] at h
    cases e with
    | host n => exact .inr (.inl ⟨n, evs, ⟨hr, .inl ⟨evs, hs⟩⟩, h⟩)
    | engine =>
      rcases s.phase_cases with hp | hp
      · cases (State.engineStep_idle (s := { s with sched := evs }) hp).symm.trans h
        exact .inr (.inr ⟨rfl, rfl⟩)
      · exact .inl ⟨evs, ⟨hr, hp, .inr ⟨evs, hs⟩⟩, h⟩
    | reveal | assertReset =>
      cases h
      exact .inr (.inr ⟨rfl, rfl⟩)

/-- What a step does to OVR and PHASE. -/
theorem step_status {s t : State} (h : step s = .next t) :
    (s.resetReq = true ∧ t.phase = .idle ∧ t.ovr = false ∧ t.err = .ok) ∨ (∃ v, s.CmdWriteNext v) ∨
      (t.ovr = s.ovr ∧ (t.phase = s.phase ∨
        (s.engineNext ∧ t.phase = .idle ∧ t.fill32 = none ∧ t.fill64 = none ∧ t.hosts = s.hosts))) := by
  rcases step_turn h with ⟨hr, rfl⟩ | ⟨evs, he, ht⟩ | ⟨n, evs, hn, ht⟩ | ⟨ho, hp⟩
  · exact .inl ⟨hr, rfl, rfl, rfl⟩
  · rcases State.engineStep_cases (s := { s with sched := evs }) he.2.1 ht with ⟨i, -, hx⟩ | rfl
    · refine .inr (.inr ⟨(exec_frame hx).ovr, ?_⟩)
      exact (exec_phase hx).imp_right fun ⟨hp, h32, h64⟩ => ⟨he, hp, h32, h64, (exec_frame hx).hosts⟩
    · exact .inr (.inr ⟨rfl, .inr ⟨he, rfl, rfl, rfl, rfl⟩⟩)
  · rcases State.hostStep_status ht with ⟨a, op, rest, v, ha, hq, hw⟩ | ⟨ho, hp⟩
    · exact .inr (.inl ⟨v, n, a, op, rest, hn, ha, hq, hw⟩)
    · exact .inr (.inr ⟨ho, .inl hp⟩)
  · exact .inr (.inr ⟨ho, .inl hp⟩)

theorem State.writeCmd_exec {s : State} (hp : s.phase = .exec) (v : Word64) : s.writeCmd v = { s with ovr := true } :=
  if_pos (decide_eq_true hp)

theorem State.writeCmd_idle {s : State} (hp : s.phase = .idle) (v : Word64) : s.writeCmd v = s.accept (v.setWidth 32) := by
  have notBusy : ¬ s.busy = true := by simp [State.busy, hp]
  rw [BitVec.setWidth_eq_extractLsb' (by decide)]
  exact if_neg notBusy

/-- What a write to CMD does: OVR while a command runs, an acceptance while none does. -/
theorem State.CmdWriteNext.effect {s t : State} {v : Word64} (hc : s.CmdWriteNext v) (h : step s = .next t) :
    t.hosts ≠ s.hosts ∧ t.phase = .exec ∧
      ((s.phase = .exec ∧ t.ovr = true) ∨
        (s.phase = .idle ∧ t.lcmd = v.setWidth 32 ∧ t.larg = s.arg ∧ t.err = .ok ∧ t.ovr = false)) := by
  obtain ⟨evs, l, hl, rfl⟩ := hc.step_eq h
  rcases s.phase_cases with hp | hp
  · rw [State.writeCmd_idle (s := { s with sched := evs, hosts := l }) hp]
    exact ⟨hl, rfl, .inr ⟨hp, rfl, rfl, rfl, rfl⟩⟩
  · rw [State.writeCmd_exec (s := { s with sched := evs, hosts := l }) hp]
    exact ⟨hl, hp, .inl ⟨hp, rfl⟩⟩

/-- Settles O10: a step is a reset, a write to CMD, or leaves OVR and can only end the running command. -/
theorem ovrAndBusyChangeOnlyAsSpecified : Obligations.OvrAndBusyChangeOnlyAsSpecified := by
  intro s t h
  have effect (v : Word64) (hc : s.CmdWriteNext v) := hc.effect h
  refine ⟨fun h0 => ⟨fun h1 => ?_, fun ⟨hp, v, hc⟩ => ?_⟩, fun h1 h0 => ?_, fun hp hp' => ?_, fun v hc => ?_,
    fun hp hp' => ?_, fun hr => ?_⟩
  · rcases step_status h with ⟨-, -, ho, -⟩ | ⟨v, hc⟩ | ⟨ho, -⟩
    · cases ho.symm.trans h1
    · obtain ⟨-, -, ⟨hp, -⟩ | ⟨-, -, -, -, ho⟩⟩ := effect v hc
      · exact ⟨hp, v, hc⟩
      · cases ho.symm.trans h1
    · cases (ho.trans h0).symm.trans h1
  · obtain ⟨-, -, ⟨-, ho⟩ | ⟨hi, -⟩⟩ := effect v hc
    · exact ho
    · cases hp.symm.trans hi
  · rcases step_status h with ⟨hr, -⟩ | ⟨v, hc⟩ | ⟨ho, -⟩
    · exact .inl hr
    · obtain ⟨-, -, ⟨-, ho⟩ | ⟨hi, -⟩⟩ := effect v hc
      · cases ho.symm.trans h0
      · exact .inr ⟨hi, v, hc⟩
    · cases (ho.trans h1).symm.trans h0
  · rcases step_status h with ⟨-, hi, -⟩ | ⟨v, hc⟩ | ⟨-, hsame | ⟨-, hi, -⟩⟩
    · cases hi.symm.trans hp'
    · obtain ⟨-, -, ⟨he, -⟩ | ⟨-, accepted⟩⟩ := effect v hc
      · cases hp.symm.trans he
      · exact ⟨v, hc, accepted⟩
    · cases (hsame.trans hp).symm.trans hp'
    · cases hi.symm.trans hp'
  · obtain ⟨hhosts, hexec, -⟩ := effect v hc
    exact ⟨hexec, hhosts⟩
  · rcases step_status h with ⟨hr, -⟩ | ⟨v, hc⟩ | ⟨-, hsame | ⟨hn, -, hend⟩⟩
    · exact .inl hr
    · obtain ⟨-, he, -⟩ := effect v hc
      cases he.symm.trans hp'
    · cases (hsame.trans hp).symm.trans hp'
    · exact .inr ⟨hn, hend⟩
  · rcases step_cases s with ⟨-, he⟩ | ⟨h0, -⟩
    · cases he.symm.trans h
      exact ⟨rfl, rfl, rfl⟩
    · cases hr.symm.trans h0

/-! ## What a command does not read -/

/-- What hosts see when a command has ended is, over another data memory, the same, or in both cases all that memory holds. -/
theorem State.settledView_mem (s : State) (m : Memory) :
    State.settledView { s with mem := m } = s.settledView ∨
      (s.settledView = (s.mem, []) ∧ State.settledView { s with mem := m } = (m, [])) := by
  unfold State.settledView
  cases s.params.coherent with
  | true => exact .inr ⟨rfl, rfl⟩
  | false => exact .inl rfl

/-- From `s` the operation stores `bytes` at `addr`, and so it does over any other data memory, with the same effect on the rest;
what hosts see then is the same or all that memory holds. -/
def StoresAt (op : State → State) (s : State) (addr : Nat) (bytes : List Byte) : Prop :=
  (op s).mem = s.mem.setBytes addr bytes ∧
    ∀ m : Memory, op { s with mem := m } =
        { op s with mem := m.setBytes addr bytes, seen := (op { s with mem := m }).seen } ∧
      ((op { s with mem := m }).seen = (op s).seen ∨
        ((op s).seen = (op s).mem ∧ (op { s with mem := m }).seen = (op { s with mem := m }).mem))

theorem storesAt_complete (code : ResultCode) (s : State) : StoresAt (State.complete code) s 0 [] := by
  refine ⟨rfl, fun m => ?_⟩
  rcases s.settledView_mem m with h | ⟨h, hm⟩
  · simp [State.complete, h, Memory.setBytes]
  · simp [State.complete, h, hm, Memory.setBytes]

theorem storesAt_succeedWith (r : Regs4) (s : State) : StoresAt (State.succeedWith r) s 0 [] := by
  refine ⟨rfl, fun m => ?_⟩
  rcases s.settledView_mem m with h | ⟨h, hm⟩
  · simp [State.succeedWith, State.complete, h, Memory.setBytes]
  · simp [State.succeedWith, State.complete, h, hm, Memory.setBytes]

/-- What a command does is some operation that stores bytes, done over any ARG and any data memory. -/
theorem exec_reads {i : Instr} {s t : State} (h : exec i s = .next t) :
    ∃ op addr bytes, t = op s ∧ (∀ a, exec i { s with arg := a } = .next { op s with arg := a }) ∧
      (∀ m, exec i { s with mem := m } = .next (op { s with mem := m })) ∧ StoresAt op s addr bytes := by
  rcases exec_does h with ⟨-, op, hd, ht, he⟩ | ⟨-, op, hd, ht, he⟩
  all_goals
    have harg (a : Regs4) : exec i { s with arg := a } = .next { op s with arg := a } :=
      (he { s with arg := a } ⟨rfl, rfl, rfl, rfl⟩).trans (by cases hd <;> rfl)
    have stores : ∃ addr bytes, StoresAt op s addr bytes := by
      cases hd with
      | ends code => exact ⟨0, [], storesAt_complete code s⟩
      | creates h key => exact ⟨0, [], storesAt_succeedWith _ (Gen.setSlot _ h _ s)⟩
      | destroys sl => exact ⟨0, [], storesAt_complete .ok (Gen.setSlot _ i.handle _ s)⟩
      | draws sl => exact ⟨0, [], storesAt_succeedWith _ (Gen.advanceSlot _ i.handle sl s)⟩
      | rounds => exact ⟨0, [], rfl, fun m => ⟨rfl, .inl rfl⟩⟩
      | writes => exact ⟨_, _, rfl, fun m => ⟨rfl, .inl rfl⟩⟩
    obtain ⟨addr, bytes, hs⟩ := stores
    exact ⟨op, addr, bytes, ht, harg, fun m => he { s with mem := m } ⟨rfl, rfl, rfl, rfl⟩, hs⟩

/-- Settles O39: a command's step is an operation chosen without ARG and data memory. -/
theorem commandsReadNeitherArgNorMemory : Obligations.CommandsReadNeitherArgNorMemory := by
  intro i s t h
  obtain ⟨op, addr, bytes, rfl, harg, hmem, hstore, hother⟩ := exec_reads h
  refine ⟨harg, addr, bytes, hstore, fun m => ⟨_, hmem m, hother m⟩⟩

end Sys2Proof.Machine
end

section
/-! PROOFS. What memory holds and what hosts see of it, apart from the rest of the state: the part of the invariant that speaks of
it, kept by every operation on it (spec 20_memory.md R70, R81, R82, R84, R88). -/

namespace Sys2Proof.Machine

/-! ## The newest byte and element writes -/

theorem newest_concat (l : List Unseen) (u : Unseen) (a : Nat) (v : Option Byte) :
    newest (l ++ [u]) a v = (u.byteAt a).or (newest l a v) := newest_append l [u] a v

theorem Unseen.byteAt_element (a x : Nat) (bytes : List Byte) (e : Bool) :
    (Unseen.mk a (bytes.map some) e).byteAt x = if a ≤ x then bytes[x - a]? else none := by
  unfold Unseen.byteAt
  split
  · rw [List.getD_eq_getElem?_getD, List.getElem?_map]
    cases bytes[x - a]? <;> rfl
  · rfl

/-- A byte of memory after an element write: the element's, but for a host that has won it. -/
theorem Memory.get_element (m : Memory) (races : List Race) (a x : Nat) (bytes : List Byte) :
    (m.setBytes a (keepHostWins races a bytes)).get x =
      ((if a ≤ x then bytes[x - a]? else none).map fun b =>
        match raceAt races x with
        | some r => if r.wins then r.host else b
        | none => b).or (m.get x) := by
  by_cases hx : a ≤ x ∧ x < a + bytes.length
  · obtain ⟨k, rfl⟩ := Nat.exists_eq_add_of_le hx.1
    have hk : k < bytes.length := by omega
    rw [Memory.get_setBytes_inside _ _ _ _ (by simpa using hk), keepHostWins_getElem, if_pos hx.1, Nat.add_sub_cancel_left,
      List.getElem?_eq_getElem hk]
    rfl
  · rw [Memory.get_setBytes_outside _ _ _ _ (by rw [keepHostWins_length]; omega)]
    have none_there : (if a ≤ x then bytes[x - a]? else none) = none := by
      split
      · exact List.getElem?_eq_none (by omega)
      · rfl
    rw [none_there]
    rfl

/-- The part of the invariant that speaks of memory `m` of `n` bytes, the hosts' view `v` of it, the unseen writes and the races. -/
structure ViewOk (n : Nat) (m v : Memory) (unseen : List Unseen) (races : List Race) : Prop where
  mem_wf : m.wf
  mem_below : m.Below n
  seen_wf : v.wf
  seen_below : v.Below n
  unseen_below : ∀ u ∈ unseen, u.addr + u.bytes.length ≤ n
  races_below : ∀ r ∈ races, r.addr < n
  mem_newest : ∀ a, raceAt races a = none → m.get a = newest unseen a (v.get a)
  mem_race : ∀ a r, raceAt races a = some r → m.get a = some r.final
  race_engine : ∀ a r e, raceAt races a = some r → r.engine = some e → newest unseen a (v.get a) = some e

variable {n : Nat} {m v : Memory} {unseen : List Unseen} {races : List Race}

/-- A host byte that does not race. -/
theorem ViewOk.store (h : ViewOk n m v unseen races) {a : Nat} (ha : a < n) (b : Byte) :
    ViewOk n (m.set a b) (v.set a b) (unseen.map (Unseen.hide a)) (races.filter fun r => r.addr != a) where
  mem_wf := Memory.wf_set h.mem_wf a b
  mem_below := Memory.below_set h.mem_below ha b
  seen_wf := Memory.wf_set h.seen_wf a b
  seen_below := Memory.below_set h.seen_below ha b
  unseen_below := by
    intro u hu
    obtain ⟨w, hw, rfl⟩ := List.mem_map.1 hu
    simpa using h.unseen_below w hw
  races_below := fun r hr => h.races_below r (List.mem_filter.1 hr).1
  mem_newest := by
    intro x hx
    rw [newest_map_hide, Memory.get_set, Memory.get_set]
    rw [raceAt_filter] at hx
    split_ifs at hx ⊢ with hxa
    · rfl
    · exact h.mem_newest x hx
  mem_race := by
    intro x r hr
    rw [raceAt_filter, Option.ite_none_left_eq_some] at hr
    rw [Memory.get_set, if_neg hr.1]
    exact h.mem_race x r hr.2
  race_engine := by
    intro x r e hr he
    rw [raceAt_filter, Option.ite_none_left_eq_some] at hr
    rw [newest_map_hide, if_neg hr.1, Memory.get_set, if_neg hr.1]
    exact h.race_engine x r e hr.2 he

/-- A host byte that races, the engine's value of which is its newest write there, if it has one. -/
theorem ViewOk.race (h : ViewOk n m v unseen races) (r : Race) (ha : r.addr < n)
    (he : ∀ e, r.engine = some e → newest unseen r.addr (v.get r.addr) = some e) :
    ViewOk n (m.set r.addr r.final) v unseen (r :: races.filter fun q => q.addr != r.addr) where
  mem_wf := Memory.wf_set h.mem_wf _ _
  mem_below := Memory.below_set h.mem_below ha _
  seen_wf := h.seen_wf
  seen_below := h.seen_below
  unseen_below := h.unseen_below
  races_below := by
    intro q hq
    rcases List.mem_cons.1 hq with rfl | hq
    · exact ha
    · exact h.races_below q (List.mem_filter.1 hq).1
  mem_newest := by
    intro x hx
    rw [raceAt_cons_filter] at hx
    split_ifs at hx with hxa
    rw [Memory.get_set, if_neg hxa]
    exact h.mem_newest x hx
  mem_race := by
    intro x q hq
    rw [raceAt_cons_filter] at hq
    rw [Memory.get_set]
    split_ifs at hq ⊢ with hxa
    · rw [Option.some.inj hq]
    · exact h.mem_race x q hq
  race_engine := by
    intro x q e hq hqe
    rw [raceAt_cons_filter] at hq
    split_ifs at hq with hxa
    · cases hq
      exact hxa ▸ he e hqe
    · exact h.race_engine x q e hq hqe

/-- Some of the unseen writes become visible. -/
theorem ViewOk.reveal (h : ViewOk n m v unseen races) {l : List (Unseen × Bool)} (hl : l.map Prod.fst = unseen) :
    ViewOk n m ((shown l).foldl Unseen.showIn v) (stay l) races := by
  have all {u : Unseen} {b : Bool} (hu : (u, b) ∈ l) : u ∈ unseen := hl ▸ List.mem_map_of_mem hu
  have newest_same (x : Nat) : newest (stay l) x (((shown l).foldl Unseen.showIn v).get x) = newest unseen x (v.get x) := by
    rw [shown_view, newest_reveal, hl]
  refine { h with seen_wf := ?_, seen_below := ?_, unseen_below := ?_, mem_newest := ?_, race_engine := ?_ }
  · exact List.foldlRecOn _ _ h.seen_wf fun v hv u _ => Memory.wf_setSome hv _ _
  · exact List.foldlRecOn _ _ h.seen_below fun v hv u hu => Memory.below_setSome hv (h.unseen_below u (all (mem_shown.1 hu)))
  · intro u hu
    obtain ⟨w, hw, haddr, hlen, -⟩ := mem_stay hu
    rw [haddr, hlen]
    exact h.unseen_below w (all hw)
  · intro x hx
    rw [newest_same, h.mem_newest x hx]
  · intro x r e hr he
    rw [newest_same, h.race_engine x r e hr he]

/-- The race for an address after an element write is the race before it, met by the write. -/
theorem raceAt_meet_some {a x : Nat} {bytes : List Byte} {r : Race} (h : raceAt (races.map (Race.meet a bytes)) x = some r) :
    ∃ q, raceAt races x = some q ∧ r.host = q.host ∧ r.wins = q.wins ∧
      r.engine = (if a ≤ x then bytes[x - a]? else none).or q.engine := by
  rw [raceAt_map_meet] at h
  obtain ⟨q, hq, rfl⟩ := Option.map_eq_some_iff.1 h
  have haddr := (raceAt_some hq).1
  refine ⟨q, hq, ?_⟩
  unfold Race.meet
  rw [haddr]
  by_cases hx : a ≤ x
  · by_cases hlt : x < a + bytes.length
    · rw [if_pos ⟨hx, hlt⟩, if_pos hx, List.getElem?_eq_getElem (by omega)]
      exact ⟨rfl, rfl, rfl⟩
    · rw [if_neg (fun hc => hlt hc.2), if_pos hx, List.getElem?_eq_none (by omega)]
      exact ⟨rfl, rfl, rfl⟩
  · rw [if_neg (fun hc => hx hc.1), if_neg hx]
    exact ⟨rfl, rfl, rfl⟩

/-- An element write of the running FILL. -/
theorem ViewOk.element (h : ViewOk n m v unseen races) {a : Nat} {bytes : List Byte} (ha : a + bytes.length ≤ n) :
    ViewOk n (m.setBytes a (keepHostWins races a bytes)) v (unseen ++ [⟨a, bytes.map some, false⟩])
      (races.map (Race.meet a bytes)) where
  mem_wf := Memory.wf_setBytes h.mem_wf _ _
  mem_below := Memory.below_setBytes h.mem_below (by rw [keepHostWins_length]; exact ha)
  seen_wf := h.seen_wf
  seen_below := h.seen_below
  unseen_below := by
    intro u hu
    rcases List.mem_append.1 hu with hu | hu
    · exact h.unseen_below u hu
    · rw [List.mem_singleton.1 hu, List.length_map]
      exact ha
  races_below := by
    intro r hr
    obtain ⟨q, hq, rfl⟩ := List.mem_map.1 hr
    have haddr : (Race.meet a bytes q).addr = q.addr := by
      unfold Race.meet
      split <;> rfl
    rw [haddr]
    exact h.races_below q hq
  mem_newest := by
    intro x hx
    rw [raceAt_map_meet, Option.map_eq_none_iff] at hx
    rw [Memory.get_element, newest_concat, Unseen.byteAt_element, hx, h.mem_newest x hx]
    dsimp only
    rw [Option.map_id']
  mem_race := by
    intro x r hr
    obtain ⟨q, hq, hhost, hwins, hengine⟩ := raceAt_meet_some hr
    rw [Memory.get_element, hq, h.mem_race x q hq, Race.final, Race.final, hhost, hwins, hengine]
    cases (if a ≤ x then bytes[x - a]? else none) <;> rfl
  race_engine := by
    intro x r e hr he
    obtain ⟨q, hq, -, -, hengine⟩ := raceAt_meet_some hr
    rw [newest_concat, Unseen.byteAt_element]
    rw [hengine] at he
    cases hb : (if a ≤ x then bytes[x - a]? else none) with
    | some b => rw [hb] at he; exact he
    | none => rw [hb] at he; exact h.race_engine x q e hq he

/-- The races end, on a platform without coherence. -/
theorem ViewOk.endRaces (h : ViewOk n m v unseen races) :
    ViewOk n m (races.foldr endRace (v, unseen)).1 ((races.foldr endRace (v, unseen)).2.map Unseen.atEnd) [] := by
  have bounds : ∀ l : List Race, (∀ r ∈ l, r.addr < n) → (l.foldr endRace (v, unseen)).1.wf ∧
      (l.foldr endRace (v, unseen)).1.Below n ∧ ∀ u ∈ (l.foldr endRace (v, unseen)).2, u.addr + u.bytes.length ≤ n := by
    intro l hl
    induction l with
    | nil => exact ⟨h.seen_wf, h.seen_below, h.unseen_below⟩
    | cons r l ih =>
      obtain ⟨hwf, hbelow, hu⟩ := ih fun q hq => hl q (List.mem_cons_of_mem _ hq)
      refine ⟨endRace_wf r _ hwf, endRace_below n r _ (hl r List.mem_cons_self) hbelow, fun u hm => ?_⟩
      obtain ⟨w, hw, haddr, hlen⟩ := mem_endRace hm
      rw [haddr, hlen]
      exact hu w hw
  obtain ⟨hwf, hbelow, hu⟩ := bounds races h.races_below
  exact
    { mem_wf := h.mem_wf
      mem_below := h.mem_below
      seen_wf := hwf
      seen_below := hbelow
      unseen_below := by
        intro u hm
        obtain ⟨w, hw, rfl⟩ := List.mem_map.1 hm
        exact hu w hw
      races_below := nofun
      mem_newest := by
        intro x _
        rw [newest_map_atEnd, endRaces_newest races (v, unseen) x fun r e hr he => h.race_engine x r e hr he]
        cases hr : raceAt races x with
        | some r => exact h.mem_race x r hr
        | none => exact h.mem_newest x hr
      mem_race := nofun
      race_engine := nofun }

/-- Hosts see all that memory holds. -/
theorem ViewOk.coherent (h : ViewOk n m v unseen races) : ViewOk n m m [] [] where
  mem_wf := h.mem_wf
  mem_below := h.mem_below
  seen_wf := h.mem_wf
  seen_below := h.mem_below
  unseen_below := nofun
  races_below := nofun
  mem_newest := fun _ _ => rfl
  mem_race := nofun
  race_engine := nofun

/-- The view when a command has ended. -/
theorem ViewOk.settled {s : State} (h : ViewOk n s.mem s.seen s.unseen s.races) :
    ViewOk n s.mem s.settledView.1 s.settledView.2 [] := by
  unfold State.settledView
  split
  · exact h.coherent
  · exact h.endRaces

end Sys2Proof.Machine
end

section
/-! PROOFS. Every step keeps the invariant of the machine (spec 10_state.md R34, R38, R46, R48; 20_memory.md R70, R81, R82, R84): one
rule an operation on the state, then the commands of both variants at once, then the hosts and the step. -/

namespace Sys2Proof.Machine

variable {s t : State}

/-! ## Operations -/

theorem State.Inv.view (h : s.Inv) : ViewOk s.params.memBytes s.mem s.seen s.unseen s.races := { h with }

/-- Memory, the hosts' view, the unseen writes and the races change. -/
theorem State.Inv.withView (h : s.Inv) {m v : Memory} {unseen : List Unseen} {races : List Race}
    (hv : ViewOk s.params.memBytes m v unseen races)
    (idle : s.phase = .idle →
      races = [] ∧ (s.params.coherent = true → unseen = [] ∧ v = m) ∧ ∀ u ∈ unseen, u.ended = true)
    (running : s.params.coherent = true → ∀ u ∈ unseen, u.ended = false) :
    State.Inv { s with mem := m, seen := v, unseen := unseen, races := races } :=
  { hv, h with
    idle_race := fun hp => (idle hp).1
    idle_seen := fun hp => (idle hp).2.1
    idle_ended := fun hp => (idle hp).2.2
    coherent_running := running }

theorem State.settledView_coherent (hc : s.params.coherent = true) : s.settledView = (s.mem, []) := if_pos hc

theorem State.settledView_ended : ∀ u ∈ s.settledView.2, u.ended = true := by
  unfold State.settledView
  split
  · exact nofun
  · intro u hu
    obtain ⟨w, -, rfl⟩ := List.mem_map.1 hu
    rfl

theorem State.Inv.complete (h : s.Inv) (code : ResultCode) : (s.complete code).Inv :=
  { h.view.settled, h with
    busy_err := nofun
    idle_fill := fun _ => ⟨rfl, rfl⟩
    fill32_ok := nofun
    fill64_ok := nofun
    idle_race := fun _ => rfl
    idle_seen := fun _ hc => by
      rw [State.complete_seen, State.complete_unseen, State.settledView_coherent (s := s) hc]
      exact ⟨rfl, rfl⟩
    idle_ended := fun _ => State.settledView_ended
    coherent_running := fun hc => by
      rw [State.complete_unseen, State.settledView_coherent (s := s) hc]
      exact nofun }

theorem State.Inv.succeedWith (h : s.Inv) (r : Regs4) : (s.succeedWith r).Inv := { h.complete .ok with }

theorem State.Inv.doReset (h : s.Inv) : s.doReset.Inv :=
  { h.complete .ok with
    slots32_length := List.length_replicate
    slots64_length := List.length_replicate
    slots32_ok := fun sl hsl hl => by cases List.eq_of_mem_replicate hsl ▸ hl
    slots64_ok := fun sl hsl hl => by cases List.eq_of_mem_replicate hsl ▸ hl
    fill32_ok := nofun
    fill64_ok := nofun }

theorem State.Inv.accept (h : s.Inv) (hp : s.phase = .idle) (w : Word32) : (s.accept w).Inv :=
  { h with
    busy_err := fun _ => rfl
    idle_fill := nofun
    fill32_ok := nofun
    fill64_ok := nofun
    idle_race := fun _ => rfl
    idle_seen := nofun
    idle_ended := nofun
    races_below := nofun
    mem_newest := fun a _ => h.mem_newest a (by rw [h.idle_race hp]; rfl)
    mem_race := nofun
    race_engine := nofun }

/-- Some of the unseen writes become visible. -/
theorem State.Inv.revealMarked (h : s.Inv) {l : List (Unseen × Bool)} (hl : l.map Prod.fst = s.unseen) :
    (s.revealMarked l).Inv := by
  have stays {u : Unseen} (hu : u ∈ stay l) : ∃ w ∈ s.unseen, u.ended = w.ended := by
    obtain ⟨w, hw, -, -, he, -⟩ := mem_stay hu
    exact ⟨w, hl ▸ List.mem_map_of_mem hw, he⟩
  refine h.withView (h.view.reveal hl) (fun hp => ⟨h.idle_race hp, fun hc => ?_, fun u hu => ?_⟩) fun hc u hu => ?_
  · obtain ⟨hu, hseen⟩ := h.idle_seen hp hc
    rw [hu, List.map_eq_nil_iff] at hl
    rw [hl]
    exact ⟨rfl, hseen⟩
  · obtain ⟨w, hw, he⟩ := stays hu
    rw [he, h.idle_ended hp w hw]
  · obtain ⟨w, hw, he⟩ := stays hu
    rw [he, h.coherent_running hc w hw]

theorem State.Inv.reveal (h : s.Inv) (k : Nat) : (s.reveal k).Inv := h.revealMarked (List.ext_getElem (by simp) (by simp))

theorem State.Inv.maintain (h : s.Inv) (addr len : Nat) : (s.maintain addr len).Inv :=
  h.revealMarked (List.map_map.trans (List.map_id' _))

/-! ## Hosts -/

theorem State.Inv.storeHostByte (h : s.Inv) {a : Nat} (ha : a < s.params.memBytes) (b : Byte) : (s.storeHostByte a b).Inv := by
  have hidden {e : Bool} (he : ∀ u ∈ s.unseen, u.ended = e) : ∀ u ∈ s.unseen.map (Unseen.hide a), u.ended = e := by
    intro u hu
    obtain ⟨w, hw, rfl⟩ := List.mem_map.1 hu
    rw [Unseen.hide_ended, he w hw]
  refine h.withView (h.view.store ha b) (fun hp => ⟨?_, fun hc => ?_, hidden (h.idle_ended hp)⟩)
    fun hc => hidden (h.coherent_running hc)
  · rw [h.idle_race hp]
    rfl
  · obtain ⟨hu, hseen⟩ := h.idle_seen hp hc
    rw [hu, hseen]
    exact ⟨rfl, rfl⟩

theorem State.Inv.raceHostByte (h : s.Inv) (hp : s.phase = .exec) {a : Nat} (ha : a < s.params.memBytes) (written : Nat) (b : Byte)
    (wins : Bool) : (s.raceHostByte a written b wins).Inv := by
  refine h.withView (h.view.race ⟨a, b, _, wins⟩ ha ?_) (fun hi => by cases hi.symm.trans hp) h.coherent_running
  intro e he
  dsimp only at he ⊢
  split at he
  · exact h.race_engine a _ e ‹_› he
  · split_ifs at he
    rw [← h.mem_newest a ‹_›, he]

theorem State.Inv.hostWriteByte (h : s.Inv) {a : Nat} (ha : a < s.params.memBytes) (b : Byte) (x : Bool) :
    (s.hostWriteByte a b x).Inv := by
  rcases s.hostWriteByte_cases a b x with ⟨-, he⟩ | he | ⟨lo, written, hi, hb, -, -, he⟩ <;> rw [he]
  · exact h
  · exact h.storeHostByte ha b
  · rcases s.phase_cases with hp | hp
    · rw [State.runningBuffer_idle hp] at hb
      cases hb
    · exact h.raceHostByte hp ha written b x

theorem State.Inv.hostWriteBytes (h : s.Inv) {a : Nat} {bytes : List Byte} (ha : a + bytes.length ≤ s.params.memBytes)
    (wins : List Bool) : (s.hostWriteBytes a bytes wins).Inv := by
  have one (a : Nat) (b : Byte) (x : Bool) (u : State) (hn : a < s.params.memBytes) (hu : u.Inv ∧ u.params = s.params) :
      (u.hostWriteByte a b x).Inv ∧ (u.hostWriteByte a b x).params = s.params := by
    obtain ⟨m, v, w, r, hframe⟩ := u.hostWriteByte_frame a b x
    exact ⟨hu.1.hostWriteByte (hu.2 ▸ hn) b x, by rw [hframe]; exact hu.2⟩
  exact (State.hostWriteBytes_induct one bytes a wins s ha ⟨h, rfl⟩).1

theorem State.Inv.hostStep (h : s.Inv) {n : Nat} (ht : s.hostStep n = .next t) : t.Inv := by
  obtain ⟨l, hl⟩ := State.hostStep_cases ht
  have moved : State.Inv { s with hosts := l } := { h with }
  rcases hl with rfl | ⟨r, rfl⟩ | ⟨-, rfl⟩ | ⟨hp, w, rfl⟩ | ⟨addr, bytes, wins, hstop, rfl⟩ | ⟨addr, len, rfl⟩
  · exact moved
  · exact { h with }
  · exact { h with }
  · exact moved.accept hp w
  · exact moved.hostWriteBytes (State.hostMemStop_eq_none hstop) wins
  · exact moved.maintain addr len

/-! ## Commands -/

section Commands

variable {w : Nat} {γ : Type}

/-- What the operations of a variant, whose slots the invariant asks `Ok` of, keep. -/
structure Gen.Keeps (g : Gen w γ) (v : Variant) (Ok : Slot γ w → Prop) : Prop where
  slot : ∀ {s : State}, s.Inv → ∀ sl ∈ g.slots s, Ok sl
  progress : ∀ {s : State} {p : Fill w}, s.Inv → g.fill s = some p → p.Ok g.blockLen s.count
  fresh : ∀ key, Ok ⟨true, g.initCtr, key⟩
  dead : ∀ sl : Slot γ w, Ok { sl with live := false }
  advance : ∀ sl : Slot γ w, Ok sl → Ok { sl with ctr := g.advance sl.ctr }
  block : ∀ p c k, (g.round p c k).length = g.blockLen
  setSlot : ∀ {s : State} {sl : Slot γ w} (h : Nat), s.Inv → Ok sl → (g.setSlot h sl s).Inv
  setSlot_frame : ∀ (s : State) (sl : Slot γ w) (h : Nat),
    (g.setSlot h sl s).phase = s.phase ∧ (g.setSlot h sl s).lcmd = s.lcmd ∧ (g.setSlot h sl s).larg = s.larg
  withFill : ∀ {s : State} {p : Fill w}, s.Inv → s.phase = .exec → s.runsFill v → p.Ok g.blockLen s.count →
    (g.withFill (some p) s).Inv

theorem gen32_keeps : gen32.Keeps .v32 Slot.Ok32 where
  slot h := h.slots32_ok
  progress h hf := (h.fill32_ok _ hf).1
  fresh _ _ := ⟨rfl, rfl, (by decide : (0 : Word32) = 1 - 1)⟩
  dead _ := nofun
  advance sl h hl := by
    obtain ⟨h2, h3, h1⟩ := h hl
    refine ⟨h2, h3, ?_⟩
    show sl.ctr.c1 + 1 = sl.ctr.c0 + 1 - 1
    rw [h1]
    ring
  block _ _ _ := rfl
  setSlot k h hsl :=
    { h with
      slots32_length := List.length_set.trans h.slots32_length
      slots32_ok := fun x hx => (List.mem_or_eq_of_mem_set hx).elim (h.slots32_ok x) fun he => he ▸ hsl }
  setSlot_frame _ _ _ := ⟨rfl, rfl, rfl⟩
  withFill h hp hr hok :=
    { h with
      idle_fill := fun hi => by cases hi.symm.trans hp
      fill32_ok := fun q hq => by
        cases hq
        exact ⟨hok, hr⟩ }

theorem gen64_keeps : gen64.Keeps .v64 Slot.Ok64 where
  slot h := h.slots64_ok
  progress h hf := (h.fill64_ok _ hf).1
  fresh _ _ := (by decide : (0 : Word64) = 1 - 1)
  dead _ := nofun
  advance sl h hl := by
    show sl.ctr.c1 + 1 = sl.ctr.c0 + 1 - 1
    rw [h hl]
    ring
  block _ _ _ := rfl
  setSlot k h hsl :=
    { h with
      slots64_length := List.length_set.trans h.slots64_length
      slots64_ok := fun x hx => (List.mem_or_eq_of_mem_set hx).elim (h.slots64_ok x) fun he => he ▸ hsl }
  setSlot_frame _ _ _ := ⟨rfl, rfl, rfl⟩
  withFill h hp hr hok :=
    { h with
      idle_fill := fun hi => by cases hi.symm.trans hp
      fill64_ok := fun q hq => by
        cases hq
        exact ⟨hok, hr⟩ }

variable {g : Gen w γ} {v : Variant} {Ok : Slot γ w → Prop}

/-- The slot a handle names meets what the invariant asks of it. -/
theorem Gen.Keeps.liveSlot (k : g.Keeps v Ok) (h : s.Inv) {n : Nat} {sl : Slot γ w} (hl : g.liveSlot n s = some sl) : Ok sl := by
  obtain ⟨-, -, hsl, -⟩ := g.liveSlot_eq_some.1 hl
  exact k.slot h sl (List.mem_of_getElem? hsl)

/-- An element write of a running FILL stays inside the buffer, which is inside data memory. -/
theorem Gen.elemAddr_le (hb : g.bufferError s = none) {n : Nat} (hn : n < s.count) :
    g.elemAddr n s + g.elemBytes ≤ s.params.memBytes := by
  obtain ⟨-, hfit⟩ := g.bufferError_eq_none.1 hb
  calc s.base + n * g.elemBytes + g.elemBytes = s.base + (n + 1) * g.elemBytes := by ring
    _ ≤ s.base + s.count * g.elemBytes := Nat.add_le_add_left (Nat.mul_le_mul_right _ hn) _
    _ ≤ s.params.memBytes := hfit

theorem Gen.Keeps.element (k : g.Keeps v Ok) (h : s.Inv) (hp : s.phase = .exec) (hr : s.runsFill v) (tr : BitVec w → BitVec w)
    {p : Fill w} (hf : g.fill s = some p) (more : p.i < s.count) (word : p.j < g.blockLen) (hb : g.bufferError s = none) :
    (g.elementState tr p s).Inv := by
  have hview := h.view.element (a := g.elemAddr p.i s) (bytes := leBytes g.elemBytes (tr (p.blk.getD p.j 0)))
    (by rw [leBytes_length]; exact Gen.elemAddr_le hb more)
  obtain ⟨hblk, -, -⟩ := k.progress h hf
  refine k.withFill (h.withView hview (fun hi => by cases hi.symm.trans hp) fun hc u hu => ?_) hp hr ⟨hblk, word, more⟩
  rcases List.mem_append.1 hu with hu | hu
  · exact h.coherent_running hc u hu
  · rw [List.mem_singleton.1 hu]

theorem Gen.Keeps.round (k : g.Keeps v Ok) (h : s.Inv) (hp : s.phase = .exec) (hr : s.runsFill v) {sl : Slot γ w} (hsl : Ok sl)
    (handle : Nat) {n : Nat} (hn : n ≤ s.count) : (g.fillRound handle sl n s).Inv := by
  obtain ⟨hphase, hlcmd, hlarg⟩ : (g.advanceSlot handle sl s).phase = s.phase ∧ (g.advanceSlot handle sl s).lcmd = s.lcmd ∧
      (g.advanceSlot handle sl s).larg = s.larg := k.setSlot_frame s _ handle
  refine k.withFill (k.setSlot handle h (k.advance sl hsl)) (hphase.trans hp) ?_ ⟨k.block _ _ _, Nat.zero_le _, ?_⟩
  · unfold State.runsFill
    rw [hlcmd]
    exact hr
  · unfold State.count
    rw [hlarg]
    exact hn

/-- Every operation a step of a command can be keeps the invariant. -/
theorem Gen.Keeps.does (k : g.Keeps v Ok) {i : Instr} {op : State → State} (h : s.Inv) (hp : s.phase = .exec)
    (hd : decode s.lcmd = .ok i) (hv : i.variant = v) (hop : g.Does i s op) : (op s).Inv := by
  cases hop with
  | ends code => exact h.complete code
  | creates n key => exact (k.setSlot n h (k.fresh key)).succeedWith _
  | destroys sl live => exact (k.setSlot _ h (k.dead sl)).complete .ok
  | draws sl _ live => exact (k.setSlot _ h (k.advance sl (k.liveSlot h live))).succeedWith _
  | rounds sl n fill live hn => exact k.round h hp ⟨i, hd, fill, hv⟩ (k.liveSlot h live) _ hn
  | writes tr p fill hf more word hb => exact k.element h hp ⟨i, hd, fill, hv⟩ tr hf more word hb

end Commands

theorem State.Inv.exec (h : s.Inv) (hp : s.phase = .exec) {i : Instr} (hd : decode s.lcmd = .ok i) (hx : exec i s = .next t) :
    t.Inv := by
  rcases exec_does hx with ⟨hv, op, hop, rfl, -⟩ | ⟨hv, op, hop, rfl, -⟩
  · exact gen32_keeps.does h hp hd hv hop
  · exact gen64_keeps.does h hp hd hv hop

/-- Settles O57: a step is a reset, the engine's, a host's, or an event's, and each operation it does keeps the invariant. -/
theorem everyStepKeepsInvariant : Obligations.EveryStepKeepsInvariant := by
  intro s t h ht
  rcases step_cases s with ⟨-, he⟩ | ⟨-, evs, hturn⟩
  · cases he.symm.trans ht
    exact h.doReset
  have scheduled : State.Inv { s with sched := evs } := { h with }
  rcases hturn with ⟨hp, he⟩ | ⟨n, he⟩ | ⟨k, he⟩ | he | he <;> rw [he] at ht
  · rcases State.engineStep_cases (s := { s with sched := evs }) hp ht with ⟨i, hd, hx⟩ | rfl
    · exact scheduled.exec hp hd hx
    · exact scheduled.complete .illegal
  · exact scheduled.hostStep ht
  · cases ht
    exact scheduled.reveal k
  · cases ht
    exact { h with }
  · cases ht
    exact scheduled

end Sys2Proof.Machine
end

section
/-! PROOFS. Data memory (spec 20_memory.md): its little-endian writes (R72), what a command does to it (R70), where a FILL over it
stops (R78, R79), and that nothing else stops. -/

namespace Sys2Proof.Machine

/-- Settles O48: the bytes of the value are the bytes written. -/
theorem memoryWriteIsLittleEndian : Obligations.MemoryWriteIsLittleEndian := by
  intro w n a v m
  refine ⟨fun k hk => ?_, fun x hx => ?_, fun h => Memory.wf_setBytes h a _⟩
  · have inside : k < (leBytes n v).length := by rwa [leBytes_length]
    rw [Memory.write, Memory.get_setBytes_inside _ _ _ _ inside, leBytes_getElem]
  · exact Memory.get_setBytes_outside _ _ _ _ (by rwa [leBytes_length])

/-- A command that is no FILL ends in its step and stores nothing. -/
theorem exec_nonFill {i : Instr} {s t : State} (hi : i.isFill = false) (h : exec i s = .next t) :
    t.phase = .idle ∧ t.mem = s.mem := by
  rcases exec_does h with ⟨-, op, hd, rfl, -⟩ | ⟨-, op, hd, rfl, -⟩
  all_goals
    cases hd with
    | ends | creates | destroys | draws => exact ⟨rfl, rfl⟩
    | rounds _ _ fill | writes _ _ fill => cases hi.symm.trans fill

/-- Settles O34: the frame of every command, and that RES changes in a CREATE or a NEXT only. -/
theorem nonFillCommandsFrame : Obligations.NonFillCommandsFrame := by
  intro i s t hi h
  obtain ⟨hidle, hmem⟩ := exec_nonFill hi h
  obtain ⟨hparams, hlcmd, hlarg, harg, hovr, hhosts, hsched, hreset⟩ := exec_frame h
  refine ⟨hidle, fun a => by rw [hmem], harg, hlarg, hlcmd, hovr, hparams, hhosts, hsched, hreset, fun n hn => ?_⟩
  by_contra hres
  obtain ⟨-, -, -, other⟩ := exec_res h hres
  exact hn.elim (other n).1 (other n).2

section Stops

variable {w : Nat} {γ : Type} {g : Gen w γ} {h : Nat} {sl : Slot γ w} {s : State}

/-- An element write that data memory refuses stops the engine (20_memory.md R78). -/
theorem Gen.fillStep_refusedWrite (tr : BitVec w → BitVec w) {p : Fill w} (ready : g.FillReady h sl s) (hf : g.fill s = some p)
    (more : p.i < s.count) (word : p.j < g.blockLen) (refused : s.params.refuses (s.base + p.i * g.elemBytes) g.elemBytes = true) :
    g.fillStep tr h s = .fault (.refusedWrite (s.base + p.i * g.elemBytes)) := by
  obtain ⟨hl, hc, hb, hw⟩ := ready.checks
  simp [Gen.fillStep, Gen.fillElement, Gen.elemAddr, hl, hc, hb, hw, hf, more, word, refused]

/-- A FILL over the mapped register window is refused, after its checks (R79). -/
theorem Gen.fillStep_windowOverlap (tr : BitVec w → BitVec w) (hl : g.liveSlot h s = some sl) (hc : 0 < s.count)
    (aligned : s.base % g.elemBytes = 0) (fits : s.base + s.count * g.elemBytes ≤ 2 ^ s.params.addrW)
    (overlap : s.params.windowMeets s.base (s.count * g.elemBytes) = true) :
    g.fillStep tr h s = .refused .windowOverlap := by
  have hb : g.bufferError s = none := g.bufferError_eq_none.2 ⟨aligned, fits⟩
  simp [Gen.fillStep, Gen.bufferBytes, hl, hc.ne', hb, overlap]

end Stops

/-- Settles O29: both stops, for the fill procedure of either variant. -/
theorem fillStopsWhereMemoryIsNoMemory : Obligations.FillStopsWhereMemoryIsNoMemory := by
  refine ⟨fun k hk h s sl p ready hf more word refused => ?_, fun k hk h s sl p ready hf more word refused => ?_,
    fun k hk h s sl hl hc aligned fits overlap => ?_, fun k hk h s sl hl hc aligned fits overlap => ?_⟩
  · exact (exec_kernels32 hk h s).trans (Gen.fillStep_refusedWrite (g := gen32) _ ready hf more word refused)
  · exact (exec_kernels64 hk h s).trans (Gen.fillStep_refusedWrite (g := gen64) _ ready hf more word refused)
  · exact (exec_kernels32 hk h s).trans
      (Gen.fillStep_windowOverlap (g := gen32) _ (State.live32_iff.1 hl) hc aligned fits overlap)
  · exact (exec_kernels64 hk h s).trans
      (Gen.fillStep_windowOverlap (g := gen64) _ (State.live64_iff.1 hl) hc aligned fits overlap)

/-! ## A platform of plain memory -/

section Ends

variable {w : Nat} {γ : Type} (g : Gen w γ) (h : Nat) (s : State)

theorem Gen.create_ends : ∃ t, g.create s = .next t := by
  rcases g.create_cases s with ⟨-, he⟩ | ⟨_, -, he⟩ <;> exact ⟨_, he⟩

theorem Gen.destroy_ends : ∃ t, g.destroy h s = .next t := by
  rcases g.destroy_cases h s with ⟨-, he⟩ | ⟨-, -, he⟩ | ⟨_, -, -, he⟩ <;> exact ⟨_, he⟩

theorem Gen.next_ends : ∃ t, g.next h s = .next t := by
  rcases g.next_cases h s with ⟨-, he⟩ | ⟨_, -, he⟩ <;> exact ⟨_, he⟩

end Ends

theorem Params.refuses_plain {p : Params} (noDevice : p.deviceRegions = []) (a n : Nat) : p.refuses a n = false := by
  simp [Params.refuses, noDevice]

section Plain

variable {s : State} (noDevice : s.params.deviceRegions = []) (noWindow : s.params.windowAt = none)
include noDevice

/-- An access inside plain memory does not stop. -/
theorem State.hostMemStop_plain {addr len : Nat} (fits : addr + len ≤ 2 ^ s.params.addrW) : s.hostMemStop addr len = none := by
  have inRange : ¬ s.params.memBytes < addr + len := Nat.not_lt.2 fits
  simp [State.hostMemStop, inRange, Params.refuses_plain noDevice]

/-- A step of a host that accesses plain memory inside its range answers. -/
theorem State.hostStep_plain (n : Nat)
    (inside : ∀ a ∈ s.hosts, ∀ op ∈ a.queue,
      (∀ addr bytes wins, op = .memWrite addr bytes wins → addr + bytes.length ≤ 2 ^ s.params.addrW) ∧
      (∀ addr len early engine, op = .memRead addr len early engine → addr + len ≤ 2 ^ s.params.addrW)) :
    ∃ t, s.hostStep n = .next t := by
  unfold State.hostStep
  split
  · exact ⟨_, rfl⟩
  rename_i a ha
  split
  · exact ⟨_, rfl⟩
  rename_i op rest hq
  obtain ⟨write, read⟩ := inside a (List.mem_of_getElem? ha) op (hq ▸ List.mem_cons_self)
  cases op with
  | regWrite | regRead | maintain => exact ⟨_, rfl⟩
  | wait =>
    unfold State.hostIssue
    dsimp only
    split <;> exact ⟨_, rfl⟩
  | check =>
    unfold State.hostIssue
    dsimp only
    split_ifs <;> exact ⟨_, rfl⟩
  | memWrite addr bytes wins =>
    simp [State.hostIssue, State.hostMemStop_plain noDevice (write addr bytes wins rfl)]
  | memRead addr len early engine =>
    simp [State.hostIssue, State.hostMemStop_plain noDevice (read addr len early engine rfl)]

include noWindow

/-- A step of a FILL in plain memory answers. -/
theorem Gen.fillStep_plain {w : Nat} {γ : Type} (g : Gen w γ) (tr : BitVec w → BitVec w) (h : Nat) :
    ∃ t, g.fillStep tr h s = .next t := by
  rcases g.fillStep_cases tr h s with ⟨-, he⟩ | ⟨sl, -, ⟨-, he⟩ | ⟨-, code, -, he⟩ | ⟨-, -, ⟨hw, -⟩ | ⟨-, hrun⟩⟩⟩
  · exact ⟨_, he⟩
  · exact ⟨_, he⟩
  · exact ⟨_, he⟩
  · simp [Params.windowMeets, noWindow] at hw
  · rcases hrun with ⟨-, he⟩ | ⟨p, -, ⟨-, he⟩ | ⟨-, -, hr, -⟩ | ⟨-, -, -, he⟩ | ⟨-, -, he⟩⟩
    · exact ⟨_, he⟩
    · exact ⟨_, he⟩
    · cases (Params.refuses_plain noDevice _ _).symm.trans hr
    · exact ⟨_, he⟩
    · exact ⟨_, he⟩

theorem exec_plain (i : Instr) : ∃ t, exec i s = .next t := by
  rcases exec_cases i s with ⟨-, he⟩ | ⟨-, he⟩ | ⟨h, -, he⟩ | ⟨h, -, he⟩ | ⟨h, -, he⟩ | ⟨h, -, he⟩ | ⟨k, -, h, -, he⟩ |
    ⟨k, -, h, -, he⟩ <;> rw [he]
  · exact gen32.create_ends s
  · exact gen64.create_ends s
  · exact gen32.destroy_ends h s
  · exact gen64.destroy_ends h s
  · exact gen32.next_ends h s
  · exact gen64.next_ends h s
  · exact gen32.fillStep_plain noDevice noWindow _ h
  · exact gen64.fillStep_plain noDevice noWindow _ h

theorem State.engineStep_plain : ∃ t, s.engineStep = .next t := by
  unfold State.engineStep
  split
  · exact ⟨_, rfl⟩
  · split
    · exact exec_plain noDevice noWindow _
    · exact ⟨_, rfl⟩

end Plain

/-- Settles O58: neither a command nor a host access of plain memory stops, and no other step can. -/
theorem noStopOnPlainPlatform : Obligations.NoStopOnPlainPlatform := by
  intro s noDevice noWindow inside
  rcases step_cases s with ⟨-, he⟩ | ⟨-, evs, ⟨-, he⟩ | ⟨n, he⟩ | ⟨k, he⟩ | he | he⟩ <;> rw [he]
  · exact ⟨_, rfl⟩
  · exact State.engineStep_plain (s := { s with sched := evs }) noDevice noWindow
  · exact State.hostStep_plain (s := { s with sched := evs }) noDevice n inside
  all_goals exact ⟨_, rfl⟩

end Sys2Proof.Machine
end

section
/-! PROOFS. What hosts see of data memory (spec 20_memory.md R77, R81, R82, R84, R88; 70_reset_and_hazards.md R266): at a completion,
after visibility events and maintenance, in a read of an element, and of a byte they race for. -/

namespace Sys2Proof.Machine

/-! ## Completion and maintenance -/

theorem State.hostStep_exec {n : Nat} {s t : State} (hp : s.phase = .exec) (h : s.hostStep n = .next t) : t.phase = .exec := by
  obtain ⟨l, rfl | ⟨r, rfl⟩ | ⟨-, rfl⟩ | ⟨hi, -⟩ | ⟨addr, bytes, wins, -, rfl⟩ | ⟨addr, len, rfl⟩⟩ := State.hostStep_cases h
  · exact hp
  · exact hp
  · exact hp
  · cases hi.symm.trans hp
  · obtain ⟨m, v, u, r, he⟩ := State.hostWriteBytes_frame bytes addr wins { s with hosts := l }
    rw [he]
    exact hp
  · exact hp

/-- What is left when a command has ended on a coherent platform: nothing unseen and no race. -/
structure State.Settled (s : State) : Prop where
  seen : s.seen = s.mem
  unseen : s.unseen = []
  races : s.races = []

theorem State.settled_complete {s : State} (hc : s.params.coherent = true) (code : ResultCode) : (s.complete code).Settled := by
  have hv := State.settledView_coherent hc
  exact ⟨congrArg Prod.fst hv, congrArg Prod.snd hv, rfl⟩

theorem State.settled_succeedWith {s : State} (hc : s.params.coherent = true) (r : Regs4) : (s.succeedWith r).Settled :=
  { State.settled_complete hc .ok with }

/-- The step that ends a command on a coherent platform shows hosts all of memory (20_memory.md R82). -/
theorem exec_settled {i : Instr} {s t : State} (hc : s.params.coherent = true) (hp : s.phase = .exec) (h : exec i s = .next t)
    (hi : t.phase = .idle) : t.Settled := by
  rcases exec_does h with ⟨-, op, hd, rfl, -⟩ | ⟨-, op, hd, rfl, -⟩
  all_goals
    cases hd with
    | ends code => exact State.settled_complete hc code
    | creates | draws => exact State.settled_succeedWith (by exact hc) _
    | destroys => exact State.settled_complete (by exact hc) .ok
    | rounds | writes => cases hi.symm.trans hp

/-- Settles O50: only the engine's step ends a command, and it leaves nothing that hosts do not see. -/
theorem completionMakesWritesVisible : Obligations.CompletionMakesWritesVisible := by
  intro s t hc hp hr h hi addr len a early engine
  have settled : t.Settled := by
    rcases step_cases s with ⟨hr', -⟩ | ⟨-, evs, ⟨-, he⟩ | ⟨n, he⟩ | ⟨k, he⟩ | he | he⟩
    · cases hr.symm.trans hr'
    · rcases State.engineStep_cases (s := { s with sched := evs }) hp (he.symm.trans h) with ⟨i, -, hx⟩ | rfl
      · exact exec_settled (s := { s with sched := evs }) hc hp hx hi
      · exact State.settled_complete (s := { s with sched := evs }) hc _
    · cases (State.hostStep_exec (s := { s with sched := evs }) hp (he.symm.trans h)).symm.trans hi
    all_goals
      cases he.symm.trans h
      cases hp.symm.trans hi
  rw [State.viewByte_settled (by rw [settled.races]; rfl) (by rw [settled.unseen]; exact nofun), settled.seen]

/-- The bytes of a write stand in its range. -/
theorem Unseen.byteAt_range {u : Unseen} {a : Nat} {b : Byte} (h : u.byteAt a = some b) :
    u.addr ≤ a ∧ a < u.addr + u.bytes.length := by
  unfold Unseen.byteAt at h
  split_ifs at h with hle
  refine ⟨hle, ?_⟩
  by_contra hlt
  rw [List.getD_eq_default _ _ (by omega)] at h
  cases h

/-- A write has no byte in a range it does not meet. -/
theorem Unseen.byteAt_outside {u : Unseen} {lo n a : Nat} (h : rangesMeet u.addr u.bytes.length lo n = false) (hlo : lo ≤ a)
    (hn : a < lo + n) : u.byteAt a = none := by
  refine Option.eq_none_iff_forall_ne_some.2 fun b hb => ?_
  have meet := (rangesMeet_iff _ _ _ _).2 ⟨a, Unseen.byteAt_range hb, hlo, hn⟩
  cases h.symm.trans meet

/-- While no command runs, maintenance over a range shows every write that has a byte there (R88). -/
theorem State.maintain_byteAt {s : State} (ended : ∀ u ∈ s.unseen, u.ended = true) {lo n a : Nat} (hlo : lo ≤ a) (hn : a < lo + n) :
    ∀ u ∈ (s.maintain lo n).unseen, u.byteAt a = none := by
  intro u hu
  obtain ⟨w, hw, -, -, -, hnone⟩ := mem_stay hu
  obtain ⟨w', hw', hpair⟩ := List.mem_map.1 hw
  obtain ⟨rfl, hmark⟩ := Prod.ext_iff.1 hpair
  refine hnone a (Unseen.byteAt_outside ?_ hlo hn)
  simpa [ended w' hw'] using hmark

theorem State.maintain_running {s : State} (running : ∀ u ∈ s.unseen, u.ended = false) (lo n : Nat) : s.maintain lo n = s :=
  s.revealMarked_none fun u hu => by rw [running u hu, Bool.false_and]

/-- Settles O52: a completion only ends the writes, and after maintenance no write is left to differ from memory. -/
theorem staleReadsEndWithMaintenance : Obligations.StaleReadsEndWithMaintenance := by
  refine ⟨fun s code hc hr => ?_, fun s lo n addr len a early engine h hp hlo hn => ⟨?_, rfl⟩, fun s lo n hu => ?_,
    fun s lo n h hc => ?_⟩
  · have hv : s.settledView = (s.seen, s.unseen.map Unseen.atEnd) := by simp [State.settledView, hc, hr]
    exact ⟨congrArg Prod.snd hv, congrArg Prod.fst hv⟩
  · have noRace : raceAt (s.maintain lo n).races a = none := by
      rw [State.maintain_races, h.idle_race hp]
      rfl
    have noUnseen := State.maintain_byteAt (h.idle_ended hp) hlo hn
    have newest_seen := (h.maintain lo n).mem_newest a noRace
    rw [newest_of_none noUnseen] at newest_seen
    exact (State.viewByte_settled noRace noUnseen addr len early engine).trans newest_seen.symm
  · exact State.maintain_running hu lo n
  · exact State.maintain_running (h.coherent_running hc) lo n

/-! ## Visibility events -/

/-- Two writes share no byte. -/
def Unseen.Apart (u w : Unseen) : Prop := rangesMeet u.addr u.bytes.length w.addr w.bytes.length = false

theorem Unseen.Apart.byteAt {u w : Unseen} (h : u.Apart w) {a : Nat} {b : Byte} (hb : w.byteAt a = some b) : u.byteAt a = none :=
  Unseen.byteAt_outside h (Unseen.byteAt_range hb).1 (Unseen.byteAt_range hb).2

theorem Unseen.Apart.symm {u w : Unseen} (h : u.Apart w) : w.Apart u := by
  refine Bool.eq_false_iff.2 fun hm => ?_
  obtain ⟨x, hw, hu⟩ := (rangesMeet_iff _ _ _ _).1 hm
  exact Bool.eq_false_iff.1 h ((rangesMeet_iff _ _ _ _).2 ⟨x, hu, hw⟩)

/-- A write that shares no byte with itself has none. -/
theorem Unseen.Apart.byteAt_self {u : Unseen} (h : u.Apart u) (a : Nat) : u.byteAt a = none :=
  Option.eq_none_iff_forall_ne_some.2 fun _ hb => by cases (h.byteAt hb).symm.trans hb

/-- A younger write replaces nothing of a write it shares no byte with. -/
theorem Unseen.under_apart {u w : Unseen} (h : u.Apart w) : u.under [w] = u := by
  have same : u.bytes.mapIdx (fun k b => if [w].any fun x => (x.byteAt (u.addr + k)).isSome then none else b) = u.bytes := by
    refine List.ext_getElem (by simp) fun k _ hk => ?_
    have hnone : w.byteAt (u.addr + k) = none := Unseen.byteAt_outside h.symm (by omega) (by omega)
    simp [hnone]
  exact congrArg (fun b => Unseen.mk u.addr b u.ended) same

theorem shown_append (l r : List (Unseen × Bool)) : shown (l ++ r) = shown l ++ shown r := by
  simp [shown]

theorem shown_unmarked (l : List Unseen) : shown (l.map fun u => (u, false)) = [] := by
  simp [shown]

theorem stay_unmarked (l : List Unseen) : stay (l.map fun u => (u, false)) = l := by
  induction l with
  | nil => rfl
  | cons u l ih => rw [List.map_cons, stay, shown_unmarked, Unseen.under_nil, ih]

/-- The mark of one write. -/
theorem mapIdx_mark (pre post : List Unseen) (u : Unseen) :
    (pre ++ u :: post).mapIdx (fun i w => (w, decide (i = pre.length))) =
      pre.map (fun w => (w, false)) ++ (u, true) :: post.map fun w => (w, false) := by
  have others (l : List Unseen) (f : ℕ → Bool) (hf : ∀ i < l.length, f i = false) :
      l.mapIdx (fun i w => (w, f i)) = l.map fun w => (w, false) :=
    List.ext_getElem (by simp) fun i hi _ => by simp [hf i (by simpa using hi)]
  rw [List.mapIdx_append, List.mapIdx_cons, others pre _ (fun i hi => by simpa using hi.ne),
    others post (fun i => decide (i + 1 + pre.length = pre.length)) (by simp)]
  simp

theorem shown_mark (pre post : List Unseen) (u : Unseen) :
    shown (pre.map (fun w => (w, false)) ++ (u, true) :: post.map fun w => (w, false)) = [u] := by
  rw [shown_append, shown_unmarked]
  exact congrArg (u :: ·) (shown_unmarked post)

theorem stay_mark {pre : List Unseen} {u : Unseen} (apart : ∀ w ∈ pre, w.Apart u) (post : List Unseen) :
    stay (pre.map (fun w => (w, false)) ++ (u, true) :: post.map fun w => (w, false)) = pre ++ post := by
  induction pre with
  | nil => exact stay_unmarked post
  | cons w pre ih =>
    rw [List.map_cons, List.cons_append, stay, shown_mark, Unseen.under_apart (apart w List.mem_cons_self),
      ih fun x hx => apart x (List.mem_cons_of_mem _ hx), List.cons_append]

/-- A visibility event shows hosts its write, and leaves the writes that share no byte with it as they are (R81). -/
theorem State.reveal_apart {s : State} {pre post : List Unseen} {u : Unseen} (hs : s.unseen = pre ++ u :: post)
    (apart : ∀ w ∈ pre, w.Apart u) : s.reveal pre.length = { s with unseen := pre ++ post, seen := u.showIn s.seen } := by
  rw [State.reveal, hs, mapIdx_mark, State.revealMarked, shown_mark, stay_mark apart]
  rfl

/-- The visibility events of the writes `ks`, one after another. -/
def State.revealAll (ks : List Nat) (s : State) : State := ks.foldl (fun t k => t.reveal k) s

theorem run_of_step {M : Host.Core} {n : Nat} {s t : M.State} (h : M.step s = .next t) : M.run (n + 1) s = M.run n t := by
  simp only [Host.Core.run, h]

/-- A run along a schedule of visibility events. -/
theorem run_reveals (ks : List Nat) : ∀ s : State, s.resetReq = false →
    Host.Core.run core ks.length { s with sched := ks.map Event.reveal } = .next { s.revealAll ks with sched := [] } := by
  induction ks with
  | nil => exact fun s _ => rfl
  | cons k ks ih =>
    intro s hr
    have first : core.step { s with sched := (k :: ks).map Event.reveal } =
        .next { s.reveal k with sched := ks.map Event.reveal } :=
      step_of_sched_cons (s := { s with sched := (k :: ks).map Event.reveal }) hr rfl
    exact (run_of_step first).trans (ih (s.reveal k) hr)

/-- Where the writes `us` are unseen after `pre`, some visibility events leave just its sublist `l`, and show the others. -/
theorem State.exists_revealAll {l us : List Unseen} (hl : l.Sublist us) : ∀ (s : State) (pre : List Unseen),
    s.unseen = pre ++ us → us.Pairwise Unseen.Apart → (∀ w ∈ pre, ∀ u ∈ us, w.Apart u) →
    ∃ ks, s.revealAll ks = { s with unseen := pre ++ l, seen := (s.revealAll ks).seen } ∧
      (∀ u ∈ us, u ∉ l → ∀ a b, u.byteAt a = some b → (s.revealAll ks).seen.get a = some b) ∧
      ∀ a, (∀ u ∈ us, u ∉ l → u.byteAt a = none) → (s.revealAll ks).seen.get a = s.seen.get a := by
  induction hl with
  | slnil =>
    intro s pre hu _ _
    exact ⟨[], by rw [← hu]; rfl, nofun, fun _ _ => rfl⟩
  | @cons l us u hl ih =>
    intro s pre hu hpair hpre
    obtain ⟨hfirst, hrest⟩ := List.pairwise_cons.1 hpair
    have shows := State.reveal_apart hu fun w hw => hpre w hw u List.mem_cons_self
    have seen_first (a : Nat) : (s.reveal pre.length).seen.get a = (u.byteAt a).or (s.seen.get a) := by
      rw [shows]
      exact u.get_showIn s.seen a
    obtain ⟨ks, hleft, hshown, hkept⟩ := ih (s.reveal pre.length) pre (by rw [shows]) hrest
      fun w hw x hx => hpre w hw x (List.mem_cons_of_mem _ hx)
    refine ⟨pre.length :: ks, hleft, fun w hw hwl a b hb => ?_, fun a ha => ?_⟩
    · rcases List.mem_cons.1 hw with rfl | hw
      · refine (hkept a fun x hx _ => (hfirst x hx).symm.byteAt hb).trans ?_
        rw [seen_first, hb]
        rfl
      · exact hshown w hw hwl a b hb
    · have own : u.byteAt a = none := by
        by_cases hul : u ∈ l
        · exact (hfirst u (hl.subset hul)).byteAt_self a
        · exact ha u List.mem_cons_self hul
      refine (hkept a fun x hx => ha x (List.mem_cons_of_mem _ hx)).trans ?_
      rw [seen_first, own]
      rfl
  | @cons_cons l us u hl ih =>
    intro s pre hu hpair hpre
    obtain ⟨hfirst, hrest⟩ := List.pairwise_cons.1 hpair
    have apart : ∀ w ∈ pre ++ [u], ∀ x ∈ us, w.Apart x := by
      intro w hw x hx
      rcases List.mem_append.1 hw with hw | hw
      · exact hpre w hw x (List.mem_cons_of_mem _ hx)
      · exact List.mem_singleton.1 hw ▸ hfirst x hx
    obtain ⟨ks, hleft, hshown, hkept⟩ := ih s (pre ++ [u]) (by rw [hu, List.append_assoc]; rfl) hrest apart
    refine ⟨ks, by rwa [List.append_assoc] at hleft, fun w hw hwl => ?_, fun a ha => hkept a fun x hx hxl => ?_⟩
    · exact hshown w ((List.mem_cons.1 hw).resolve_left (List.ne_of_not_mem_cons hwl)) (List.not_mem_of_not_mem_cons hwl)
    · by_cases hxu : x = u
      · exact (hxu ▸ hfirst x hx : x.Apart x).byteAt_self a
      · exact ha x (List.mem_cons_of_mem _ hx) (List.not_mem_cons_of_ne_of_not_mem hxu hxl)

/-- Settles O49: showing the writes not in the sublist, first to last. -/
theorem anySubsetOfWritesCanBeSeen : Obligations.AnySubsetOfWritesCanBeSeen := by
  intro s l hr hs hl apart
  obtain ⟨ks, hleft, hshown, hkept⟩ := s.exists_revealAll hl [] rfl apart nofun
  have sched : (s.revealAll ks).sched = [] := by rw [hleft]; exact hs
  refine ⟨ks, s.revealAll ks, ?_, hleft, hshown, hkept⟩
  rw [run_reveals ks s hr, ← sched]

/-! ## Reads of an element -/

theorem raceAt_eq_none {races : List Race} {a : Nat} (h : ∀ r ∈ races, r.addr ≠ a) : raceAt races a = none := by
  simpa [raceAt] using h

/-- With the window outside data memory a read looks at each of its bytes. -/
theorem State.hostMemRead_noWindow {s : State} (h : s.params.windowAt = none) (addr len : Nat) (early : List (List Bool))
    (engine : List Bool) : s.hostMemRead addr len early engine =
      (List.range len).map fun k => s.viewByte addr len early (engine.getD k false) (addr + k) := by
  simp [State.hostMemRead, dataWindowOffset_none h, inWindow_none h]

/-- A byte no host races for is read as its unseen writes show it. -/
theorem State.viewByte_noRace {s : State} {a : Nat} (h : raceAt s.races a = none) (addr len : Nat) (early : List (List Bool))
    (engine : Bool) : s.viewByte addr len early engine a = seenInRead addr len a s.unseen early (s.seen.get a) := by
  simp [State.viewByte, h]

/-- The reads of a write, and of the writes before it with its flags taken out. -/
theorem seenInRead_insert {addr len a : Nat} {u : Unseen} {post : List Unseen} (hpost : ∀ w ∈ post, w.byteAt a = none)
    (pre : List Unseen) : ∀ (early : List (List Bool)) (v : Option Byte),
      seenInRead addr len a (pre ++ u :: post) early v =
        if u.inRead addr len a (early.getD pre.length []) then
          (u.byteAt a).or (seenInRead addr len a (pre ++ post) (early.eraseIdx pre.length) v)
        else seenInRead addr len a (pre ++ post) (early.eraseIdx pre.length) v := by
  induction pre with
  | nil =>
    intro early v
    rw [List.nil_append, List.nil_append, seenInRead, seenInRead_of_none hpost, seenInRead_of_none hpost]
    cases early <;> rfl
  | cons w pre ih =>
    intro early v
    rw [List.cons_append, List.cons_append, seenInRead, seenInRead, ih]
    cases early <;> rfl

/-- A read of exactly the write takes its bytes all by one flag (R77). -/
theorem Unseen.inRead_exact {u : Unseen} {len : Nat} (h : u.bytes.length = len) (a : Nat) (flags : List Bool) :
    u.inRead u.addr len a flags = flags.headD false :=
  if_pos ⟨rfl, h⟩

/-- A read without flags sees no unseen write. -/
theorem seenInRead_noFlags (addr len a : Nat) (l : List Unseen) (v : Option Byte) : seenInRead addr len a l [] v = v := by
  induction l generalizing v with
  | nil => rfl
  | cons u l ih =>
    have unseen : u.inRead addr len a [] = false := by simp [Unseen.inRead]
    rw [seenInRead, List.headD_nil, unseen]
    exact ih v

/-- A read of exactly one element, whose bytes no younger write has replaced and no host races for: all of it, or what the read
gives without it, as the element's first flag says. -/
theorem State.hostMemRead_element {s : State} (noWindow : s.params.windowAt = none) {pre post : List Unseen} {u : Unseen}
    {bytes : List Byte} (hs : s.unseen = pre ++ u :: post) (hu : u.bytes = bytes.map some)
    (younger : ∀ w ∈ post, rangesMeet w.addr w.bytes.length u.addr bytes.length = false)
    (noRace : ∀ k < bytes.length, raceAt s.races (u.addr + k) = none) (early : List (List Bool)) (engine : List Bool) :
    s.hostMemRead u.addr bytes.length early engine =
      if (early.getD pre.length []).headD false then bytes.map some
      else State.hostMemRead u.addr bytes.length (early.eraseIdx pre.length) engine { s with unseen := pre ++ post } := by
  have exact_length : u.bytes.length = bytes.length := by rw [hu, List.length_map]
  have byte (k : Nat) (hk : k < bytes.length) (engine : Bool) :
      s.viewByte u.addr bytes.length early engine (u.addr + k) =
        if (early.getD pre.length []).headD false then some bytes[k]
        else State.viewByte u.addr bytes.length (early.eraseIdx pre.length) engine (u.addr + k)
          { s with unseen := pre ++ post } := by
    have own : u.byteAt (u.addr + k) = some bytes[k] := by simp [Unseen.byteAt, hu, hk]
    have none_younger : ∀ w ∈ post, w.byteAt (u.addr + k) = none := fun w hw =>
      Unseen.byteAt_outside (younger w hw) (by omega) (by omega)
    rw [State.viewByte_noRace (noRace k hk), State.viewByte_noRace (s := { s with unseen := pre ++ post }) (noRace k hk), hs,
      seenInRead_insert none_younger, Unseen.inRead_exact exact_length, own, Option.some_or]
  rw [State.hostMemRead_noWindow noWindow, State.hostMemRead_noWindow (s := { s with unseen := pre ++ post }) noWindow]
  split_ifs with flag
  · refine List.ext_getElem (by simp) fun k _ hk => ?_
    rw [List.length_map] at hk
    rw [List.getElem_map, List.getElem_range, byte k hk, if_pos flag, List.getElem_map]
  · refine List.map_congr_left fun k hk => ?_
    rw [byte k (List.mem_range.1 hk), if_neg flag]

/-- Settles O51: one flag decides for the whole element; a read without flags sees what hosts see already. -/
theorem elementReadsAreWhole : Obligations.ElementReadsAreWhole := by
  intro s noWindow
  refine ⟨fun pre post u bytes hs hu younger hrace => ?_, fun addr len early engine quiet => ?_⟩
  · have noRace (k : Nat) (hk : k < bytes.length) : raceAt s.races (u.addr + k) = none :=
      raceAt_eq_none fun r hr => by have := hrace r hr; omega
    have read := State.hostMemRead_element noWindow hs hu younger noRace
    refine ⟨fun early engine => ?_, ⟨List.replicate (pre.length + 1) [true], fun engine => ?_⟩, [], fun engine => ?_⟩
    · rw [read]
      split_ifs
      · exact .inl rfl
      · exact .inr rfl
    · rw [read]
      exact if_pos (by simp)
    · rw [State.hostMemRead_noWindow noWindow]
      refine List.map_congr_left fun k hk => ?_
      rw [State.viewByte_noRace (noRace k (List.mem_range.1 hk)), seenInRead_noFlags]
  · rw [State.hostMemRead_noWindow noWindow]
    refine List.map_congr_left fun k hk => ?_
    obtain ⟨noUnseen, noRace⟩ := quiet k (List.mem_range.1 hk)
    exact State.viewByte_settled (raceAt_eq_none noRace) noUnseen addr len early _

/-! ## Bytes that hosts and the running FILL race for -/

/-- The engine's value of a byte a host writes while the running FILL has written the part of its buffer below `written`. -/
def State.engineByte (a written : Nat) (s : State) : Option Byte :=
  match raceAt s.races a with
  | some r => r.engine
  | none => if a < written then s.mem.get a else none

/-- The race such a write leaves (20_memory.md R84). -/
def State.raceLeft (a written : Nat) (b : Byte) (wins : Bool) (s : State) : Race := ⟨a, b, s.engineByte a written, wins⟩

theorem State.raceHostByte_mem (a written : Nat) (b : Byte) (wins : Bool) (s : State) :
    (s.raceHostByte a written b wins).mem = s.mem.set a (s.raceLeft a written b wins).final := rfl

theorem State.raceHostByte_unseen (a written : Nat) (b : Byte) (wins : Bool) (s : State) :
    (s.raceHostByte a written b wins).unseen = s.unseen := rfl

theorem State.raceHostByte_raceAt (a written : Nat) (b : Byte) (wins : Bool) (s : State) :
    raceAt (s.raceHostByte a written b wins).races a = some (s.raceLeft a written b wins) :=
  (raceAt_cons_filter s.races (s.raceLeft a written b wins) a).trans (if_pos rfl)

/-- A host byte in the running FILL's buffer, outside a mapped window, races with it. -/
theorem State.hostWriteByte_races {s : State} {lo written hi a : Nat} (hb : s.runningBuffer = some (lo, written, hi)) (hlo : lo ≤ a)
    (hhi : a < hi) (hw : inWindow s.params a = false) (b : Byte) (wins : Bool) :
    s.hostWriteByte a b wins = s.raceHostByte a written b wins := by
  simp [State.hostWriteByte, hw, hb, hlo, hhi]

/-- A byte raced for is read as the host's or the engine's (70_reset_and_hazards.md R266). -/
theorem State.viewByte_race {s : State} {a : Nat} {r : Race} (h : raceAt s.races a = some r) (addr len : Nat)
    (early : List (List Bool)) (engine : Bool) : s.viewByte addr len early engine a =
      if engine ∧ r.engine.isSome ∧ youngestInRead addr len a s.unseen early true then r.engine else some r.host := by
  simp only [State.viewByte, h]

/-- Some flags show a read all unseen writes of a byte. -/
theorem exists_youngestInRead (addr len a : Nat) (l : List Unseen) : ∃ early, youngestInRead addr len a l early true = true := by
  induction l with
  | nil => exact ⟨[], rfl⟩
  | cons u l ih =>
    obtain ⟨early, he⟩ := ih
    have sees : u.inRead addr len a (List.replicate (a + 1) true) = true := by
      unfold Unseen.inRead
      split_ifs
      · rfl
      · rw [List.getD_eq_getElem _ _ (by rw [List.length_replicate]; omega), List.getElem_replicate]
    refine ⟨List.replicate (a + 1) true :: early, ?_⟩
    rw [youngestInRead, List.headD_cons, sees, ite_self]
    exact he

/-- Settles O53: the race the write leaves decides what memory holds, and a read takes its host's or its engine's value. -/
theorem racingHostByteOutcomes : Obligations.RacingHostByteOutcomes := by
  intro s lo written hi a b wins hb hlo hhi hw
  rw [State.hostWriteByte_races hb hlo hhi hw]
  have race := s.raceHostByte_raceAt a written b wins
  have reads := State.viewByte_race race
  rw [State.raceHostByte_unseen] at reads
  have kept : (s.raceHostByte a written b wins).mem.get a = some (s.raceLeft a written b wins).final := by
    rw [State.raceHostByte_mem, Memory.get_set, if_pos rfl]
  refine ⟨s.raceLeft a written b wins, race, rfl, rfl, fun r hr => ?_, fun hr => ?_, ?_, ?_, fun x hx => ?_,
    fun addr len early => ⟨?_, ?_, fun e he => ⟨fun noUnseen => ?_, ?_⟩⟩⟩
  · simp only [State.raceLeft, State.engineByte, hr]
  · simp only [State.raceLeft, State.engineByte, hr]
  · rintro rfl
    exact kept
  · rintro rfl
    exact kept
  · rw [State.raceHostByte_mem, Memory.get_set, if_neg hx]
  · rw [reads]
    exact if_neg fun h => nomatch h.1
  · rw [reads]
    split_ifs with h
    · obtain ⟨-, hsome, -⟩ := h
      obtain ⟨e, he⟩ := Option.isSome_iff_exists.1 hsome
      exact .inr ⟨e, he, he⟩
    · exact .inl rfl
  · rw [reads, he, if_pos ⟨rfl, rfl, youngestInRead_of_none noUnseen early true⟩]
  · obtain ⟨early', hsees⟩ := exists_youngestInRead addr len a s.unseen
    exact ⟨early', by rw [reads, he, if_pos ⟨rfl, rfl, hsees⟩]⟩

end Sys2Proof.Machine
end

section
/-! PROOFS. The command word (spec 30_encoding.md R100 to R103): a word is its four fields; the decoder, the mask and match of the
opcode map and the list of illegal words are each conditions on them. -/

namespace Sys2Proof

/-! ## A word is its four fields -/

theorem opField_eq (w : BitVec 32) : opField w = w.toNat % 64 := by
  simp [opField, BitVec.extractLsb'_toNat]

theorem rsv0Field_eq (w : BitVec 32) : rsv0Field w = w.toNat / 64 % 4 := by
  simp [rsv0Field, BitVec.extractLsb'_toNat, Nat.shiftRight_eq_div_pow]

theorem handleField_eq (w : BitVec 32) : handleField w = w.toNat / 256 % 256 := by
  simp [handleField, BitVec.extractLsb'_toNat, Nat.shiftRight_eq_div_pow]

theorem rsv1Field_eq (w : BitVec 32) : rsv1Field w = w.toNat / 65536 % 65536 := by
  simp [rsv1Field, BitVec.extractLsb'_toNat, Nat.shiftRight_eq_div_pow]

theorem opField_lt (w : BitVec 32) : opField w < 64 := BitVec.isLt _

theorem handleField_lt (w : BitVec 32) : handleField w < 256 := BitVec.isLt _

theorem word_eq_iff {w x : BitVec 32} :
    w = x ↔ rsv0Field w = rsv0Field x ∧ rsv1Field w = rsv1Field x ∧ opField w = opField x ∧ handleField w = handleField x := by
  rw [← BitVec.toNat_inj]
  simp only [opField_eq, rsv0Field_eq, handleField_eq, rsv1Field_eq]
  have := w.isLt
  have := x.isLt
  omega

/-- The fields of the pattern of an OP value. -/
theorem pattern_fields {op : Nat} (h : op < 64) :
    rsv0Field (BitVec.ofNat 32 op) = 0 ∧ rsv1Field (BitVec.ofNat 32 op) = 0 ∧ opField (BitVec.ofNat 32 op) = op ∧
      handleField (BitVec.ofNat 32 op) = 0 := by
  simp only [opField_eq, rsv0Field_eq, handleField_eq, rsv1Field_eq, BitVec.toNat_ofNat]
  omega

/-- The mask that leaves HANDLE open clears that field alone. -/
theorem openMask_fields (w : BitVec 32) :
    rsv0Field (w &&& 0xFFFF00FF#32) = rsv0Field w ∧ rsv1Field (w &&& 0xFFFF00FF#32) = rsv1Field w ∧
      opField (w &&& 0xFFFF00FF#32) = opField w ∧ handleField (w &&& 0xFFFF00FF#32) = 0 := by
  have ones {k : Nat} (x : BitVec k) : x &&& BitVec.allOnes k = x := BitVec.and_allOnes
  simp only [rsv0Field, rsv1Field, opField, handleField, BitVec.extractLsb'_and]
  exact ⟨congrArg _ (ones _), congrArg _ (ones _), congrArg _ (ones _), congrArg _ BitVec.and_zero⟩

/-- What a word meets that selects a row with HANDLE open. -/
theorem openMask_selects {w : BitVec 32} {op : Nat} (h : op < 64) :
    w &&& 0xFFFF00FF#32 = BitVec.ofNat 32 op ↔ rsv0Field w = 0 ∧ rsv1Field w = 0 ∧ opField w = op := by
  obtain ⟨hr0, hr1, hop, hh⟩ := openMask_fields w
  obtain ⟨pr0, pr1, pop, ph⟩ := pattern_fields h
  rw [word_eq_iff, hr0, hr1, hop, hh, pr0, pr1, pop, ph]
  simp

/-- What a word meets that selects a row with HANDLE 0. -/
theorem closedMask_selects {w : BitVec 32} {op : Nat} (h : op < 64) :
    w &&& 0xFFFFFFFF#32 = BitVec.ofNat 32 op ↔
      rsv0Field w = 0 ∧ rsv1Field w = 0 ∧ opField w = op ∧ handleField w = 0 := by
  obtain ⟨pr0, pr1, pop, ph⟩ := pattern_fields h
  have ones : w &&& 0xFFFFFFFF#32 = w := BitVec.and_allOnes
  rw [ones, word_eq_iff, pr0, pr1, pop, ph]

/-- The fields of the word `w` are those of the command `i` (R100 to R102). -/
structure StandsFor (w : BitVec 32) (i : Instr) : Prop where
  rsv0 : rsv0Field w = 0
  rsv1 : rsv1Field w = 0
  op : opField w = i.opcode
  handle : handleField w = i.handle

/-! ## The decoder -/

theorem instrOfOp_opcode {op h : Nat} {i : Instr} (hi : instrOfOp op h = some i) : i.opcode = op := by
  unfold instrOfOp at hi
  split at hi <;> cases hi <;> rfl

/-- FN = 1 is CREATE, which carries no handle. -/
theorem instrOfOp_handle {op h : Nat} {i : Instr} (hi : instrOfOp op h = some i) : i.handle = if op % 8 = 1 then 0 else h := by
  unfold instrOfOp at hi
  split at hi <;> cases hi <;> rfl

theorem instrOfOp_opcode_handle (i : Instr) : instrOfOp i.opcode i.handle = some i := by
  cases i <;> rfl

/-- Which OP values are assigned does not depend on HANDLE (R101, R102). -/
theorem instrOfOp_isSome {op : Nat} (hop : op < 64) (h : Nat) :
    (instrOfOp op h).isSome = true ↔ op % 8 ≠ 0 ∧ op / 8 % 2 = 0 ∧ op / 32 % 2 = 0 := by
  have anyHandle : (instrOfOp op h).isSome = (instrOfOp op 0).isSome := by
    unfold instrOfOp
    split <;> rfl
  have atZero : ∀ op < 64, (instrOfOp op 0).isSome = true ↔ op % 8 ≠ 0 ∧ op / 8 % 2 = 0 ∧ op / 32 % 2 = 0 := by decide
  rw [anyHandle, atZero op hop]

theorem decode_eq_ok_iff_instrOfOp {w : BitVec 32} {i : Instr} : decode w = .ok i ↔
    rsv0Field w = 0 ∧ rsv1Field w = 0 ∧ instrOfOp (opField w) (handleField w) = some i ∧ i.handle = handleField w := by
  unfold decode
  split_ifs with h0 h1
  · simp [h0]
  · simp [h1]
  · cases instrOfOp (opField w) (handleField w) with
    | none => simp
    | some j =>
      simp only [not_not.1 h0, not_not.1 h1, Option.some.injEq, true_and]
      split_ifs with hj
      · simp only [Except.ok.injEq]
        exact ⟨fun he => ⟨he, he ▸ hj⟩, And.left⟩
      · exact ⟨nofun, fun ⟨he, hi⟩ => absurd (he ▸ hi) hj⟩

/-- Decoding gives the command whose fields the word has. -/
theorem decode_eq_ok {w : BitVec 32} {i : Instr} : decode w = .ok i ↔ StandsFor w i := by
  rw [decode_eq_ok_iff_instrOfOp]
  constructor
  · rintro ⟨h0, h1, hi, hh⟩
    exact ⟨h0, h1, (instrOfOp_opcode hi).symm, hh.symm⟩
  · rintro ⟨h0, h1, hop, hh⟩
    exact ⟨h0, h1, by rw [hop, hh, instrOfOp_opcode_handle], hh.symm⟩

theorem decode_eq_error {w : BitVec 32} : (∃ e, decode w = .error e) ↔ ¬ ∃ i, decode w = .ok i := by
  cases decode w <;> simp

/-! ## The opcode map -/

theorem Instr.opcode_lt (i : Instr) : i.opcode < 64 := by
  cases i <;> simp [Instr.opcode]

theorem Instr.row_pattern (i : Instr) : i.row.pattern = BitVec.ofNat 32 i.opcode := by
  cases i <;> rfl

/-- Every row leaves HANDLE open but those of CREATE. -/
theorem Instr.row_mask (i : Instr) : i.row.mask = if i.opcode % 8 = 1 then 0xFFFFFFFF#32 else 0xFFFF00FF#32 := by
  cases i <;> simp [Instr.row, Instr.opcode]

theorem Instr.handle_create {i : Instr} (h : i.opcode % 8 = 1) : i.handle = 0 := by
  rw [instrOfOp_handle (instrOfOp_opcode_handle i), if_pos h]

/-- Selecting the row of a command and carrying its handle is standing for it. -/
theorem row_selects {w : BitVec 32} {i : Instr} : i.row.selects w ∧ i.handle = handleField w ↔ StandsFor w i := by
  rw [OpcodeRow.selects, i.row_pattern, i.row_mask]
  split_ifs with hc
  · rw [closedMask_selects i.opcode_lt]
    exact ⟨fun ⟨⟨r0, r1, op, _⟩, hh⟩ => ⟨r0, r1, op, hh.symm⟩,
      fun h => ⟨⟨h.rsv0, h.rsv1, h.op, h.handle.trans (Instr.handle_create hc)⟩, h.handle.symm⟩⟩
  · rw [openMask_selects i.opcode_lt]
    exact ⟨fun ⟨⟨r0, r1, op⟩, hh⟩ => ⟨r0, r1, op, hh.symm⟩, fun h => ⟨⟨h.rsv0, h.rsv1, h.op⟩, h.handle.symm⟩⟩

/-- The opcode map holds the rows of the commands that the OP values give, whatever the handle. -/
theorem opcodeTable_eq (h : Nat) : opcodeTable = ((List.range 64).filterMap (instrOfOp · h)).map Instr.row := rfl

theorem mem_opcodeTable (h : Nat) {r : OpcodeRow} :
    r ∈ opcodeTable ↔ ∃ i, (∃ op < 64, instrOfOp op h = some i) ∧ i.row = r := by
  simp [opcodeTable_eq h]

theorem Instr.row_mem (i : Instr) : i.row ∈ opcodeTable :=
  (mem_opcodeTable i.handle).2 ⟨i, ⟨i.opcode, i.opcode_lt, instrOfOp_opcode_handle i⟩, rfl⟩

/-- A word that selects a row selects that of a command with its handle. -/
theorem exists_row {r : OpcodeRow} (hr : r ∈ opcodeTable) {w : BitVec 32} (hs : r.selects w) : ∃ i, StandsFor w i := by
  obtain ⟨i, ⟨op, hop, hi⟩, rfl⟩ := (mem_opcodeTable (handleField w)).1 hr
  refine ⟨i, row_selects.1 ⟨hs, ?_⟩⟩
  rw [instrOfOp_handle hi]
  split_ifs with hc
  · rw [OpcodeRow.selects, i.row_pattern, i.row_mask, instrOfOp_opcode hi, if_pos hc, closedMask_selects hop] at hs
    exact hs.2.2.2.symm
  · rfl

/-! ## Obligations -/

open Laws.Encodes in
/-- The word of every well-formed command selects its row and carries its handle. -/
theorem encodes : ∀ i : Instr, Statement i
  | .create32 => create32
  | .destroy32 h => destroy32 h
  | .next32 h => next32 h
  | .fillraw32 h => fillraw32 h
  | .filluf32 h => filluf32 h
  | .fillbi32 h => fillbi32 h
  | .fillbd32 h => fillbd32 h
  | .create64 => create64
  | .destroy64 h => destroy64 h
  | .next64 h => next64 h
  | .fillraw64 h => fillraw64 h
  | .filluf64 h => filluf64 h
  | .fillbi64 h => fillbi64 h
  | .fillbd64 h => fillbd64 h

/-- Settles O1: the word of a command has the command's fields, and those are all that decoding reads. -/
theorem decodeOfEncodeGivesCommand : Obligations.DecodeOfEncodeGivesCommand := by
  intro i hi
  obtain ⟨hrow, hhandle⟩ := encodes i hi
  exact decode_eq_ok.2 (row_selects.1 ⟨hrow, hhandle.symm⟩)

/-- Settles O2: a word and the word of its command have the same fields. -/
theorem encodeOfDecodeGivesWord : Obligations.EncodeOfDecodeGivesWord := by
  intro w i hd
  have hw := decode_eq_ok.1 hd
  have wf : i.wf := hw.handle.symm.trans_lt (handleField_lt w)
  have he := decode_eq_ok.1 (decodeOfEncodeGivesCommand i wf)
  exact ⟨wf, word_eq_iff.2 ⟨he.rsv0.trans hw.rsv0.symm, he.rsv1.trans hw.rsv1.symm, he.op.trans hw.op.symm,
    he.handle.trans hw.handle.symm⟩⟩

/-- Settles O3: decoding, and selecting the row with the handle, are the same conditions on the fields. -/
theorem wordSelectsItsOpcodeRow : Obligations.WordSelectsItsOpcodeRow :=
  ⟨Instr.row_mem, fun _ _ => decode_eq_ok.trans row_selects.symm⟩

/-- Settles O5: each word is decoded by computation. -/
theorem sampleWordsDecode : Obligations.SampleWordsDecode := by
  unfold Obligations.SampleWordsDecode
  decide

/-- A word is illegal exactly when it selects no row (R103). -/
theorem illegal_iff_no_row {w : BitVec 32} : (∃ e, decode w = .error e) ↔ ∀ r ∈ opcodeTable, ¬ r.selects w := by
  rw [decode_eq_error]
  constructor
  · intro h r hr hs
    obtain ⟨i, hi⟩ := exists_row hr hs
    exact h ⟨i, decode_eq_ok.2 hi⟩
  · rintro h ⟨i, hi⟩
    exact h _ i.row_mem (row_selects.2 (decode_eq_ok.1 hi)).1

/-- The illegal words of R103, field by field. -/
theorem illegal_iff_fields {w : BitVec 32} : (∃ e, decode w = .error e) ↔
    rsv0Field w ≠ 0 ∨ rsv1Field w ≠ 0 ∨ opField w % 8 = 0 ∨ opField w / 8 % 2 = 1 ∨ opField w / 32 % 2 = 1 ∨
      (opField w % 8 = 1 ∧ handleField w ≠ 0) := by
  have assigned := instrOfOp_isSome (opField_lt w) (handleField w)
  simp only [decode_eq_error, decode_eq_ok_iff_instrOfOp]
  cases hi : instrOfOp (opField w) (handleField w) with
  | none =>
    simp only [hi, Option.isSome_none, Bool.false_eq_true, false_iff] at assigned
    simp only [reduceCtorEq, false_and, and_false, exists_false, not_false_eq_true, ne_eq, true_iff]
    omega
  | some i =>
    simp only [hi, Option.isSome_some, true_iff] at assigned
    simp only [Option.some.injEq, exists_and_left, exists_eq_left', instrOfOp_handle hi, ite_eq_right_iff, not_and]
    omega

end Sys2Proof
end

section
/-! PROOFS. The step of a command, of a write to CMD and of a poll (spec 30_encoding.md R103 to R106, R121). -/

namespace Sys2Proof.Machine

/-! ## The engine's step -/

theorem State.engineStep_ok {s : State} {i : Instr} (hp : s.phase = .exec) (hd : decode s.lcmd = .ok i) :
    s.engineStep = exec i s := by
  simp [State.engineStep, hp, hd]

theorem State.engineStep_illegal {s : State} {e : DecodeError} (hp : s.phase = .exec) (hd : decode s.lcmd = .error e) :
    s.engineStep = .next (s.raise .illegal) := by
  simp [State.engineStep, hp, hd]

/-- With nothing scheduled a running command goes on (log 9). -/
theorem step_engine_unscheduled {s : State} (hr : s.resetReq = false) (hs : s.sched = []) (hp : s.phase = .exec) :
    step s = s.engineStep := by
  simp [step_of_sched_nil hr hs, State.autoStep, hp]

/-- Settles O6: the engine's step, scheduled or not, with a word that decodes. -/
theorem stepRunsDecodedCommand : Obligations.StepRunsDecodedCommand := by
  intro s i hr hp hd
  refine ⟨fun hs => ?_, fun evs hs => ?_⟩
  · rw [step_engine_unscheduled hr hs hp, State.engineStep_ok hp hd]
  · rw [step_of_sched_cons hr hs]
    exact State.engineStep_ok (s := { s with sched := evs }) hp hd

/-- Settles O7: the state of the acceptance runs the word that was placed in it. -/
theorem fetchedWordRunsNext : Obligations.FetchedWordRunsNext := by
  intro s w i hd
  refine ⟨s.acceptedNow w, ?_, rfl⟩
  have word : s.withFetchWord 32 w.toNat = s.acceptedNow w := by
    rw [State.withFetchWord, Nat.mod_eq_of_lt w.isLt, BitVec.ofNat_toNat, BitVec.setWidth_eq]
  rw [word]
  exact (stepRunsDecodedCommand (s.acceptedNow w) i rfl rfl hd).1 rfl

/-- Settles O4: the illegal words by rows and by fields, and the engine's step that meets one. -/
theorem illegalWordsAndTheirCompletion : Obligations.IllegalWordsAndTheirCompletion := by
  refine ⟨fun w => illegal_iff_no_row, fun w => illegal_iff_fields, by decide, fun s hr hs hp ⟨e, hd⟩ => ?_,
    fun s evs hr hs hp ⟨e, hd⟩ => ?_⟩
  · rw [step_engine_unscheduled hr hs hp, State.engineStep_illegal hp hd]
    exact ⟨_, rfl, State.complete_endedWith _ _⟩
  · rw [step_of_sched_cons hr hs]
    exact ⟨_, State.engineStep_illegal (s := { s with sched := evs }) hp hd, State.complete_endedWith _ _⟩

/-- Settles O11: completion field by field. -/
theorem completionWritesOnlyStatus : Obligations.CompletionWritesOnlyStatus := by
  intro code s
  refine ⟨s.complete_endedWith code, rfl, rfl, rfl, fun hc => ?_⟩
  rw [State.complete_unseen, State.settledView_coherent hc]

/-! ## Host accesses -/

/-- Host `n` has issued an access and is now `a`, and the schedule's entry for it is used up. -/
def State.hostMoved (n : Nat) (a : HostAgent) (evs : List Event) (s : State) : State :=
  { s with sched := evs, hosts := s.hosts.set n a }

section HostNext

variable {s : State} {n : Nat} {a : HostAgent} {rest : List HostOp} {evs : List Event}

/-- The step in which a host writes to CMD on the bus (10_state.md R42). -/
theorem State.HostNext.step_cmd {v : Word64} (h : s.HostNext n a (.regWrite s.params.regBase 8 v) rest evs) :
    step s = .next ((s.hostMoved n { a with queue := rest } evs).writeCmd v) :=
  h.step_eq.trans <| congrArg _ <|
    State.hostRegWrite_aligned (s.hostMoved n { a with queue := rest } evs) (off := 0) (by decide) rfl v

/-- The step in which a host polls STATUS while a command runs: the poll stays in its queue (R121). -/
theorem State.HostNext.step_poll_exec {op : HostOp} (h : s.HostNext n a op rest evs) (hop : op = .wait ∨ op = .check)
    (hp : s.phase = .exec) :
    step s = .next (s.hostMoved n { a with queue := op :: rest, value := s.status.setWidth 64 } evs) := by
  have stays : ({ a with queue := op :: rest, value := s.status.setWidth 64 } : HostAgent) =
      { a with value := s.status.setWidth 64 } := by rw [← h.queue]
  rw [h.step_eq, stays]
  rcases hop with rfl | rfl <;> exact if_pos (decide_eq_true hp)

theorem State.HostNext.step_wait_idle (h : s.HostNext n a .wait rest evs) (hp : s.phase = .idle) :
    step s = .next (s.hostMoved n { a with queue := rest, value := s.status.setWidth 64 } evs) := by
  rw [h.step_eq]
  exact if_neg (by simp [State.busy, hp])

theorem State.HostNext.step_check_idle (h : s.HostNext n a .check rest evs) (hp : s.phase = .idle) :
    step s = .next (s.hostMoved n
      (if s.err = .ok then { a with queue := rest, value := s.status.setWidth 64 }
        else { a with queue := [], value := s.status.setWidth 64, failed := true }) evs) := by
  rw [h.step_eq]
  refine (if_neg (by simp [State.busy, hp])).trans ?_
  split_ifs <;> rfl

end HostNext

/-- Settles O8: the write to CMD is accepted. -/
theorem cmdWriteWhileIdleIsAccepted : Obligations.CmdWriteWhileIdleIsAccepted := by
  intro s n a v rest evs h hp
  rw [h.step_cmd, State.writeCmd_idle (s := s.hostMoved n { a with queue := rest } evs) hp]
  exact ⟨_, rfl, rfl, rfl, rfl, rfl, rfl, rfl, rfl, rfl, rfl, rfl, rfl, rfl, rfl, rfl, rfl, rfl, rfl⟩

/-- Settles O9: the write to CMD sets OVR. -/
theorem cmdWriteWhileBusyOnlySetsOvr : Obligations.CmdWriteWhileBusyOnlySetsOvr := by
  intro s n a v rest evs h hp
  rw [h.step_cmd, State.writeCmd_exec (s := s.hostMoved n { a with queue := rest } evs) hp]
  rfl

/-- Settles O15: a poll of STATUS by the phase and, for CHECK, the result code. -/
theorem waitPollsUntilNotBusy : Obligations.WaitPollsUntilNotBusy := by
  refine ⟨fun s n a rest evs h => ?_, fun s n a rest evs h => ⟨fun hp => ?_, fun hp he => ?_, fun hp he => ?_⟩⟩
  · rcases s.phase_cases with hp | hp
    · rw [h.step_wait_idle hp, if_neg (by simp [hp])]
      rfl
    · rw [h.step_poll_exec (.inl rfl) hp, if_pos hp]
      rfl
  · exact h.step_poll_exec (.inr rfl) hp
  · rw [h.step_check_idle hp, if_pos he]
    rfl
  · rw [h.step_check_idle hp, if_neg he]
    rfl

end Sys2Proof.Machine
end

section
/-! PROOFS. Termination (spec 30_encoding.md R107): every step of a FILL that does not end it leaves fewer rounds and element writes. -/

namespace Sys2Proof.Machine

/-- The rounds and element writes a FILL has still to do: with `n` elements left and `j` words of the block used, of `b` words a
block, `n` writes and `(n + j - 1) / b` rounds. -/
def Gen.fillLeft {w : Nat} {γ : Type} (g : Gen w γ) (s : State) : Nat :=
  match g.fill s with
  | none => g.roundsFor s.count + s.count
  | some p => (s.count - p.i + p.j - 1) / g.blockLen + (s.count - p.i)

section Fill

variable {w : Nat} {γ : Type}

/-- What the steps of a FILL that go on leave: its count, and how far it is. -/
structure Gen.Progresses (g : Gen w γ) : Prop where
  block_pos : 0 < g.blockLen
  round : ∀ (h n : Nat) (sl : Slot γ w) (s : State), (g.fillRound h sl n s).count = s.count ∧
    g.fill (g.fillRound h sl n s) = some ⟨n, 0, g.round s.params sl.ctr sl.key⟩
  element : ∀ (tr : BitVec w → BitVec w) (p : Fill w) (s : State), (g.elementState tr p s).count = s.count ∧
    g.fill (g.elementState tr p s) = some ⟨p.i + 1, p.j + 1, p.blk⟩

theorem gen32_progresses : gen32.Progresses := ⟨by decide, fun _ _ _ _ => ⟨rfl, rfl⟩, fun _ _ _ => ⟨rfl, rfl⟩⟩

theorem gen64_progresses : gen64.Progresses := ⟨by decide, fun _ _ _ _ => ⟨rfl, rfl⟩, fun _ _ _ => ⟨rfl, rfl⟩⟩

variable {g : Gen w γ} {s t : State} {p : Fill w}

theorem Gen.fillLeft_none (h : g.fill s = none) : g.fillLeft s = g.roundsFor s.count + s.count := by
  simp only [Gen.fillLeft, h]

theorem Gen.fillLeft_some (h : g.fill s = some p) :
    g.fillLeft s = (s.count - p.i + p.j - 1) / g.blockLen + (s.count - p.i) := by
  simp only [Gen.fillLeft, h]

/-- With a whole block used, a round leaves one round less to do. -/
theorem roundsLeft_lt {b n j : Nat} (hb : 0 < b) (hn : 0 < n) (hj : b ≤ j) : (n - 1) / b < (n + j - 1) / b := by
  calc (n - 1) / b < (n - 1) / b + 1 := Nat.lt_succ_self _
    _ = (n - 1 + b) / b := (Nat.add_div_right _ hb).symm
    _ ≤ (n + j - 1) / b := Nat.div_le_div_right (by omega)

/-- A step of a FILL ends the command or leaves less to do. -/
theorem Gen.Progresses.fillStep (hg : g.Progresses) {tr : BitVec w → BitVec w} {h : Nat} (ht : g.fillStep tr h s = .next t) :
    t.phase = .idle ∨ g.fillLeft t < g.fillLeft s := by
  have ends (code : ResultCode) (he : g.fillStep tr h s = .next (s.complete code)) : t.phase = .idle :=
    Host.Outcome.next.inj (ht.symm.trans he) ▸ s.complete_phase code
  rcases g.fillStep_cases tr h s with ⟨-, he⟩ | ⟨sl, -, ⟨-, he⟩ | ⟨-, code, -, he⟩ | ⟨hc, -, ⟨-, he⟩ | ⟨-, hrun⟩⟩⟩
  · exact .inl (ends _ he)
  · exact .inl (ends _ he)
  · exact .inl (ends _ he)
  · cases he.symm.trans ht
  · rcases hrun with ⟨hf, he⟩ | ⟨p, hf, ⟨-, he⟩ | ⟨-, -, -, he⟩ | ⟨more, -, -, he⟩ | ⟨more, used, he⟩⟩
    · cases he.symm.trans ht
      obtain ⟨hcount, hfill⟩ := hg.round h 0 sl s
      rw [Gen.fillLeft_some hfill, hcount, Gen.fillLeft_none hf]
      exact .inr (Nat.add_lt_add_right (roundsLeft_lt hg.block_pos (Nat.pos_of_ne_zero hc) le_rfl) _)
    · exact .inl (ends _ he)
    · cases he.symm.trans ht
    · cases he.symm.trans ht
      obtain ⟨hcount, hfill⟩ := hg.element tr p s
      rw [Gen.fillLeft_some hfill, hcount, Gen.fillLeft_some hf]
      have same : s.count - (p.i + 1) + (p.j + 1) - 1 = s.count - p.i + p.j - 1 := by omega
      simp only [same]
      exact .inr (Nat.add_lt_add_left (by omega) _)
    · cases he.symm.trans ht
      obtain ⟨hcount, hfill⟩ := hg.round h p.i sl s
      rw [Gen.fillLeft_some hfill, hcount, Gen.fillLeft_some hf]
      exact .inr (Nat.add_lt_add_right (roundsLeft_lt hg.block_pos (Nat.sub_pos_of_lt more) used) _)

end Fill

theorem exec_fill32 (s : State) : ∀ i : Instr, i.isFill = true → i.variant = .v32 →
    ∃ tr, exec i s = gen32.fillStep tr i.handle s
  | .fillraw32 _, _, _ | .filluf32 _, _, _ | .fillbi32 _, _, _ | .fillbd32 _, _, _ => ⟨_, rfl⟩

theorem exec_fill64 (s : State) : ∀ i : Instr, i.isFill = true → i.variant = .v64 →
    ∃ tr, exec i s = gen64.fillStep tr i.handle s
  | .fillraw64 _, _, _ | .filluf64 _, _, _ | .fillbi64 _, _, _ | .fillbd64 _, _, _ => ⟨_, rfl⟩

/-- A command executes on a platform whose data memory takes every write. -/
structure State.RunsPlain (s : State) : Prop where
  running : s.phase = .exec
  noDevice : s.params.deviceRegions = []
  noWindow : s.params.windowAt = none

/-- On a platform of plain memory a command each of whose steps ends it or leaves less to do completes. -/
theorem runCommand_completes {i : Instr} {left : State → Nat}
    (less : ∀ s t, exec i s = .next t → t.phase = .idle ∨ left t < left s) (n : Nat) :
    ∀ s : State, s.RunsPlain → left s < n → ∃ t, runCommand n i s = .next t ∧ t.phase = .idle := by
  induction n with
  | zero => exact fun s _ h => absurd h (Nat.not_lt_zero _)
  | succ n ih =>
    intro s hs hn
    obtain ⟨t, ht⟩ := exec_plain hs.noDevice hs.noWindow i
    rcases t.phase_cases with hi | he
    · exact ⟨t, by simp only [runCommand, ht, hi], hi⟩
    · have hless : left t < left s := (less s t ht).resolve_left (by simp [he])
      have hp := (exec_frame ht).params
      obtain ⟨u, hu, hi⟩ := ih t ⟨he, hp ▸ hs.noDevice, hp ▸ hs.noWindow⟩ (by omega)
      exact ⟨u, by simp only [runCommand, ht, he, hu], hi⟩

/-- Settles O32: a FILL leaves less to do in each step, and any other command ends in its first. -/
theorem acceptedCommandsComplete : Obligations.AcceptedCommandsComplete := by
  intro i s hp h32 h64 noDevice noWindow
  have plain : s.RunsPlain := ⟨hp, noDevice, noWindow⟩
  cases hfill : i.isFill with
  | false => exact runCommand_completes (left := fun _ => 0) (fun s t h => .inl (exec_nonFill hfill h).1) 1 s plain one_pos
  | true =>
    cases hv : i.variant with
    | v32 =>
      refine runCommand_completes (left := gen32.fillLeft) (fun s t h => ?_) _ s plain ?_
      · obtain ⟨tr, he⟩ := exec_fill32 s i hfill hv
        exact gen32_progresses.fillStep (he.symm.trans h)
      · rw [Gen.fillLeft_none h32]
        exact Nat.lt_succ_self _
    | v64 =>
      refine runCommand_completes (left := gen64.fillLeft) (fun s t h => ?_) _ s plain ?_
      · obtain ⟨tr, he⟩ := exec_fill64 s i hfill hv
        exact gen64_progresses.fillStep (he.symm.trans h)
      · rw [Gen.fillLeft_none h64]
        exact Nat.lt_succ_self _

end Sys2Proof.Machine
end

section
/-! PROOFS. The assembler (spec 30_encoding.md R110, R120, R121): the accesses of a line, and that the pattern written for a decimal
FILLBD bound denotes its value rounded once (00_scope.md R18), because packing a rounded value and unpacking it gives it back. -/

namespace Sys2Proof.Machine

/-! ## Patterns by their fields -/

/-- The format fills words of `w` bits: sign, exponent and fraction, the exponent with a value for zero and one for infinity left
over. -/
structure FloatFormat.Fills (f : FloatFormat) (w : Nat) : Prop where
  width : f.fracBits + f.expBits + 1 = w
  exps : f.maxExp - f.minExp + 3 = 2 ^ f.expBits

theorem binary32_fills : binary32.Fills 32 := ⟨rfl, rfl⟩

theorem binary64_fills : binary64.Fills 64 := ⟨rfl, rfl⟩

/-- The pattern with the given sign, exponent field and fraction field. -/
def FloatFormat.word (f : FloatFormat) (w : Nat) (neg : Bool) (ex frac : Nat) : BitVec w :=
  BitVec.ofNat w ((if neg then 2 ^ (f.fracBits + f.expBits) else 0) + ex * 2 ^ f.fracBits + frac)

section Word

variable {f : FloatFormat} {w : Nat} {neg : Bool} {ex frac : Nat}

theorem fields_lt {a b x y : Nat} (hx : x < 2 ^ a) (hy : y < 2 ^ b) : y + 2 ^ b * x < 2 ^ b * 2 ^ a :=
  calc y + 2 ^ b * x < 2 ^ b * (x + 1) := by rw [mul_add_one]; omega
    _ ≤ 2 ^ b * 2 ^ a := Nat.mul_le_mul_left _ hx

theorem FloatFormat.Fills.word_toNat (hw : f.Fills w) (hex : ex < 2 ^ f.expBits) (hfrac : frac < 2 ^ f.fracBits) :
    (f.word w neg ex frac).toNat = frac + 2 ^ f.fracBits * (ex + 2 ^ f.expBits * neg.toNat) := by
  have sign : (if neg then 2 ^ (f.fracBits + f.expBits) else 0) = 2 ^ f.fracBits * (2 ^ f.expBits * neg.toNat) := by
    cases neg <;> simp [pow_add]
  have fits : frac + 2 ^ f.fracBits * (ex + 2 ^ f.expBits * neg.toNat) < 2 ^ w := by
    have upper : ex + 2 ^ f.expBits * neg.toNat < 2 ^ (f.expBits + 1) := by
      rw [pow_succ]
      exact fields_lt (a := 1) neg.toNat_lt hex
    rw [← hw.width, add_assoc, pow_add]
    exact fields_lt upper hfrac
  rw [FloatFormat.word, BitVec.toNat_ofNat, sign, Nat.mod_eq_of_lt]
  · ring
  · linarith

/-- Unpacking reads the three fields. -/
theorem FloatFormat.Fills.unpack_word (hw : f.Fills w) (hex : ex < 2 ^ f.expBits) (hfrac : frac < 2 ^ f.fracBits) :
    FloatVal.unpack f (f.word w neg ex frac) =
      if ex = 2 ^ f.expBits - 1 then if frac = 0 then .inf neg else .nan
      else if ex = 0 then .fin neg frac f.minExp
      else .fin neg (2 ^ f.fracBits + frac) (f.minExp + (ex : Int) - 1) := by
  have hfracPart : (f.word w neg ex frac).toNat % 2 ^ f.fracBits = frac := by
    rw [hw.word_toNat hex hfrac, Nat.add_mul_mod_self_left, Nat.mod_eq_of_lt hfrac]
  have hupper : (f.word w neg ex frac).toNat / 2 ^ f.fracBits = ex + 2 ^ f.expBits * neg.toNat := by
    rw [hw.word_toNat hex hfrac, Nat.add_mul_div_left _ _ (by positivity), Nat.div_eq_of_lt hfrac, zero_add]
  have hexPart : (f.word w neg ex frac).toNat / 2 ^ f.fracBits % 2 ^ f.expBits = ex := by
    rw [hupper, Nat.add_mul_mod_self_left, Nat.mod_eq_of_lt hex]
  have hsign : decide ((f.word w neg ex frac).toNat / 2 ^ (f.fracBits + f.expBits) % 2 = 1) = neg := by
    rw [pow_add, ← Nat.div_div_eq_div_mul, hupper, Nat.add_mul_div_left _ _ (by positivity), Nat.div_eq_of_lt hex]
    cases neg <;> rfl
  simp only [FloatVal.unpack, hfracPart, hexPart, hsign]

theorem FloatFormat.Fills.word_msb (hw : f.Fills w) (hex : ex < 2 ^ f.expBits) (hfrac : frac < 2 ^ f.fracBits) :
    (f.word w neg ex frac).msb = neg := by
  rw [BitVec.msb_eq_decide, hw.word_toNat hex hfrac, ← hw.width, Nat.add_sub_cancel, pow_add]
  cases neg with
  | false =>
    rw [decide_eq_false_iff_not, not_le, Bool.toNat_false, mul_zero, add_zero]
    exact fields_lt hex hfrac
  | true =>
    rw [decide_eq_true_iff, Bool.toNat_true, mul_one]
    exact (Nat.mul_le_mul_left _ (Nat.le_add_left _ _)).trans (Nat.le_add_left _ _)

theorem FloatVal.pack_inf : (FloatVal.inf neg).pack w f = f.word w neg (2 ^ f.expBits - 1) 0 := rfl

theorem FloatVal.pack_subnormal {m : Nat} {e : Int} (hm : m < 2 ^ f.fracBits) :
    (FloatVal.fin neg m e).pack w f = f.word w neg 0 m := by
  simp [FloatVal.pack, FloatFormat.word, hm]

theorem FloatVal.pack_normal {m : Nat} {e : Int} (hm : 2 ^ f.fracBits ≤ m) :
    (FloatVal.fin neg m e).pack w f = f.word w neg (e - f.minExp + 1).toNat (m - 2 ^ f.fracBits) := by
  simp [FloatVal.pack, FloatFormat.word, Nat.not_lt.2 hm]

end Word

/-! ## Rounded values -/

theorem div_le_roundDiv (num den : Nat) : num / den ≤ roundDiv num den := by
  simp only [roundDiv]
  split_ifs <;> omega

/-- A rounded value is an infinity or a finite one with the leading bit set or the least exponent. -/
theorem roundTo_canonical (f : FloatFormat) (neg : Bool) (num : Nat) {den : Nat} (hden : 0 < den) (e : Int) :
    roundTo f neg num den e = .inf neg ∨
      ∃ m q, roundTo f neg num den e = .fin neg m q ∧ (m < 2 ^ f.fracBits → q = f.minExp) := by
  obtain rfl | hnum := num.eq_zero_or_pos
  · exact .inr ⟨0, f.minExp, by simp [roundTo], fun _ => rfl⟩
  rw [roundTo, if_neg hnum.ne']
  extract_lets q m
  have leading (hm : m < 2 ^ f.fracBits) : q = f.minExp := by
    by_contra hq
    have hlog : q = floorLog2 num den + e - f.fracBits := (max_choice _ _).resolve_left hq
    have hquot : (2 : ℚ) ^ f.fracBits ≤ (num * 2 ^ (e - q).toNat : ℕ) / (den * 2 ^ (q - e).toNat : ℕ) := by
      rw [← neg_sub e q, shifted_div_eq]
      calc (2 : ℚ) ^ f.fracBits = 2 ^ floorLog2 num den * 2 ^ (e - q) := by
            rw [← zpow_natCast, ← zpow_add₀ two_ne_zero]; congr 1; omega
        _ ≤ num / den * 2 ^ (e - q) := by gcongr; exact (floorLog2_spec hnum hden).1
    have hle : 2 ^ f.fracBits ≤ num * 2 ^ (e - q).toNat / (den * 2 ^ (q - e).toNat) := by
      rw [Nat.le_div_iff_mul_le (by positivity)]
      rw [le_div_iff₀ (by positivity)] at hquot
      exact_mod_cast hquot
    exact absurd (hle.trans (div_le_roundDiv _ _)) (not_le.2 hm)
  split_ifs
  · exact .inr ⟨m, q, rfl, leading⟩
  · exact .inl rfl
  · exact .inr ⟨_, _, rfl, fun h => absurd h (lt_irrefl _)⟩
  · exact .inl rfl

/-- Packing a rounded value and unpacking it gives it back; the pattern has its sign. -/
theorem unpack_pack_roundTo {f : FloatFormat} (hf : f.Proper) {w : Nat} (hw : f.Fills w) (neg : Bool) (num : Nat) {den : Nat}
    (hden : 0 < den) (e : Int) :
    FloatVal.unpack f ((roundTo f neg num den e).pack w f) = roundTo f neg num den e ∧
      ((roundTo f neg num den e).pack w f).msb = neg := by
  have bounds := roundTo_roundsTo hf neg num hden e
  have exps : ((2 ^ f.expBits : ℕ) : ℤ) = f.maxExp - f.minExp + 3 := by rw [hw.exps]; push_cast; rfl
  obtain h | ⟨m, q, h, canonical⟩ := roundTo_canonical f neg num hden e
  · have hex : 2 ^ f.expBits - 1 < 2 ^ f.expBits := by simp
    have hfrac : 0 < 2 ^ f.fracBits := by positivity
    rw [h, FloatVal.pack_inf, hw.unpack_word hex hfrac, if_pos rfl, if_pos rfl]
    exact ⟨rfl, hw.word_msb hex hfrac⟩
  · rw [h] at bounds
    obtain ⟨hm, hmin, hmax, -⟩ := bounds
    rw [h]
    rcases lt_or_ge m (2 ^ f.fracBits) with hlt | hge
    · have hex : 0 < 2 ^ f.expBits := by positivity
      rw [FloatVal.pack_subnormal hlt, hw.unpack_word hex hlt, if_neg (by omega), if_pos rfl, canonical hlt]
      exact ⟨rfl, hw.word_msb hex hlt⟩
    · have hex : (q - f.minExp + 1).toNat < 2 ^ f.expBits := by omega
      have hfrac : m - 2 ^ f.fracBits < 2 ^ f.fracBits := by rw [f.two_pow_prec] at hm; omega
      rw [FloatVal.pack_normal hge, hw.unpack_word hex hfrac, if_neg (by omega), if_neg (by omega), Nat.add_sub_cancel' hge,
        Int.toNat_of_nonneg (by omega)]
      refine ⟨congrArg _ ?_, hw.word_msb hex hfrac⟩
      omega

/-! ## The lines -/

theorem decimal_div_eq (digits : Nat) (e : Int) :
    ((digits * 10 ^ e.toNat : ℕ) : ℚ) / (10 ^ (-e).toNat : ℕ) = digits * 10 ^ e := by
  obtain ⟨n, rfl | rfl⟩ := e.eq_nat_or_neg
  · simp
  · simp [div_eq_mul_inv]

/-- The pattern of a bound is what the text stands for. -/
theorem FloatLit.means_pattern {f : FloatFormat} (hf : f.Proper) {w : Nat} (hw : f.Fills w) (l : FloatLit) :
    l.Means w f ((l.pattern w f).setWidth 64) := by
  cases l with
  | bits n => rfl
  | decimal neg digits e =>
    have hden : 0 < 10 ^ (-e).toNat := by positivity
    obtain ⟨hunpack, hmsb⟩ := unpack_pack_roundTo hf hw neg (digits * 10 ^ e.toNat) hden 0
    refine ⟨_, ?_, hmsb, rfl⟩
    rw [hunpack, mul_assoc, ← decimal_div_eq]
    simpa using roundTo_roundsTo hf neg (digits * 10 ^ e.toNat) hden 0

/-- The word `op | (h << 8)` as the 64-bit value written to CMD. -/
theorem encode_setWidth {i : Instr} (hi : i.wf) :
    (encode i).setWidth 64 = BitVec.ofNat 64 (i.opcode ||| i.handle <<< 8) := by
  have fits : i.opcode ||| i.handle <<< 8 < 2 ^ 16 :=
    Nat.or_lt_two_pow (i.opcode_lt.trans (by decide)) (by rw [Nat.shiftLeft_eq]; omega)
  apply BitVec.eq_of_toNat_eq
  simp only [encode, BitVec.toNat_setWidth, BitVec.toNat_ofNat]
  omega

/-- The expansion of the line of a command (R121). -/
theorem AsmLine.expand_command (p : Params) {l : AsmLine} {i : Instr} (hl : l.instr = some i) (hi : i.wf) :
    l.expand p = l.args.mapIdx (HostOp.arg p) ++ [HostOp.cmd p (i.opcode ||| i.handle <<< 8), .wait] := by
  rw [HostOp.cmd, ← encode_setWidth hi]
  unfold AsmLine.expand
  split
  · cases hl
  · cases hl
  · rw [hl]
    rfl

theorem asmWord_natCast32 (n : Nat) : asmWord .v32 n = (BitVec.ofNat 32 n).setWidth 64 := by
  rw [asmWord, BitVec.ofInt_natCast]

theorem asmWord_natCast64 (n : Nat) : asmWord .v64 n = BitVec.ofNat 64 n := by
  rw [asmWord, BitVec.ofInt_natCast]

theorem asmFloat_v64 (l : FloatLit) : asmFloat .v64 l = (l.pattern 64 binary64).setWidth 64 := (BitVec.setWidth_eq _).symm

/-- Settles O59: each line's command, and what its operands are as 64-bit values. -/
theorem linesExpandToAccesses : Obligations.LinesExpandToAccesses := by
  intro p
  have command {l : AsmLine} {i : Instr} := AsmLine.expand_command p (l := l) (i := i)
  have means32 := FloatLit.means_pattern (FloatFormat.proper_of_mem binary32 (by simp)) binary32_fills
  have means64 := FloatLit.means_pattern (FloatFormat.proper_of_mem binary64 (by simp)) binary64_fills
  refine ⟨rfl, rfl, fun k0 k1 => ?_, fun h hh => command (i := .destroy32 h) rfl hh, fun h hh => command (i := .next32 h) rfl hh,
    fun h b c hh => command (i := .fillraw32 h) rfl hh, fun h b c hh => command (i := .filluf32 h) rfl hh,
    fun h b c mn mx hh => command (i := .fillbi32 h) rfl hh,
    fun h b c mn mx hh => ⟨_, _, means32 mn, means32 mx, command (i := .fillbd32 h) rfl hh⟩,
    fun k0 k1 => ?_, fun h hh => command (i := .destroy64 h) rfl hh, fun h hh => command (i := .next64 h) rfl hh,
    fun h b c hh => command (i := .fillraw64 h) rfl hh, fun h b c hh => command (i := .filluf64 h) rfl hh,
    fun h b c mn mx hh => command (i := .fillbi64 h) rfl hh, fun h b c mn mx hh => ⟨_, _, means64 mn, means64 mx, ?_⟩⟩
  · rw [← asmWord_natCast32, ← asmWord_natCast32]
    exact command (i := .create32) rfl (by decide)
  · rw [← asmWord_natCast64, ← asmWord_natCast64]
    exact command (i := .create64) rfl (by decide)
  · rw [← asmFloat_v64, ← asmFloat_v64]
    exact command (i := .fillbd64 h) rfl hh

end Sys2Proof.Machine
end

section
/-! PROOFS. The two generator datapaths (spec 40_generator.md): rounds as formulas over natural numbers (R132, R140, R145), counters
after `n` rounds (R133, R141), and what follows of blocks and periods (R138, R144, R146). -/

namespace Sys2Proof.Machine

/-! ## The exact product -/

section Product

variable {w : Nat} (a b : BitVec w)

theorem mulFull_toNat : (mulFull a b).toNat = a.toNat * b.toNat := by
  have fits : a.toNat * b.toNat < 2 ^ (w + w) := by
    rw [Nat.pow_add]
    exact Nat.mul_lt_mul'' a.isLt b.isLt
  rw [mulFull, BitVec.toNat_mul, BitVec.toNat_setWidth_of_le (Nat.le_add_left w w), BitVec.toNat_setWidth_of_le (Nat.le_add_left w w),
    Nat.mod_eq_of_lt fits]

theorem loHalf_mulFull : loHalf (mulFull a b) = BitVec.ofNat w (a.toNat * b.toNat % 2 ^ w) := by
  apply BitVec.eq_of_toNat_eq
  rw [loHalf, BitVec.extractLsb'_toNat, mulFull_toNat, Nat.shiftRight_zero, BitVec.toNat_ofNat, Nat.mod_mod]

theorem hiHalf_mulFull : hiHalf (mulFull a b) = BitVec.ofNat w (a.toNat * b.toNat / 2 ^ w) := by
  apply BitVec.eq_of_toNat_eq
  rw [hiHalf, BitVec.extractLsb'_toNat, mulFull_toNat, Nat.shiftRight_eq_div_pow, BitVec.toNat_ofNat]

end Product

/-- Settles O21: the halves of the exact products. -/
theorem roundFormulas : Obligations.RoundFormulas := by
  refine ⟨fun sel c k => ?_, fun c k => ?_⟩
  · cases sel <;> simp only [round32, loHalf_mulFull, hiHalf_mulFull] <;> rfl
  · simp only [round64, loHalf_mulFull, hiHalf_mulFull]
    rfl

/-! ## Counters after `n` rounds -/

theorem advance32_iterate (c : Ctr32) (n : Nat) :
    advance32^[n] c = ⟨c.c0 + BitVec.ofNat 32 n, c.c1 + BitVec.ofNat 32 n, c.c2, c.c3⟩ := by
  induction n with
  | zero => simp
  | succ n ih =>
    rw [Function.iterate_succ_apply', ih]
    simp [advance32, BitVec.ofNat_add, BitVec.add_assoc]

theorem advance64_iterate (c : Ctr64) (n : Nat) : advance64^[n] c = ⟨c.c0 + BitVec.ofNat 64 n, c.c1 + BitVec.ofNat 64 n⟩ := by
  induction n with
  | zero => simp
  | succ n ih =>
    rw [Function.iterate_succ_apply', ih]
    simp [advance64, BitVec.ofNat_add, BitVec.add_assoc]

/-- Below `2^w` rounds, a counter word tells the number of rounds. -/
theorem add_ofNat_inj_of_lt {w m n : Nat} {c : BitVec w} (hm : m < 2 ^ w) (hn : n < 2 ^ w)
    (h : c + BitVec.ofNat w m = c + BitVec.ofNat w n) : m = n := by
  have words : BitVec.ofNat w m = BitVec.ofNat w n := add_left_cancel h
  simpa [Nat.mod_eq_of_lt hm, Nat.mod_eq_of_lt hn] using congrArg BitVec.toNat words

theorem ofNat_add_two_pow (w n : Nat) : BitVec.ofNat w (n + 2 ^ w) = BitVec.ofNat w n := by
  apply BitVec.eq_of_toNat_eq
  simp

/-- Settles O25: word 0 alone does not repeat, and a word wraps after `2^W` rounds. -/
theorem counterPeriodIsOneWord : Obligations.CounterPeriodIsOneWord := by
  refine ⟨fun c m n hm hn h0 _ => ?_, fun c n => ?_, fun c m n hm hn h0 _ => ?_, fun c n => ?_⟩
  · rw [advance32_iterate, advance32_iterate] at h0
    exact add_ofNat_inj_of_lt hm hn h0
  · rw [advance32_iterate, advance32_iterate, ofNat_add_two_pow]
  · rw [advance64_iterate, advance64_iterate] at h0
    exact add_ofNat_inj_of_lt hm hn h0
  · rw [advance64_iterate, advance64_iterate, ofNat_add_two_pow]

/-! ## Blocks since CREATE -/

theorem ofNat_mod_two_pow (w n : Nat) : BitVec.ofNat w (n % 2 ^ w) = BitVec.ofNat w n := by
  apply BitVec.eq_of_toNat_eq
  simp

/-- The initial word 0 after `n` rounds, and word 1 behind it by one (10_state.md R34). -/
theorem initial_words_advanced (w n : Nat) :
    (1 : BitVec w) + BitVec.ofNat w n = BitVec.ofNat w (1 + n) ∧ (0 : BitVec w) + BitVec.ofNat w n = BitVec.ofNat w (1 + n) - 1 := by
  rw [BitVec.ofNat_add]
  exact ⟨rfl, by rw [zero_add]; exact (add_sub_cancel_left _ _).symm⟩

theorem advance32_iterate_init (n : Nat) :
    advance32^[n] initCtr32 = ⟨BitVec.ofNat 32 (1 + n), BitVec.ofNat 32 (1 + n) - 1, 0, 0⟩ := by
  obtain ⟨word0, word1⟩ := initial_words_advanced 32 n
  simp only [advance32_iterate, initCtr32, word0, word1]

theorem advance64_iterate_init (n : Nat) : advance64^[n] initCtr64 = ⟨BitVec.ofNat 64 (1 + n), BitVec.ofNat 64 (1 + n) - 1⟩ := by
  obtain ⟨word0, word1⟩ := initial_words_advanced 64 n
  simp only [advance64_iterate, initCtr64, word0, word1]

/-- Words 2 and 3 of a block whose counter words 2 and 3 are 0 (40_generator.md R136). -/
theorem round32_degenerate {c : Ctr32} (h2 : c.c2 = 0) (h3 : c.c3 = 0) (sel : OutSelect) (k : Key 32) :
    (round32 sel c k)[2]? = some k.k1 ∧ (round32 sel c k)[3]? = some 0 := by
  simp [round32, loHalf_mulFull, hiHalf_mulFull, h2, h3]

/-- Settles O24: the round formulas on the counter after `n` rounds. -/
theorem closedFormOfNthBlock : Obligations.ClosedFormOfNthBlock := by
  obtain ⟨formula32, formula64⟩ := roundFormulas
  refine ⟨fun n k => ?_, fun n k => ?_⟩
  · rw [advance32_iterate_init, formula32]
    simp only [BitVec.toNat_ofNat, ofNat_mod_two_pow]
    simp
  · simp only [advance64_iterate_init, formula64, BitVec.toNat_ofNat, ofNat_mod_two_pow]

end Sys2Proof.Machine
end

section
/-! PROOFS. The rounds that commands compute (spec 40_generator.md R135, R136, R143, R147; 42_kernels.md R181): NEXT puts one into RES,
a FILL into its block, each of the live slot's counter and key. -/

namespace Sys2Proof.Machine

section Rounds

variable {w : Nat} {γ : Type} {g : Gen w γ} {h : Nat} {s : State} {sl : Slot γ w}

theorem Gen.next_live (live : g.liveSlot h s = some sl) :
    g.next h s = .next ((g.advanceSlot h sl s).succeedWith (blockRes (g.round s.params sl.ctr sl.key))) := by
  simp only [Gen.next, live]

theorem Gen.FillReady.first_round (ready : g.FillReady h sl s) (tr : BitVec w → BitVec w) (hf : g.fill s = none) :
    g.fillStep tr h s = .next (g.fillRound h sl 0 s) := by
  obtain ⟨live, count, buffer, window⟩ := ready.checks
  simp [Gen.fillStep, live, count, buffer, window, hf]

theorem Gen.FillReady.further_round (ready : g.FillReady h sl s) (tr : BitVec w → BitVec w) {p : Fill w} (hf : g.fill s = some p)
    (more : p.i < s.count) (used : g.blockLen ≤ p.j) : g.fillStep tr h s = .next (g.fillRound h sl p.i s) := by
  obtain ⟨live, count, buffer, window⟩ := ready.checks
  simp [Gen.fillStep, live, count, buffer, window, hf, Nat.not_le.2 more, Nat.not_lt.2 used]

end Rounds

theorem exec_next32_live {s : State} {h : Nat} {sl : Slot Ctr32 32} (live : s.live32 h sl) :
    exec (.next32 h) s =
      .next ((gen32.advanceSlot h sl s).succeedWith (blockRes (round32 s.params.g32Out1 sl.ctr sl.key))) :=
  Gen.next_live (State.live32_iff.1 live)

/-- A block of Generator-64 leaves RES2 and RES3 0 (30_encoding.md R112). -/
theorem blockRes_pair (x y : Word64) : blockRes [x, y] = ⟨x, y, 0, 0⟩ := by
  simp [blockRes]

theorem exec_next64_live {s : State} {h : Nat} {sl : Slot Ctr64 64} (live : s.live64 h sl) :
    exec (.next64 h) s = .next ((gen64.advanceSlot h sl s).succeedWith (blockRes (round64 sl.ctr sl.key))) :=
  Gen.next_live (State.live64_iff.1 live)

/-- Settles O22: NEXT of Generator-32, its round by the formulas. -/
theorem next32DrawsOneBlock : Obligations.Next32DrawsOneBlock := by
  intro s h sl live
  have ⟨_, _, _, on⟩ := live
  rw [exec_next32_live live, roundFormulas.1, ← on]
  rfl

/-- Settles O23: NEXT of Generator-64, its round by the formulas. -/
theorem next64DrawsOneBlock : Obligations.Next64DrawsOneBlock := by
  intro s h sl live
  have ⟨_, _, _, on⟩ := live
  rw [exec_next64_live live, roundFormulas.2, blockRes_pair, ← on]
  rfl

/-- Settles O26: the invariant has words 2 and 3 of a live slot's counter 0. -/
theorem degenerateLaneOfLiveSlots : Obligations.DegenerateLaneOfLiveSlots := by
  intro s h sl inv live
  have ⟨_, _, hsl, on⟩ := live
  obtain ⟨h2, h3, -⟩ := inv.slots32_ok sl (List.mem_of_getElem? hsl) on
  obtain ⟨word2, word3⟩ := round32_degenerate h2 h3 s.params.g32Out1 sl.key
  refine ⟨⟨_, exec_next32_live live, ?_, ?_⟩, fun k hk ready progress => ?_⟩
  · simp [blockRes, word2]
  · simp [blockRes, word3]
  · rw [exec_kernels32 hk]
    rcases progress with hf | ⟨p, hf, more, used⟩
    · exact ⟨_, _, ready.first_round _ hf, rfl, word2, word3⟩
    · exact ⟨_, _, ready.further_round _ hf more used, rfl, word2, word3⟩

/-- Settles O40: the round that NEXT and the first step of a FILL compute is of the slot's counter and key. -/
theorem blocksDependOnCounterAndKeyAlone : Obligations.BlocksDependOnCounterAndKeyAlone := by
  refine ⟨fun s s' t t' h h' sl out1 live live' => ⟨fun ht ht' => ?_, fun k hk ready ready' hf hf' ht ht' => ?_⟩,
    fun s s' t t' h h' sl live live' => ⟨fun ht ht' => ?_, fun k hk ready ready' hf hf' ht ht' => ?_⟩⟩
  · cases (exec_next32_live live).symm.trans ht
    cases (exec_next32_live live').symm.trans ht'
    simp [out1]
  · rw [exec_kernels32 hk] at ht ht'
    cases (ready.first_round _ hf).symm.trans ht
    cases (ready'.first_round _ hf').symm.trans ht'
    simp [out1]
  · cases (exec_next64_live live).symm.trans ht
    cases (exec_next64_live live').symm.trans ht'
    rfl
  · rw [exec_kernels64 hk] at ht ht'
    cases (ready.first_round _ hf).symm.trans ht
    cases (ready'.first_round _ hf').symm.trans ht'
    rfl

end Sys2Proof.Machine
end

section
/-! PROOFS. The life of a slot (spec 41_lifecycle.md R162 to R167): CREATE fills the lowest-numbered free one, DESTROY clears LIVE
of the one its handle names. -/

namespace Sys2Proof.Machine

section Lifecycle

variable {w : Nat} {γ : Type} {g : Gen w γ} {h : Nat} {s : State} {sl : Slot γ w}

theorem Gen.create_free (free : g.freeHandle s = some h) :
    g.create s =
      .next ((g.setSlot h ⟨true, g.initCtr, ⟨s.seed0 w, s.seed1 w⟩⟩ s).succeedWith ⟨BitVec.ofNat 64 h, 0, 0, 0⟩) := by
  simp only [Gen.create, free]

/-- A live handle is not the null one, so DESTROY of it is no no-op (41_lifecycle.md R166, R167). -/
theorem Gen.destroy_live (live : g.liveSlot h s = some sl) :
    g.destroy h s = .next (g.setSlot h { sl with live := false } s).succeed := by
  obtain ⟨positive, -⟩ := (Gen.liveSlot_eq_some g).1 live
  simp only [Gen.destroy, Nat.one_le_iff_ne_zero.1 positive, if_false, live]

end Lifecycle

/-- Settles O19: the handle CREATE takes is `h`. -/
theorem createFillsLowestFreeSlot : Obligations.CreateFillsLowestFreeSlot := by
  refine ⟨fun s h positive inRange free lowest => ?_, fun s h positive inRange free lowest => ?_⟩
  · exact Gen.create_free ((Gen.freeHandle_eq_some gen32).2 ⟨positive, inRange, free, lowest⟩)
  · exact Gen.create_free ((Gen.freeHandle_eq_some gen64).2 ⟨positive, inRange, free, lowest⟩)

/-- Settles O20: completion, and what hosts see at it, do not depend on the slots. -/
theorem destroyClearsOnlyLive : Obligations.DestroyClearsOnlyLive := by
  refine ⟨fun s h sl live => ?_, fun s h sl live => ?_⟩
  · exact Gen.destroy_live (State.live32_iff.1 live)
  · exact Gen.destroy_live (State.live64_iff.1 live)

end Sys2Proof.Machine
end

section
/-! PROOFS. One engine step of a FILL (spec 42_kernels.md R181): a round, an element write or the completion, by how far it is;
and what such a step leaves unchanged (R186). -/

namespace Sys2Proof.Machine

section FillStep

variable {w : Nat} {γ : Type} {g : Gen w γ} {h : Nat} {s : State} {sl : Slot γ w} {p : Fill w}

theorem Gen.FillReady.completes (ready : g.FillReady h sl s) (tr : BitVec w → BitVec w) (hf : g.fill s = some p)
    (done : s.count ≤ p.i) : g.fillStep tr h s = .next s.succeed := by
  obtain ⟨live, count, buffer, window⟩ := ready.checks
  simp [Gen.fillStep, live, count, buffer, window, hf, done]

theorem Gen.FillReady.writes (ready : g.FillReady h sl s) (tr : BitVec w → BitVec w) (hf : g.fill s = some p)
    (more : p.i < s.count) (word : p.j < g.blockLen)
    (taken : s.params.refuses (s.base + p.i * g.elemBytes) g.elemBytes = false) :
    g.fillStep tr h s = .next (g.elementState tr p s) := by
  obtain ⟨live, count, buffer, window⟩ := ready.checks
  simp [Gen.fillStep, Gen.fillElement, Gen.elementState, Gen.elemAddr, live, count, buffer, window, hf, Nat.not_le.2 more, word,
    taken]

end FillStep

/-- Settles O27: by the progress there is, and a live slot stays live. -/
theorem fillComputesRoundsAndCompletes : Obligations.FillComputesRoundsAndCompletes := by
  refine ⟨fun k hk h s sl ready hf => ?_, fun k hk h s sl ready hf => ?_,
    fun k hk h s sl p ready hf => ⟨fun more used => ?_, fun done => ?_⟩,
    fun k hk h s sl p ready hf => ⟨fun more used => ?_, fun done => ?_⟩⟩
  · rw [exec_kernels32 hk, ready.first_round _ hf, ← ready.live]
    rfl
  · rw [exec_kernels64 hk, ready.first_round _ hf, ← ready.live]
    rfl
  · rw [exec_kernels32 hk, ready.further_round _ hf more used, ← ready.live]
    rfl
  · rw [exec_kernels32 hk, ready.completes _ hf done]
    rfl
  · rw [exec_kernels64 hk, ready.further_round _ hf more used, ← ready.live]
    rfl
  · rw [exec_kernels64 hk, ready.completes _ hf done]
    rfl

/-! ## The element write -/

/-- What an element write with byte `b` for an address leaves there: the host's byte where one has won it (20_memory.md R84). -/
def storedByte (races : List Race) (x : Nat) (b : Byte) : Byte :=
  match raceAt races x with
  | some r => if r.wins then r.host else b
  | none => b

section Element

variable {w : Nat} (n a : Nat) (v : BitVec w)

theorem leBytes_map_some : (leBytes n v).map some = (List.range n).map fun k => some (v.extractLsb' (8 * k) 8) :=
  List.map_map

theorem Race.meet_leBytes :
    Race.meet a (leBytes n v) = fun r =>
      if a ≤ r.addr ∧ r.addr < a + n then { r with engine := some (v.extractLsb' (8 * (r.addr - a)) 8) } else r := by
  funext r
  rw [Race.meet, leBytes_length]
  split
  next inside =>
    have hk : r.addr - a < (leBytes n v).length := by rw [leBytes_length]; omega
    rw [List.getElem?_eq_getElem hk, leBytes_getElem]
  next => rfl

theorem Memory.get_element_inside (m : Memory) (races : List Race) {k : Nat} (hk : k < n) :
    (m.setBytes a (keepHostWins races a (leBytes n v))).get (a + k) =
      some (storedByte races (a + k) (v.extractLsb' (8 * k) 8)) := by
  have inside : k < (keepHostWins races a (leBytes n v)).length := by rwa [keepHostWins_length, leBytes_length]
  rw [Memory.get_setBytes_inside _ _ _ _ inside, keepHostWins_getElem, leBytes_getElem]
  rfl

theorem Memory.get_element_outside (m : Memory) (races : List Race) {x : Nat} (hx : x < a ∨ a + n ≤ x) :
    (m.setBytes a (keepHostWins races a (leBytes n v))).get x = m.get x :=
  Memory.get_setBytes_outside _ _ _ _ (by rwa [keepHostWins_length, leBytes_length])

end Element

/-- The element write of a FILL that is ready stores the transform of the word it has come to. -/
theorem Gen.FillReady.writes_word {w : Nat} {γ : Type} {g : Gen w γ} {h : Nat} {s : State} {sl : Slot γ w} {p : Fill w}
    {x : BitVec w} (ready : g.FillReady h sl s) (tr : BitVec w → BitVec w) (hf : g.fill s = some p) (more : p.i < s.count)
    (word : p.j < g.blockLen) (hx : p.blk[p.j]? = some x)
    (taken : s.params.refuses (s.base + p.i * g.elemBytes) g.elemBytes = false) :
    g.fillStep tr h s = .next (g.withFill (some ⟨p.i + 1, p.j + 1, p.blk⟩) { s with
      mem := s.mem.setBytes (s.base + p.i * g.elemBytes)
        (keepHostWins s.races (s.base + p.i * g.elemBytes) (leBytes g.elemBytes (tr x)))
      unseen := s.unseen ++ [⟨s.base + p.i * g.elemBytes,
        (List.range g.elemBytes).map fun k => some ((tr x).extractLsb' (8 * k) 8), false⟩]
      races := s.races.map fun r =>
        if s.base + p.i * g.elemBytes ≤ r.addr ∧ r.addr < s.base + p.i * g.elemBytes + g.elemBytes then
          { r with engine := some ((tr x).extractLsb' (8 * (r.addr - (s.base + p.i * g.elemBytes))) 8) }
        else r }) := by
  have hblk : p.blk.getD p.j 0 = x := by rw [List.getD_eq_getElem?_getD, hx, Option.getD_some]
  rw [ready.writes tr hf more word taken, Gen.elementState, hblk, leBytes_map_some, Race.meet_leBytes]
  rfl

/-- Settles O28: the bytes stored, the youngest unseen write and the races met are those of the element. -/
theorem fillWritesElement : Obligations.FillWritesElement := by
  refine ⟨fun k hk h s sl p x ready hf more word hx taken => ?_, fun k hk h s sl p x ready hf more word hx taken => ?_,
    fun _ => rfl, fun _ => rfl⟩
  · exact ⟨_, (exec_kernels32 hk h s).trans (ready.writes_word _ hf more word hx taken),
      fun b hb => Memory.get_element_inside 4 _ _ _ _ hb, fun a ha => Memory.get_element_outside 4 _ _ _ _ ha, rfl⟩
  · exact ⟨_, (exec_kernels64 hk h s).trans (ready.writes_word _ hf more word hx taken),
      fun b hb => Memory.get_element_inside 8 _ _ _ _ hb, fun a ha => Memory.get_element_outside 8 _ _ _ _ ha, rfl⟩

/-! ## The frame of a step -/

theorem exec_fill_res_err {i : Instr} {s t : State} (fill : i.isFill = true) (h : exec i s = .next t) :
    t.res = s.res ∧ (t.phase = .idle ∨ t.err = s.err) := by
  rcases exec_does h with ⟨-, op, hd, rfl, -⟩ | ⟨-, op, hd, rfl, -⟩
  all_goals
    cases hd with
    | ends => exact ⟨rfl, .inl rfl⟩
    | rounds | writes => exact ⟨rfl, .inr rfl⟩
    | creates _ _ hi => rcases hi with rfl | rfl <;> cases fill
    | draws _ hi => obtain ⟨_, rfl | rfl⟩ := hi <;> cases fill
    | destroys => exact ⟨rfl, .inl rfl⟩

/-- What a step of a command of the variant can do to memory: nothing, or the running FILL writes its next element. -/
def Gen.StoresNext {w : Nat} {γ : Type} (g : Gen w γ) (s : State) (m : Memory) : Prop :=
  m = s.mem ∨ ∃ p bytes, g.fill s = some p ∧ p.i < s.count ∧ p.j < g.blockLen ∧ bytes.length = g.elemBytes ∧
    m = s.mem.setBytes (s.base + p.i * g.elemBytes) bytes

/-- The bytes of memory that a step of a FILL cannot reach. -/
theorem Gen.StoresNext.get {w : Nat} {γ : Type} {g : Gen w γ} {s : State} {m : Memory} (h : g.StoresNext s m) :
    (g.fill s = none → ∀ a, m.get a = s.mem.get a) ∧
      ∀ p, g.fill s = some p →
        (∀ a, a < s.base + p.i * g.elemBytes ∨ s.base + p.i * g.elemBytes + g.elemBytes ≤ a → m.get a = s.mem.get a) ∧
        (s.count ≤ p.i ∨ g.blockLen ≤ p.j → ∀ a, m.get a = s.mem.get a) := by
  rcases h with rfl | ⟨q, bytes, hq, more, word, length, rfl⟩
  · exact ⟨fun _ _ => rfl, fun _ _ => ⟨fun _ _ => rfl, fun _ _ => rfl⟩⟩
  · refine ⟨fun hf => (nomatch hq.symm.trans hf), fun p hf => ?_⟩
    cases hq.symm.trans hf
    exact ⟨fun a ha => Memory.get_setBytes_outside _ _ _ _ (by rwa [length]), fun spent => by omega⟩

theorem exec_stores32 {i : Instr} {s t : State} (hv : i.variant = .v32) (h : exec i s = .next t) : gen32.StoresNext s t.mem := by
  rcases exec_does h with ⟨-, op, hd, rfl, -⟩ | ⟨other, -⟩
  · cases hd with
    | writes _ p _ progress more word =>
      exact .inr ⟨p, _, progress, more, word, (keepHostWins_length _ _ _).trans (leBytes_length _ _), rfl⟩
    | ends | creates | destroys | draws | rounds => exact .inl rfl
  · cases hv.symm.trans other

theorem exec_stores64 {i : Instr} {s t : State} (hv : i.variant = .v64) (h : exec i s = .next t) : gen64.StoresNext s t.mem := by
  rcases exec_does h with ⟨other, -⟩ | ⟨-, op, hd, rfl, -⟩
  · cases hv.symm.trans other
  · cases hd with
    | writes _ p _ progress more word =>
      exact .inr ⟨p, _, progress, more, word, (keepHostWins_length _ _ _).trans (leBytes_length _ _), rfl⟩
    | ends | creates | destroys | draws | rounds => exact .inl rfl

theorem kernels32_fill {k : (Nat → Instr) × (State → Word32 → Word32)} (hk : k ∈ kernels32) (h : Nat) :
    (k.1 h).isFill = true ∧ (k.1 h).variant = .v32 := by
  simp only [kernels32, List.mem_cons, List.not_mem_nil, or_false] at hk
  rcases hk with rfl | rfl | rfl | rfl <;> exact ⟨rfl, rfl⟩

theorem kernels64_fill {k : (Nat → Instr) × (State → Word64 → Word64)} (hk : k ∈ kernels64) (h : Nat) :
    (k.1 h).isFill = true ∧ (k.1 h).variant = .v64 := by
  simp only [kernels64, List.mem_cons, List.not_mem_nil, or_false] at hk
  rcases hk with rfl | rfl | rfl | rfl <;> exact ⟨rfl, rfl⟩

/-- Settles O35: the frame of every command, and of memory but the next element. -/
theorem fillStepFrame : Obligations.FillStepFrame := by
  refine ⟨fun k hk h s t ht => ?_, fun k hk h s t ht => ?_⟩
  · obtain ⟨fill, variant⟩ := kernels32_fill hk h
    obtain ⟨params, lcmd, larg, arg, ovr, hosts, sched, resetReq⟩ := exec_frame ht
    obtain ⟨res, err⟩ := exec_fill_res_err fill ht
    exact ⟨res, arg, larg, lcmd, ovr, params, hosts, sched, resetReq, err, (exec_stores32 variant ht).get⟩
  · obtain ⟨fill, variant⟩ := kernels64_fill hk h
    obtain ⟨params, lcmd, larg, arg, ovr, hosts, sched, resetReq⟩ := exec_frame ht
    obtain ⟨res, err⟩ := exec_fill_res_err fill ht
    exact ⟨res, arg, larg, lcmd, ovr, params, hosts, sched, resetReq, err, (exec_stores64 variant ht).get⟩

end Sys2Proof.Machine
end

section
/-! PROOFS. A whole FILL that races with nothing (spec 42_kernels.md R181, R183, R185, R186): the states it goes through are
written out, one for each number of rounds and of words used of the last block, and its last one is read off. -/

namespace Sys2Proof.Machine

/-! ## Commands that keep a predicate -/

/-- A command whose every step from a state in `P` leads to one in `P` with less to do, or ends it in one in `Q`, ends in `Q`. -/
theorem runCommand_reaches {i : Instr} {left : State → Nat} {P Q : State → Prop}
    (less : ∀ s t, exec i s = .next t → t.phase = .idle ∨ left t < left s)
    (next : ∀ s, P s → ∃ t, exec i s = .next t ∧ (t.phase = .exec ∧ P t ∨ t.phase = .idle ∧ Q t)) (n : Nat) :
    ∀ s, P s → left s < n → ∃ t, runCommand n i s = .next t ∧ Q t := by
  induction n with
  | zero => exact fun s _ h => absurd h (Nat.not_lt_zero _)
  | succ n ih =>
    intro s hs hn
    obtain ⟨t, ht, ⟨he, hP⟩ | ⟨hi, hQ⟩⟩ := next s hs
    · have hless : left t < left s := (less s t ht).resolve_left (by simp [he])
      obtain ⟨u, hu, hQ⟩ := ih t hP (by omega)
      exact ⟨u, by simp only [runCommand, ht, he, hu], hQ⟩
    · exact ⟨t, by simp only [runCommand, ht, hi], hQ⟩

/-! ## The elements in memory -/

theorem Params.refuses_part {p : Params} {a n b k : Nat} (h : p.refuses a n = false) (hab : a ≤ b) (hend : b + k ≤ a + n) :
    p.refuses b k = false := by
  rw [Params.refuses, List.any_eq_false] at h ⊢
  intro r hr hmeet
  obtain ⟨x, hx, hxr⟩ := (rangesMeet_iff _ _ _ _).1 hmeet
  exact h r hr ((rangesMeet_iff _ _ _ _).2 ⟨x, by omega, hxr⟩)

section Elements

variable {w : Nat} {γ : Type} (g : Gen w γ) (e : Nat → BitVec w) (base : Nat)

/-- Memory once the elements `e 0` to `e (n - 1)` are written. -/
def Gen.memAfter (m : Memory) : Nat → Memory
  | 0 => m
  | n + 1 => (Gen.memAfter m n).setBytes (base + n * g.elemBytes) (leBytes g.elemBytes (e n))

/-- The write of element `i` while hosts do not see it. -/
def Gen.elementWrite (ended : Bool) (i : Nat) : Unseen :=
  ⟨base + i * g.elemBytes, (List.range g.elemBytes).map fun b => some ((e i).extractLsb' (8 * b) 8), ended⟩

/-- The unseen writes once the elements `e 0` to `e (n - 1)` are written. -/
def Gen.unseenAfter (l : List Unseen) (n : Nat) : List Unseen := l ++ (List.range n).map (g.elementWrite e base false)

theorem Gen.unseenAfter_succ (l : List Unseen) (n : Nat) :
    g.unseenAfter e base l (n + 1) = g.unseenAfter e base l n ++ [g.elementWrite e base false n] := by
  simp [Gen.unseenAfter, List.range_succ]

variable {g e base}

theorem Gen.elem_end_le {i n : Nat} (h : i < n) : base + i * g.elemBytes + g.elemBytes ≤ base + n * g.elemBytes := by
  rw [add_assoc, ← Nat.succ_mul]
  exact Nat.add_le_add_left (Nat.mul_le_mul_right _ h) _

theorem Gen.memAfter_get_inside (m : Memory) {n i b : Nat} (hi : i < n) (hb : b < g.elemBytes) :
    (g.memAfter e base m n).get (base + i * g.elemBytes + b) = some ((e i).extractLsb' (8 * b) 8) := by
  induction n with
  | zero => exact absurd hi (Nat.not_lt_zero _)
  | succ n ih =>
    have length := leBytes_length g.elemBytes (e n)
    rw [Gen.memAfter]
    rcases Nat.lt_succ_iff_lt_or_eq.1 hi with hlt | rfl
    · have below := Gen.elem_end_le (g := g) (base := base) hlt
      rw [Memory.get_setBytes_outside _ _ _ _ (by omega), ih hlt]
    · rw [Memory.get_setBytes_inside _ _ _ _ (by omega), leBytes_getElem]

theorem Gen.memAfter_get_outside (m : Memory) {n a : Nat} (ha : a < base ∨ base + n * g.elemBytes ≤ a) :
    (g.memAfter e base m n).get a = m.get a := by
  induction n with
  | zero => rfl
  | succ n ih =>
    have last := Gen.elem_end_le (g := g) (base := base) n.lt_add_one
    have length := leBytes_length g.elemBytes (e n)
    rw [Gen.memAfter, Memory.get_setBytes_outside _ _ _ _ (by omega), ih (by omega)]

/-- At the end of the command the elements stand behind the older unseen writes. -/
theorem Gen.unseenAfter_atEnd (l : List Unseen) (n : Nat) :
    (g.unseenAfter e base l n).map (fun u => (⟨u.addr, u.bytes, true⟩ : Unseen)) =
      (l.map fun u => ⟨u.addr, u.bytes, true⟩) ++ (List.range n).map (g.elementWrite e base true) := by
  rw [Gen.unseenAfter, List.map_append, List.map_map]
  rfl

end Elements

/-! ## The states of a FILL -/

section Fill

variable {w : Nat} {γ : Type}

/-- State `s` with what a FILL that races with nothing changes. -/
def Gen.during (g : Gen w γ) (l : List (Slot γ w)) (f : Option (Fill w)) (m : Memory) (u : List Unseen) (s : State) : State :=
  g.withFill f (g.withSlots l { s with mem := m, unseen := u, races := [] })

/-- The slots and the fill progress of the variant are fields of the state of their own. -/
structure Gen.Fields (g : Gen w γ) : Prop where
  params : ∀ l f m u s, (g.during l f m u s).params = s.params
  larg : ∀ l f m u s, (g.during l f m u s).larg = s.larg
  phase : ∀ l f m u s, (g.during l f m u s).phase = s.phase
  slots : ∀ l f m u s, g.slots (g.during l f m u s) = l
  fill : ∀ l f m u s, g.fill (g.during l f m u s) = f
  view : ∀ l f m u s, (g.during l f m u s).mem = m ∧ (g.during l f m u s).unseen = u ∧ (g.during l f m u s).seen = s.seen ∧
    (g.during l f m u s).races = []
  self : ∀ s : State, s.races = [] → g.during (g.slots s) (g.fill s) s.mem s.unseen s = s
  round : ∀ h sl i l f m u s, g.fillRound h sl i (g.during l f m u s) =
    g.during (l.set (h - 1) { sl with ctr := g.advance sl.ctr })
      (some ⟨i, 0, g.round s.params sl.ctr sl.key⟩) m u s
  element : ∀ tr p l f m u s, g.elementState tr p (g.during l f m u s) =
    g.during l (some ⟨p.i + 1, p.j + 1, p.blk⟩)
      (m.setBytes (s.base + p.i * g.elemBytes)
        (keepHostWins [] (s.base + p.i * g.elemBytes) (leBytes g.elemBytes (tr (p.blk.getD p.j 0)))))
      (u ++ [⟨s.base + p.i * g.elemBytes, (leBytes g.elemBytes (tr (p.blk.getD p.j 0))).map some, false⟩]) s

theorem gen32_fields : gen32.Fields where
  params _ _ _ _ _ := rfl
  larg _ _ _ _ _ := rfl
  phase _ _ _ _ _ := rfl
  slots _ _ _ _ _ := rfl
  fill _ _ _ _ _ := rfl
  view _ _ _ _ _ := ⟨rfl, rfl, rfl, rfl⟩
  self s hr := by cases s; cases hr; rfl
  round _ _ _ _ _ _ _ _ := rfl
  element _ _ _ _ _ _ _ := rfl

theorem gen64_fields : gen64.Fields where
  params _ _ _ _ _ := rfl
  larg _ _ _ _ _ := rfl
  phase _ _ _ _ _ := rfl
  slots _ _ _ _ _ := rfl
  fill _ _ _ _ _ := rfl
  view _ _ _ _ _ := ⟨rfl, rfl, rfl, rfl⟩
  self s hr := by cases s; cases hr; rfl
  round _ _ _ _ _ _ _ _ := rfl
  element _ _ _ _ _ _ _ := rfl

/-- The slots after `n` rounds of the FILL of slot `sl` with handle `h`. -/
def Gen.slotsAfter (g : Gen w γ) (h : Nat) (sl : Slot γ w) (n : Nat) (s : State) : List (Slot γ w) :=
  (g.slots s).set (h - 1) ⟨true, g.counterAfter n sl.ctr, sl.key⟩

/-- The state of a FILL from `s` with `n` elements written after `r` rounds. -/
def Gen.filled (g : Gen w γ) (tr : BitVec w → BitVec w) (h : Nat) (sl : Slot γ w) (s : State) (r n : Nat) (f : Option (Fill w)) :
    State :=
  g.during (g.slotsAfter h sl r s) f (g.memAfter (g.element tr s.params sl.ctr sl.key) s.base s.mem n)
    (g.unseenAfter (g.element tr s.params sl.ctr sl.key) s.base s.unseen n) s

/-- The state of a FILL from `s` with `j` words used of the block after `q` others. -/
def Gen.midFill (g : Gen w γ) (tr : BitVec w → BitVec w) (h : Nat) (sl : Slot γ w) (s : State) (q j : Nat) : State :=
  g.filled tr h sl s (q + 1) (q * g.blockLen + j)
    (some ⟨q * g.blockLen + j, j, g.round s.params (g.counterAfter q sl.ctr) sl.key⟩)

variable {g : Gen w γ} {tr : BitVec w → BitVec w} {h : Nat} {sl : Slot γ w} {s : State}

theorem Gen.counterAfter_succ (n : Nat) (c : γ) : g.counterAfter (n + 1) c = g.advance (g.counterAfter n c) :=
  Function.iterate_succ_apply' _ _ _

theorem Gen.element_of_block (p : Params) (c : γ) (k : Key w) {q j : Nat} (hj : j < g.blockLen) :
    g.element tr p c k (q * g.blockLen + j) = tr ((g.round p (g.counterAfter q c) k).getD j 0) := by
  have quotient : (q * g.blockLen + j) / g.blockLen = q := by
    rw [add_comm, Nat.add_mul_div_right _ _ (by omega), Nat.div_eq_of_lt hj, zero_add]
  have remainder : (q * g.blockLen + j) % g.blockLen = j := by
    rw [Nat.mul_add_mod_self_right, Nat.mod_eq_of_lt hj]
  rw [Gen.element, quotient, remainder]

/-- The rounds of the FILL once all its elements are written. -/
theorem Gen.roundsFor_eq {q j n : Nat} (started : q * g.blockLen < n) (within : j ≤ g.blockLen) (all : q * g.blockLen + j = n) :
    g.roundsFor n = q + 1 := by
  have word : j - 1 < g.blockLen := by omega
  have split : n + g.blockLen - 1 = j - 1 + (q + 1) * g.blockLen := by rw [Nat.succ_mul]; omega
  rw [Gen.roundsFor, split, Nat.add_mul_div_right _ _ (by omega), Nat.div_eq_of_lt word, zero_add]

/-- A state on the way of a FILL from `s`: nothing done yet, or a block begun that is needed. -/
def Gen.OnTheWay (g : Gen w γ) (tr : BitVec w → BitVec w) (h : Nat) (sl : Slot γ w) (s u : State) : Prop :=
  u = s ∨ ∃ q j, q * g.blockLen < s.count ∧ j ≤ g.blockLen ∧ q * g.blockLen + j ≤ s.count ∧ u = g.midFill tr h sl s q j

/-- The state a FILL from `s` ends in. -/
def Gen.AtTheEnd (g : Gen w γ) (tr : BitVec w → BitVec w) (h : Nat) (sl : Slot γ w) (s u : State) : Prop :=
  ∃ f, u = (g.filled tr h sl s (g.roundsFor s.count) s.count f).succeed

section Steps

variable (fields : g.Fields) (ready : g.FillReady h sl s)
include fields

theorem Gen.Fields.filled_count (r n : Nat) (f : Option (Fill w)) : (g.filled tr h sl s r n f).count = s.count := by
  rw [State.count, Gen.filled, fields.larg]
  rfl

theorem Gen.Fields.filled_base (r n : Nat) (f : Option (Fill w)) : (g.filled tr h sl s r n f).base = s.base := by
  rw [State.base, Gen.filled, fields.larg]
  rfl

theorem Gen.Fields.filled_params (r n : Nat) (f : Option (Fill w)) : (g.filled tr h sl s r n f).params = s.params :=
  fields.params ..

theorem Gen.Fields.midFill_fill (q j : Nat) : g.fill (g.midFill tr h sl s q j) =
    some ⟨q * g.blockLen + j, j, g.round s.params (g.counterAfter q sl.ctr) sl.key⟩ :=
  fields.fill ..

theorem Gen.Fields.round_filled (r n : Nat) (f : Option (Fill w)) :
    g.fillRound h ⟨true, g.counterAfter r sl.ctr, sl.key⟩ n (g.filled tr h sl s r n f) =
      g.filled tr h sl s (r + 1) n (some ⟨n, 0, g.round s.params (g.counterAfter r sl.ctr) sl.key⟩) := by
  rw [Gen.filled, fields.round, Gen.slotsAfter, List.set_set, ← Gen.counterAfter_succ]
  rfl

theorem Gen.Fields.onTheWay_larg {u : State} (hu : g.OnTheWay tr h sl s u) : u.larg = s.larg := by
  rcases hu with rfl | ⟨q, j, -, -, -, rfl⟩
  · rfl
  · exact fields.larg ..

include ready

/-- The checks pass in each of these states, for the slot as it then is. -/
theorem Gen.Fields.filled_ready (r n : Nat) (f : Option (Fill w)) :
    g.FillReady h ⟨true, g.counterAfter r sl.ctr, sl.key⟩ (g.filled tr h sl s r n f) where
  handle_pos := ready.handle_pos
  handle_le := by rw [fields.filled_params]; exact ready.handle_le
  slot := by
    rw [Gen.filled, fields.slots]
    exact List.getElem?_set_self (List.getElem?_eq_some_iff.1 ready.slot).1
  live := rfl
  count_pos := by rw [fields.filled_count]; exact ready.count_pos
  aligned := by rw [fields.filled_base]; exact ready.aligned
  fits := by rw [fields.filled_count, fields.filled_base, fields.filled_params]; exact ready.fits
  window := by rw [fields.filled_count, fields.filled_base, fields.filled_params]; exact ready.window

/-- A FILL that has done nothing yet is the first of these states. -/
theorem Gen.Fields.filled_zero (noFill : g.fill s = none) (noRace : s.races = []) : g.filled tr h sl s 0 0 none = s := by
  have slot : g.slotsAfter h sl 0 s = g.slots s := by
    obtain ⟨inRange, slot⟩ := List.getElem?_eq_some_iff.1 ready.slot
    rw [Gen.slotsAfter, ← ready.live]
    exact slot ▸ List.set_getElem_self inRange
  calc g.filled tr h sl s 0 0 none = g.during (g.slots s) (g.fill s) s.mem s.unseen s := by
        rw [Gen.filled, slot, noFill, Gen.unseenAfter, List.range_zero, List.map_nil, List.append_nil, Gen.memAfter]
    _ = s := fields.self s noRace

theorem Gen.Fields.fillStep_first (noFill : g.fill s = none) (noRace : s.races = []) :
    g.fillStep tr h s = .next (g.midFill tr h sl s 0 0) := by
  have first := fields.filled_zero (tr := tr) ready noFill noRace
  have start := (fields.filled_ready (tr := tr) ready 0 0 none).first_round tr (fields.fill ..)
  rw [fields.round_filled, first] at start
  simpa [Gen.midFill] using start

theorem Gen.Fields.fillStep_round {q : Nat} (more : q * g.blockLen + g.blockLen < s.count) :
    g.fillStep tr h (g.midFill tr h sl s q g.blockLen) = .next (g.midFill tr h sl s (q + 1) 0) := by
  have round := (fields.filled_ready (tr := tr) ready (q + 1) _ _).further_round tr (fields.midFill_fill q g.blockLen)
    (by rw [fields.filled_count]; exact more) le_rfl
  have start : (q + 1) * g.blockLen + 0 = q * g.blockLen + g.blockLen := Nat.succ_mul ..
  refine round.trans (congrArg _ ?_)
  rw [fields.round_filled, Gen.midFill, start]

theorem Gen.Fields.fillStep_element {q j : Nat} (more : q * g.blockLen + j < s.count) (word : j < g.blockLen)
    (taken : s.params.refuses s.base (s.count * g.elemBytes) = false) :
    g.fillStep tr h (g.midFill tr h sl s q j) = .next (g.midFill tr h sl s q (j + 1)) := by
  have inside := Gen.elem_end_le (g := g) (base := s.base) more
  have taken' := Params.refuses_part taken (Nat.le_add_right _ _) inside
  have write := (fields.filled_ready (tr := tr) ready (q + 1) _ _).writes tr (fields.midFill_fill q j)
    (by rw [fields.filled_count]; exact more) word (by rw [fields.filled_base, fields.filled_params]; exact taken')
  refine write.trans (congrArg _ ?_)
  rw [Gen.filled, fields.element, keepHostWins_nil, leBytes_map_some]
  dsimp only
  rw [← Gen.element_of_block (tr := tr) (q := q) s.params sl.ctr sl.key word, Gen.midFill, Gen.filled, ← add_assoc,
    Gen.unseenAfter_succ]
  rfl

theorem Gen.Fields.fillStep_done {q j : Nat} (done : s.count ≤ q * g.blockLen + j) :
    g.fillStep tr h (g.midFill tr h sl s q j) = .next (g.midFill tr h sl s q j).succeed :=
  (fields.filled_ready (tr := tr) ready (q + 1) _ _).completes tr (fields.midFill_fill q j)
    (by rw [fields.filled_count]; exact done)

/-- Each step of a FILL that races with nothing, in memory that takes its writes, stays on the way or is the last. -/
theorem Gen.Fields.fillStep_onTheWay (running : s.phase = .exec) (noFill : g.fill s = none) (noRace : s.races = [])
    (taken : s.params.refuses s.base (s.count * g.elemBytes) = false) {u : State} (hu : g.OnTheWay tr h sl s u) :
    ∃ t, g.fillStep tr h u = .next t ∧ (t.phase = .exec ∧ g.OnTheWay tr h sl s t ∨ t.phase = .idle ∧ g.AtTheEnd tr h sl s t) := by
  have goesOn (q j : Nat) : (g.midFill tr h sl s q j).phase = .exec := (fields.phase ..).trans running
  rcases hu with rfl | ⟨q, j, started, within, written, rfl⟩
  · refine ⟨_, fields.fillStep_first ready noFill noRace, .inl ⟨goesOn 0 0, .inr ⟨0, 0, ?_⟩⟩⟩
    simp [ready.count_pos]
  rcases written.lt_or_eq with more | all
  · rcases within.lt_or_eq with word | rfl
    · exact ⟨_, fields.fillStep_element ready more word taken, .inl ⟨goesOn q (j + 1), .inr ⟨q, j + 1, started, word, more, rfl⟩⟩⟩
    · have begun : (q + 1) * g.blockLen < s.count := by rwa [Nat.succ_mul]
      exact ⟨_, fields.fillStep_round ready more,
        .inl ⟨goesOn (q + 1) 0, .inr ⟨q + 1, 0, begun, Nat.zero_le _, begun.le, rfl⟩⟩⟩
  · refine ⟨_, fields.fillStep_done ready all.ge, .inr ⟨rfl, ?_⟩⟩
    rw [Gen.AtTheEnd, Gen.roundsFor_eq started within all, ← all]
    exact ⟨_, rfl⟩

/-- A FILL that races with nothing, in memory that takes its writes, ends with all its elements written after all its rounds. -/
theorem Gen.Fields.runCommand_fill (progresses : g.Progresses) {i : Instr} {tr : State → BitVec w → BitVec w}
    (fills : ∀ u, exec i u = g.fillStep (tr u) h u) (bounds : ∀ u : State, u.larg = s.larg → tr u = tr s)
    (running : s.phase = .exec) (noFill : g.fill s = none) (noRace : s.races = [])
    (taken : s.params.refuses s.base (s.count * g.elemBytes) = false) :
    ∃ t, runCommand (g.stepsFor s.count) i s = .next t ∧ g.AtTheEnd (tr s) h sl s t := by
  refine runCommand_reaches (left := g.fillLeft) (P := g.OnTheWay (tr s) h sl s)
    (fun u t h => progresses.fillStep ((fills u).symm.trans h)) (fun u hu => ?_) (g.stepsFor s.count) s (.inl rfl) ?_
  · rw [fills, bounds u (fields.onTheWay_larg hu)]
    exact fields.fillStep_onTheWay ready running noFill noRace taken hu
  · rw [Gen.fillLeft_none noFill]
    exact Nat.lt_succ_self _

end Steps

/-- What memory holds and hosts see once the FILL has ended (20_memory.md R81, R82, R88). -/
theorem Gen.Fields.filled_view (fields : g.Fields) (tr : BitVec w → BitVec w) (h : Nat) (sl : Slot γ w) (s : State) (r n : Nat)
    (f : Option (Fill w)) :
    (∀ i < n, ∀ b < g.elemBytes, (g.filled tr h sl s r n f).succeed.mem.get (s.base + i * g.elemBytes + b) =
      some ((g.element tr s.params sl.ctr sl.key i).extractLsb' (8 * b) 8)) ∧
    (∀ a, a < s.base ∨ s.base + n * g.elemBytes ≤ a → (g.filled tr h sl s r n f).succeed.mem.get a = s.mem.get a) ∧
    (s.params.coherent = true →
      (g.filled tr h sl s r n f).succeed.unseen = [] ∧
        (g.filled tr h sl s r n f).succeed.seen = (g.filled tr h sl s r n f).succeed.mem) ∧
    (s.params.coherent = false →
      (g.filled tr h sl s r n f).succeed.seen = s.seen ∧
        (g.filled tr h sl s r n f).succeed.unseen = (s.unseen.map fun u => ⟨u.addr, u.bytes, true⟩) ++
          (List.range n).map (g.elementWrite (g.element tr s.params sl.ctr sl.key) s.base true)) := by
  obtain ⟨mem, unseen, seen, races⟩ := fields.view (g.slotsAfter h sl r s) f
    (g.memAfter (g.element tr s.params sl.ctr sl.key) s.base s.mem n)
    (g.unseenAfter (g.element tr s.params sl.ctr sl.key) s.base s.unseen n) s
  have params := fields.filled_params (tr := tr) (h := h) (sl := sl) (s := s) r n f
  refine ⟨fun i hi b hb => ?_, fun a ha => ?_, fun coherent => ?_, fun incoherent => ?_⟩
  · rw [State.succeed_mem, Gen.filled, mem, Gen.memAfter_get_inside _ hi hb]
  · rw [State.succeed_mem, Gen.filled, mem, Gen.memAfter_get_outside _ ha]
  · obtain ⟨shown, none, -⟩ := State.settled_complete (s := g.filled tr h sl s r n f) (by rw [params, coherent]) .ok
    exact ⟨none, shown⟩
  · obtain ⟨ended, same⟩ := staleReadsEndWithMaintenance.1 (g.filled tr h sl s r n f) .ok (by rw [params, incoherent]) races
    exact ⟨same.trans seen, by rw [State.succeed, ended, Gen.filled, unseen, Gen.unseenAfter_atEnd]⟩

end Fill

/-! ## Obligations -/

/-- The transform of a kernel takes its bounds from LARG. -/
theorem kernels32_bounds {k : (Nat → Instr) × (State → Word32 → Word32)} (hk : k ∈ kernels32) {s u : State}
    (h : u.larg = s.larg) : k.2 u = k.2 s := by
  simp only [kernels32, List.mem_cons, List.not_mem_nil, or_false] at hk
  rcases hk with rfl | rfl | rfl | rfl <;> simp only [State.bounds_of_larg h]

theorem kernels64_bounds {k : (Nat → Instr) × (State → Word64 → Word64)} (hk : k ∈ kernels64) {s u : State}
    (h : u.larg = s.larg) : k.2 u = k.2 s := by
  simp only [kernels64, List.mem_cons, List.not_mem_nil, or_false] at hk
  rcases hk with rfl | rfl | rfl | rfl <;> simp only [State.bounds_of_larg h]

/-- Settles O30: the state that the FILL ends in, read field by field. -/
theorem wholeFill32 : Obligations.WholeFill32 := by
  refine ⟨fun _ => rfl, fun k hk h s sl ready running noFill noRace taken => ?_⟩
  obtain ⟨t, ht, f, rfl⟩ := gen32_fields.runCommand_fill ready gen32_progresses (exec_kernels32 hk h)
    (fun _ => kernels32_bounds hk) running noFill noRace taken
  obtain ⟨written, other, coherent, incoherent⟩ := gen32_fields.filled_view (k.2 s) h sl s (gen32.roundsFor s.count) s.count f
  exact ⟨_, ht, rfl, rfl, written, other, coherent, incoherent, rfl⟩

/-- Settles O31: the same of Generator-64. -/
theorem wholeFill64 : Obligations.WholeFill64 := by
  refine ⟨fun _ => rfl, fun k hk h s sl ready running noFill noRace taken => ?_⟩
  obtain ⟨t, ht, f, rfl⟩ := gen64_fields.runCommand_fill ready gen64_progresses (exec_kernels64 hk h)
    (fun _ => kernels64_bounds hk) running noFill noRace taken
  obtain ⟨written, other, coherent, incoherent⟩ := gen64_fields.filled_view (k.2 s) h sl s (gen64.roundsFor s.count) s.count f
  exact ⟨_, ht, rfl, rfl, written, other, coherent, incoherent, rfl⟩

/-! ## One fill or two -/

/-- What a FILLRAW32 of `n` words at `b` leaves of memory and the slots, from slot `sl` with handle `h`. -/
structure RawFilled (h : Nat) (sl : Slot Ctr32 32) (b n : Nat) (s t : State) : Prop where
  params : t.params = s.params
  fill : t.fill32 = none
  races : t.races = []
  slots : t.slots32 = s.slots32.set (h - 1) ⟨true, gen32.counterAfter ((n + 3) / 4) sl.ctr, sl.key⟩
  inside : ∀ i < n, ∀ k < 4, t.mem.get (b + i * 4 + k) =
    some ((gen32.element tRaw s.params sl.ctr sl.key i).extractLsb' (8 * k) 8)
  outside : ∀ a, a < b ∨ b + n * 4 ≤ a → t.mem.get a = s.mem.get a

/-- A FILLRAW32 on a platform of plain memory. -/
theorem runCommand_fillraw32 {h : Nat} {sl : Slot Ctr32 32} {s : State} (live : s.live32 h sl) (plain : s.RunsPlain)
    (noFill : s.fill32 = none) (noRace : s.races = []) {b c x y : Word64} {n : Nat} (count : c.toNat = n) (positive : 0 < n)
    (aligned : b.toNat % 4 = 0) (fits : b.toNat + n * 4 ≤ 2 ^ s.params.addrW) :
    ∃ t, runCommand (gen32.stepsFor n) (.fillraw32 h) { s with larg := ⟨b, c, x, y⟩ } = .next t ∧ RawFilled h sl b.toNat n s t := by
  subst count
  obtain ⟨handle_pos, handle_le, slot, on⟩ := live
  obtain ⟨running, noDevice, noWindow⟩ := plain
  have window : s.params.windowMeets b.toNat (c.toNat * 4) = false := by simp [Params.windowMeets, noWindow]
  obtain ⟨t, ht, -, -, inside, outside, -, -, rest⟩ := wholeFill32.2 (.fillraw32, fun _ => tRaw) (by simp [kernels32]) h
    { s with larg := ⟨b, c, x, y⟩ } sl ⟨handle_pos, handle_le, slot, on, positive, aligned, fits, window⟩ running noFill noRace
    (Params.refuses_plain noDevice _ _)
  exact ⟨t, ht, by rw [rest]; rfl, by rw [rest]; rfl, by rw [rest]; rfl, by rw [rest]; rfl, inside, outside⟩

/-- Settles O33: a fill of one word after a fill of four starts with the second round, as the fifth word of one fill does. -/
theorem fillOfFiveIsFillOfFourThenOne : Obligations.FillOfFiveIsFillOfFourThenOne := by
  intro h s sl b x y wf live running noFill noRace noDevice noWindow aligned fits
  have plain : s.RunsPlain := ⟨running, noDevice, noWindow⟩
  have following : (b + 16).toNat = b.toNat + 16 := by
    have width : 2 ^ s.params.addrW ≤ 2 ^ 64 := Nat.pow_le_pow_right two_pos wf.addrW_le
    rw [BitVec.toNat_add]
    exact Nat.mod_eq_of_lt (by simp; omega)
  obtain ⟨t5, ht5, five⟩ := runCommand_fillraw32 live plain noFill noRace (b := b) (c := 5) (x := x) (y := y) (n := 5) rfl
    (by omega) aligned fits
  obtain ⟨t4, ht4, four⟩ := runCommand_fillraw32 live plain noFill noRace (b := b) (c := 4) (x := x) (y := y) (n := 4) rfl
    (by omega) aligned (by omega)
  have live4 : State.live32 h ⟨true, gen32.counterAfter 1 sl.ctr, sl.key⟩ { t4 with phase := .exec } := by
    obtain ⟨handle_pos, handle_le, slot, -⟩ := live
    refine ⟨handle_pos, four.params ▸ handle_le, ?_, rfl⟩
    show t4.slots32[h - 1]? = _
    rw [four.slots]
    exact List.getElem?_set_self (List.getElem?_eq_some_iff.1 slot).1
  obtain ⟨t41, ht41, one⟩ := runCommand_fillraw32 live4 ⟨rfl, four.params ▸ noDevice, four.params ▸ noWindow⟩ four.fill four.races
    (b := b + 16) (c := 1) (x := x) (y := y) (n := 1) rfl (by omega) (by omega)
    (by rw [following]; exact four.params ▸ fits)
  refine ⟨t5, t4, t41, ht5, ht4, ht41, fun a => ?_, ?_⟩
  · by_cases inside : b.toNat ≤ a ∧ a < b.toNat + 20
    · obtain ⟨i, k, hi, hk, rfl⟩ : ∃ i k, i < 5 ∧ k < 4 ∧ a = b.toNat + i * 4 + k :=
        ⟨(a - b.toNat) / 4, (a - b.toNat) % 4, by omega, by omega, by omega⟩
      rw [five.inside i hi k hk]
      rcases Nat.lt_succ_iff_lt_or_eq.1 hi with first | rfl
      · exact (one.outside _ (by omega)).trans (four.inside i first k hk)
      · have word := one.inside 0 one_pos k hk
        rw [following, zero_mul, add_zero] at word
        rw [← four.params]
        exact word
    · rw [five.outside a (by omega)]
      exact (one.outside a (by omega)).trans (four.outside a (by omega))
  · rw [one.slots, five.slots]
    show (t4.slots32).set _ _ = _
    rw [four.slots, List.set_set]
    rfl

end Sys2Proof.Machine
end

section
/-! PROOFS. The bounded-integer transform and the saturating conversion (spec 42_kernels.md R193, R194, R196). -/

namespace Sys2Proof.Machine

/-! ## Bounded integers -/

section BoundedInt

variable {w : Nat} {mn mx x : BitVec w}

theorem ofInt_toInt_add_toNat (mn x : BitVec w) : BitVec.ofInt w (mn.toInt + (x.toNat : Int)) = mn + x := by
  rw [BitVec.ofInt_add, BitVec.ofInt_toInt, BitVec.ofInt_natCast, BitVec.ofNat_toNat, BitVec.setWidth_eq]

theorem tBi_reversed (h : mx.toInt < mn.toInt) : tBi mn mx x = mn + x := by
  rw [tBi, if_neg (by omega), ofInt_toInt_add_toNat]

/-- With ordered bounds the element is between them (R193). -/
theorem tBi_ordered (hw : 0 < w) (h : mn.toInt ≤ mx.toInt) :
    (tBi mn mx x).toInt = mn.toInt + (x.toNat : Int) % (mx.toInt - mn.toInt + 1) ∧
      mn.toInt ≤ (tBi mn mx x).toInt ∧ (tBi mn mx x).toInt ≤ mx.toInt := by
  have nonneg := Int.emod_nonneg (x.toNat : Int) (b := mx.toInt - mn.toInt + 1) (by omega)
  have below := Int.emod_lt_of_pos (x.toNat : Int) (b := mx.toInt - mn.toInt + 1) (by omega)
  have low := BitVec.le_toInt mn
  have high := BitVec.toInt_lt (x := mx)
  have value : (tBi mn mx x).toInt = mn.toInt + (x.toNat : Int) % (mx.toInt - mn.toInt + 1) := by
    rw [tBi, if_pos h]
    exact BitVec.toInt_ofInt_eq_self hw (by omega) (by omega)
  exact ⟨value, by omega, by omega⟩

theorem tBi_same (mn x : BitVec w) : tBi mn mn x = mn := by
  rw [tBi, if_pos le_rfl, sub_self, zero_add, Int.emod_one, add_zero, BitVec.ofInt_toInt]

/-- Adding the sign bit turns it: nothing is carried into it. -/
theorem add_intMin_eq_xor (hw : 0 < w) (x : BitVec w) : x + BitVec.intMin w = x ^^^ BitVec.intMin w := by
  ext i hi
  have noCarry : BitVec.carry i x (BitVec.intMin w) false = false := by
    have multiple : (BitVec.intMin w).toNat % 2 ^ i = 0 := by
      rw [BitVec.toNat_intMin_of_pos hw]
      exact Nat.mod_eq_zero_of_dvd (pow_dvd_pow 2 (by omega))
    rw [BitVec.carry, multiple, Bool.toNat_false, add_zero, add_zero, decide_eq_false_iff_not, not_le]
    exact Nat.mod_lt _ (by positivity)
  rw [BitVec.getElem_add hi, noCarry, Bool.xor_false, BitVec.getElem_xor]

/-- Over the full signed range every word is drawn, shifted by `2^(w-1)`. -/
theorem tBi_full (hw : 0 < w) (x : BitVec w) : tBi (BitVec.intMin w) (BitVec.intMax w) x = x ^^^ BitVec.intMin w := by
  have low := BitVec.toInt_intMin_of_pos hw
  have high := BitVec.toInt_intMax (w := w)
  have double : (2 : Int) ^ w = 2 * 2 ^ (w - 1) := (mul_pow_sub_one hw.ne' 2).symm
  have positive : (0 : Int) < 2 ^ (w - 1) := by positivity
  have range : (BitVec.intMax w).toInt - (BitVec.intMin w).toInt + 1 = 2 ^ w := by omega
  rw [tBi, if_pos (by omega), range, Int.emod_eq_of_lt (by omega) (mod_cast x.isLt), ofInt_toInt_add_toNat, add_comm,
    add_intMin_eq_xor hw]

end BoundedInt

/-- Settles O46: by the order of the bounds. -/
theorem boundedIntTransform : Obligations.BoundedIntTransform := by
  refine ⟨fun w hw mn mx x ordered => ?_, fun w hw mn mx x => tBi_reversed⟩
  have positive : 0 < w := by omega
  obtain ⟨value, low, high⟩ := tBi_ordered (x := x) positive ordered
  refine ⟨?_, low, high, ?_, ?_⟩
  · rw [value, Int.natCast_emod, Int.toNat_of_nonneg (by omega)]
  · rintro rfl
    exact tBi_same mn x
  · rintro rfl rfl
    have least : BitVec.ofNat w (2 ^ (w - 1)) = BitVec.intMin w := by obtain rfl | rfl := hw <;> decide
    have greatest : BitVec.ofNat w (2 ^ (w - 1) - 1) = BitVec.intMax w := by obtain rfl | rfl := hw <;> decide
    rw [least, greatest, tBi_full positive]

/-! ## The saturating conversion -/

/-- The integer part of a positive value, as the model computes it. -/
theorem truncated_eq_floor (m : Nat) (e : Int) : ((m * 2 ^ e.toNat / 2 ^ (-e).toNat : ℕ) : ℤ) = ⌊finValue false m e⌋ := by
  have value := shifted_div_eq m 1 e
  rw [one_mul, Nat.cast_one, div_one] at value
  rw [finValue, if_neg Bool.false_ne_true, one_mul, ← value, Rat.floor_natCast_div_natCast]
  rfl

theorem finValue_true_nonpos (m : Nat) (e : Int) : finValue true m e ≤ 0 := by
  rw [← Bool.not_false, finValue_not, Left.neg_nonpos_iff, finValue, if_neg Bool.false_ne_true, one_mul]
  positivity

theorem satU_neg (w m : Nat) (e : Int) : FloatVal.satU w (.fin true m e) = 0 := rfl

theorem satU_below {w m : Nat} {e : Int} (h : finValue false m e < 2 ^ w) :
    ((FloatVal.satU w (.fin false m e)).toNat : ℤ) = ⌊finValue false m e⌋ := by
  have part := truncated_eq_floor m e
  have fits : m * 2 ^ e.toNat / 2 ^ (-e).toNat < 2 ^ w := by
    have floor : ⌊finValue false m e⌋ < 2 ^ w := Int.floor_lt.2 (mod_cast h)
    rw [← part] at floor
    exact_mod_cast floor
  rw [FloatVal.satU, if_neg Bool.false_ne_true, if_neg (not_le.2 fits), BitVec.toNat_ofNat, Nat.mod_eq_of_lt fits, part]

theorem satU_from {w m : Nat} {e : Int} (h : (2 : ℚ) ^ w ≤ finValue false m e) :
    (FloatVal.satU w (.fin false m e)).toNat = 2 ^ w - 1 := by
  have part := truncated_eq_floor m e
  have large : 2 ^ w ≤ m * 2 ^ e.toNat / 2 ^ (-e).toNat := by
    have floor : 2 ^ w ≤ ⌊finValue false m e⌋ := Int.le_floor.2 (mod_cast h)
    rw [← part] at floor
    exact_mod_cast floor
  rw [FloatVal.satU, if_neg Bool.false_ne_true, if_pos large, BitVec.toNat_ofNat, Nat.mod_eq_of_lt (by simp)]

/-- Settles O45: by the sign and the size of the value. -/
theorem saturatingConversion : Obligations.SaturatingConversion := by
  intro w hw
  refine ⟨rfl, rfl, ?_, fun s m e => ?_⟩
  · rw [FloatVal.satU, if_neg Bool.false_ne_true, BitVec.toNat_ofNat, Nat.mod_eq_of_lt (by simp)]
  cases s with
  | true =>
    have nonpos := finValue_true_nonpos m e
    have positive : (0 : ℚ) < 2 ^ w := by positivity
    exact ⟨fun _ => satU_neg w m e, fun h => absurd h (by linarith), fun h => absurd h (by linarith)⟩
  | false =>
    refine ⟨fun h => ?_, satU_from, fun _ => satU_below⟩
    have one_le : (1 : ℚ) ≤ 2 ^ w := one_le_pow₀ one_le_two
    have value := satU_below (w := w) (h.trans_le one_le)
    have floor : ⌊finValue false m e⌋ < 1 := Int.floor_lt.2 (by exact_mod_cast h)
    exact BitVec.eq_of_toNat_eq (by simp; omega)

end Sys2Proof.Machine
end

section
/-! PROOFS. The uniform-float transform (spec 42_kernels.md R191, R192): the word is rounded once to the format, and the division
by `2^W` only lowers the exponent. The pattern of the result is the significand the word rounds to, before any carry out of it, plus
`2^fracBits` for each exponent, so that it rises with the exponent across that carry. -/

namespace Sys2Proof.Machine

/-- The format rounds every word of `w` bits to a value that stays normal when it is divided by `2^w`, with `b` normal exponents to
spare below. -/
structure FloatFormat.Uniform (f : FloatFormat) (w b : Nat) : Prop where
  proper : f.Proper
  fills : f.Fills w
  minExp : f.minExp = -(f.fracBits + w + b : ℤ)
  room : (w : ℤ) - f.fracBits ≤ f.maxExp

theorem binary32_uniform : binary32.Uniform 32 94 :=
  ⟨FloatFormat.proper_of_mem _ (by simp), binary32_fills, by decide, by decide⟩

theorem binary64_uniform : binary64.Uniform 64 958 :=
  ⟨FloatFormat.proper_of_mem _ (by simp), binary64_fills, by decide, by decide⟩

/-! ## The word as a value of the format -/

theorem roundDiv_le_succ (num den : Nat) : roundDiv num den ≤ num / den + 1 := by
  simp only [roundDiv]
  split_ifs <;> omega

theorem floorLog2_one (u : Nat) (hu : u ≠ 0) : floorLog2 u 1 = u.log2 := by
  have one : Nat.log2 1 = 0 := rfl
  simp [floorLog2, one, Nat.log2_self_le hu]

/-- The significand that the integer `u` rounds to, before any carry. -/
def FloatFormat.uintSig (f : FloatFormat) (u : Nat) : Nat := roundDiv (u * 2 ^ (f.fracBits - u.log2)) (2 ^ (u.log2 - f.fracBits))

variable {f : FloatFormat} {w b : Nat}

theorem FloatFormat.uintSig_bounds (f : FloatFormat) {u : Nat} (hu : u ≠ 0) :
    2 ^ f.fracBits ≤ f.uintSig u ∧ f.uintSig u ≤ 2 ^ f.prec := by
  have den : 0 < 2 ^ (u.log2 - f.fracBits) := by positivity
  have scale : 2 ^ f.fracBits * 2 ^ (u.log2 - f.fracBits) = 2 ^ u.log2 * 2 ^ (f.fracBits - u.log2) := by
    rw [← pow_add, ← pow_add]
    congr 1
    omega
  constructor
  · refine le_trans ((Nat.le_div_iff_mul_le den).2 ?_) (div_le_roundDiv _ _)
    rw [scale]
    exact Nat.mul_le_mul_right _ (Nat.log2_self_le hu)
  · refine (roundDiv_le_succ _ _).trans ((Nat.div_lt_iff_lt_mul den).2 ?_)
    rw [f.two_pow_prec, mul_assoc, scale, ← mul_assoc, ← pow_succ']
    exact Nat.mul_lt_mul_of_pos_right Nat.lt_log2_self (by positivity)

/-- A word that is not 0 rounds to a normal value. -/
theorem FloatFormat.Uniform.ofUint_normal (hf : f.Uniform w b) {u : Nat} (hu : u ≠ 0) (hw : u < 2 ^ w) :
    ∃ m n : Nat, FloatVal.ofUint f u = .fin false m (n - f.fracBits) ∧ 2 ^ f.fracBits ≤ m ∧ m < 2 ^ f.prec ∧ n ≤ w ∧
      m + 2 ^ f.fracBits * n = f.uintSig u + 2 ^ f.fracBits * u.log2 := by
  have log : u.log2 < w := (Nat.log2_lt hu).2 hw
  obtain ⟨low, high⟩ := f.uintSig_bounds hu
  have minExp := hf.minExp
  have room := hf.room
  have exp : max f.minExp (floorLog2 u 1 + 0 - f.fracBits) = u.log2 - f.fracBits := by rw [floorLog2_one u hu]; omega
  have down : (0 - (u.log2 - f.fracBits) : ℤ).toNat = f.fracBits - u.log2 := by omega
  have up : (u.log2 - f.fracBits - 0 : ℤ).toNat = u.log2 - f.fracBits := by omega
  have value : FloatVal.ofUint f u = if f.uintSig u < 2 ^ f.prec then .fin false (f.uintSig u) (u.log2 - f.fracBits)
      else .fin false (2 ^ f.fracBits) (u.log2 - f.fracBits + 1) := by
    rw [FloatVal.ofUint, roundTo, if_neg hu]
    simp only [exp, down, up, one_mul]
    rw [if_pos (show (u.log2 : ℤ) - f.fracBits ≤ f.maxExp by omega),
      if_pos (show (u.log2 : ℤ) - f.fracBits + 1 ≤ f.maxExp by omega)]
    rfl
  have positive := Nat.two_pow_pos f.fracBits
  rw [value]
  rw [f.two_pow_prec] at high ⊢
  split
  next carry => exact ⟨_, _, rfl, low, carry, log.le, rfl⟩
  next carry =>
    refine ⟨_, u.log2 + 1, by push_cast; congr 1; ring, le_rfl, by omega, log, ?_⟩
    rw [mul_add_one]
    omega

/-- Dividing a normal value by a power of two leaves its significand, where the exponent stays in range. -/
theorem div_two_pow {m : Nat} (low : 2 ^ f.fracBits ≤ m) (high : m < 2 ^ f.prec) {e d : Int} (hmin : f.minExp ≤ e - d - f.fracBits)
    (hmax : e - d - f.fracBits ≤ f.maxExp) :
    (FloatVal.fin false m e).div f (.fin false (2 ^ f.fracBits) d) = .fin false m (e - d - f.fracBits) := by
  have hm : m ≠ 0 := (lt_of_lt_of_le (by positivity) low).ne'
  have log : m.log2 = f.fracBits := (Nat.log2_eq_iff hm).2 ⟨low, high⟩
  have floorLog : floorLog2 m (2 ^ f.fracBits) = 0 := by
    simp [floorLog2, log, Nat.log2_two_pow, low]
  have exp : max f.minExp (floorLog2 m (2 ^ f.fracBits) + (e - d) - f.fracBits) = e - d - f.fracBits := by rw [floorLog]; omega
  have up : (e - d - (e - d - f.fracBits)).toNat = f.fracBits := by omega
  have down : (e - d - f.fracBits - (e - d)).toNat = 0 := by omega
  rw [FloatVal.div, if_neg (by positivity), roundTo, if_neg hm]
  simp only [exp, up, down, pow_zero, mul_one, mul_comm m, roundDiv_exact m _ (Nat.two_pow_pos _), if_pos high, if_pos hmax]
  rfl

/-- The uniform value of a word that is not 0 (R191). -/
theorem FloatFormat.Uniform.uniform_normal (hf : f.Uniform w b) {x : BitVec w} (hx : x ≠ 0) :
    ∃ m n : Nat, FloatVal.ofUint f x.toNat = .fin false m (n - f.fracBits) ∧ uniform f x = .fin false m (n - f.fracBits - w) ∧
      2 ^ f.fracBits ≤ m ∧ m < 2 ^ f.prec ∧ n ≤ w ∧
        m + 2 ^ f.fracBits * n = f.uintSig x.toNat + 2 ^ f.fracBits * x.toNat.log2 := by
  have hu : x.toNat ≠ 0 := fun h => hx (BitVec.eq_of_toNat_eq h)
  obtain ⟨m, n, value, low, high, hn, rank⟩ := hf.ofUint_normal hu x.isLt
  have minExp := hf.minExp
  have room := hf.room
  have quotient := div_two_pow (f := f) low high (e := n - f.fracBits) (d := w - f.fracBits) (by omega) (by omega)
  refine ⟨m, n, value, ?_, low, high, hn, rank⟩
  rw [uniform, value, quotient]
  congr 1
  ring

theorem uniform_zero (f : FloatFormat) (w : Nat) : uniform f (0 : BitVec w) = .fin false 0 f.minExp := by
  simp [uniform, FloatVal.ofUint, roundTo, FloatVal.div]

/-- A value rounded at some exponent is rounded below it too, down to the least exponent. -/
theorem RoundsTo.div_two_pow {v : ℚ} {s : Bool} {m : Nat} {e : Int} (h : RoundsTo f v (.fin s m e)) {k : Nat}
    (hmin : f.minExp ≤ e - k) : RoundsTo f (v / 2 ^ k) (.fin s m (e - k)) := by
  obtain ⟨hm, -, hmax, near⟩ := h
  have hk : (0 : ℚ) < 2 ^ k := by positivity
  have lowered (s : Bool) (m : Nat) (e : Int) : finValue s m (e - k) = finValue s m e / 2 ^ k := by
    rw [finValue, finValue, zpow_sub₀ two_ne_zero, zpow_natCast, mul_div_assoc]
  have scale (x y : ℚ) : |x / 2 ^ k - y / 2 ^ k| = |x - y| / 2 ^ k := by rw [← sub_div, abs_div, abs_of_pos hk]
  refine ⟨hm, hmin, by omega, fun s' m' e' hm' he' => ?_⟩
  obtain ⟨le, tie⟩ := near s' m' (e' + k) hm' (by omega)
  rw [← add_sub_cancel_right e' (k : ℤ), lowered, lowered, scale, scale, div_left_inj' hk.ne']
  exact ⟨by gcongr, fun heq hne => tie heq fun h => hne (by rw [h])⟩

/-! ## Its pattern -/

theorem FloatFormat.Uniform.unpack_tUf (hf : f.Uniform w b) (x : BitVec w) : FloatVal.unpack f (tUf f x) = uniform f x := by
  have rounded : ∃ m e, uniform f x = roundTo f false m (2 ^ f.fracBits) e := by
    by_cases hx : x = 0
    · exact ⟨0, 0, by rw [hx, uniform_zero, roundTo, if_pos rfl]⟩
    · obtain ⟨m, n, value, -⟩ := hf.uniform_normal hx
      rw [uniform, value, FloatVal.div, if_neg (by positivity)]
      exact ⟨m, _, rfl⟩
  obtain ⟨m, e, he⟩ := rounded
  rw [tUf, he]
  exact (unpack_pack_roundTo hf.proper hf.fills false m (by positivity) e).1

/-- Every result denotes the word over `2^W`, rounded once. -/
theorem FloatFormat.Uniform.roundsTo (hf : f.Uniform w b) (x : BitVec w) :
    RoundsTo f ((x.toNat : ℚ) / 2 ^ w) (FloatVal.unpack f (tUf f x)) := by
  rw [hf.unpack_tUf]
  by_cases hx : x = 0
  · rw [hx, uniform_zero]
    simpa using roundsTo_zero hf.proper false
  · obtain ⟨m, n, value, quotient, -⟩ := hf.uniform_normal hx
    have minExp := hf.minExp
    have rounds := ofUint_roundsTo hf.proper x.toNat
    rw [value] at rounds
    rw [quotient]
    exact rounds.div_two_pow (by omega)

theorem tUf_zero (f : FloatFormat) (w : Nat) : tUf f (0 : BitVec w) = 0 := by
  rw [tUf, uniform_zero, FloatVal.pack, if_pos (by positivity)]
  simp

theorem FloatFormat.Uniform.tUf_toNat (hf : f.Uniform w b) {x : BitVec w} (hx : x ≠ 0) :
    (tUf f x).toNat = f.uintSig x.toNat + 2 ^ f.fracBits * (x.toNat.log2 + b) := by
  obtain ⟨m, n, -, value, low, high, hn, rank⟩ := hf.uniform_normal hx
  have minExp := hf.minExp
  have room := hf.room
  have exps : ((2 ^ f.expBits : ℕ) : ℤ) = f.maxExp - f.minExp + 3 := by rw [hf.fills.exps]; push_cast; rfl
  have expField : (n - f.fracBits - w - f.minExp + 1 : ℤ).toNat = n + b + 1 := by omega
  have frac : m - 2 ^ f.fracBits < 2 ^ f.fracBits := by rw [f.two_pow_prec] at high; omega
  rw [tUf, value, FloatVal.pack_normal low, expField, hf.fills.word_toNat (by omega) frac]
  rw [Bool.toNat_false, mul_zero, add_zero, mul_add_one, mul_add, mul_add]
  omega

/-- The words that are rounded up to `2^w`: those within half a unit, `2^k`, of it. -/
theorem FloatFormat.carries_iff (f : FloatFormat) {k : Nat} (hw : f.prec + k + 1 = w) {u : Nat} (hu : u ≠ 0) (lt : u < 2 ^ w) :
    u.log2 + 1 = w ∧ f.uintSig u = 2 ^ f.prec ↔ 2 ^ w ≤ u + 2 ^ k := by
  have half := Nat.two_pow_pos k
  have unit : 0 < 2 * 2 ^ k := by positivity
  have full : 2 ^ w = 2 * 2 ^ k * 2 ^ f.prec := by rw [← hw]; ring
  have two_le : 2 ≤ 2 ^ f.prec := Nat.le_self_pow (Nat.succ_ne_zero _) 2
  have even : 2 ^ f.prec % 2 = 0 := by rw [f.two_pow_prec]; omega
  have sig (h : u.log2 + 1 = w) : f.uintSig u = roundDiv u (2 * 2 ^ k) := by
    have log : u.log2 = f.fracBits + (k + 1) := by rw [FloatFormat.prec] at hw; omega
    rw [FloatFormat.uintSig, log, Nat.sub_eq_zero_of_le (Nat.le_add_right _ _), Nat.add_sub_cancel_left, pow_zero, mul_one,
      pow_succ']
  obtain ⟨low, high, tie⟩ := roundDiv_near u (2 * 2 ^ k) unit
  constructor
  · rintro ⟨hlog, hsig⟩
    rw [← sig hlog, hsig, ← full] at high
    omega
  · intro near
    have twice := Nat.mul_le_mul_left (2 * 2 ^ k) two_le
    have double : 2 * 2 ^ (w - 1) = 2 ^ w := mul_pow_sub_one (by omega) 2
    have log_le : w - 1 ≤ u.log2 := (Nat.le_log2 hu).2 (by omega)
    have log_lt : u.log2 < w := (Nat.log2_lt hu).2 lt
    have hlog : u.log2 + 1 = w := by omega
    refine ⟨hlog, le_antisymm (f.uintSig_bounds hu).2 ?_⟩
    by_contra less
    rw [sig hlog, not_le] at less
    have below := Nat.mul_le_mul_left (2 * 2 ^ k) less
    rw [← full, Nat.mul_succ] at below
    have last : roundDiv u (2 * 2 ^ k) + 1 = 2 ^ f.prec := by
      refine Nat.eq_of_mul_eq_mul_left unit ?_
      rw [← full, mul_add_one]
      omega
    have last_even := tie (.inl (by omega))
    omega

/-- The results of words that are not 0 stand between the patterns of `2^-W` and 1.0, and which are 1.0. -/
theorem FloatFormat.Uniform.tUf_range (hf : f.Uniform w b) {k : Nat} (hw : f.prec + k + 1 = w) {x : BitVec w} (hx : x ≠ 0) :
    2 ^ f.fracBits * (b + 1) ≤ (tUf f x).toNat ∧ (tUf f x).toNat ≤ 2 ^ f.fracBits * (w + b + 1) ∧
      ((tUf f x).toNat = 2 ^ f.fracBits * (w + b + 1) ↔ 2 ^ w ≤ x.toNat + 2 ^ k) := by
  have hu : x.toNat ≠ 0 := fun h => hx (BitVec.eq_of_toNat_eq h)
  have log : x.toNat.log2 + 1 ≤ w := (Nat.log2_lt hu).2 x.isLt
  obtain ⟨low, high⟩ := f.uintSig_bounds hu
  have positive := Nat.two_pow_pos f.fracBits
  have steps := Nat.mul_le_mul_left (2 ^ f.fracBits) log
  have top : x.toNat.log2 + 1 = w ↔ 2 ^ f.fracBits * x.toNat.log2 + 2 ^ f.fracBits = 2 ^ f.fracBits * w := by
    rw [← mul_add_one, Nat.mul_right_inj positive.ne']
  rw [← f.carries_iff hw hu x.isLt, hf.tUf_toNat hx, top]
  rw [f.two_pow_prec] at high ⊢
  simp only [mul_add, mul_one] at steps ⊢
  omega

/-- Settles O41: the pattern of a result, and the words that are rounded up to `2^32`. -/
theorem uniformFloat32Range : Obligations.UniformFloat32Range := by
  intro x
  have one : tUf binary32 x = 0x3F800000#32 ↔ (tUf binary32 x).toNat = 0x3F800000 := BitVec.toNat_inj.symm
  refine ⟨binary32_uniform.roundsTo x, fun h => by rw [h, tUf_zero], ?_⟩
  rw [one]
  by_cases hx : x = 0
  · subst hx
    rw [tUf_zero]
    decide +kernel
  · have range : 0x2F800000 ≤ (tUf binary32 x).toNat ∧ (tUf binary32 x).toNat ≤ 0x3F800000 ∧
        ((tUf binary32 x).toNat = 0x3F800000 ↔ 2 ^ 32 ≤ x.toNat + 2 ^ 7) := binary32_uniform.tUf_range rfl hx
    exact ⟨fun _ => ⟨range.1, range.2.1⟩, by omega, by omega, by decide +kernel⟩

/-- Settles O42: the pattern of a result, and the words that are rounded up to `2^64`. -/
theorem uniformFloat64Range : Obligations.UniformFloat64Range := by
  intro x
  have one : tUf binary64 x = 0x3FF0000000000000#64 ↔ (tUf binary64 x).toNat = 0x3FF0000000000000 := BitVec.toNat_inj.symm
  refine ⟨binary64_uniform.roundsTo x, fun h => by rw [h, tUf_zero], ?_⟩
  rw [one]
  by_cases hx : x = 0
  · subst hx
    rw [tUf_zero]
    decide +kernel
  · have range : 0x3BF0000000000000 ≤ (tUf binary64 x).toNat ∧ (tUf binary64 x).toNat ≤ 0x3FF0000000000000 ∧
        ((tUf binary64 x).toNat = 0x3FF0000000000000 ↔ 2 ^ 64 ≤ x.toNat + 2 ^ 10) := binary64_uniform.tUf_range rfl hx
    exact ⟨fun _ => ⟨range.1, range.2.1⟩, by omega, by omega, by decide +kernel⟩

end Sys2Proof.Machine
end

section
/-! PROOFS. The bounded-derived transform (spec 42_kernels.md R195, R197, R198): its quotient is the uniform value; NaN and
infinite bounds go through its operations; and rounding keeps the order of an exact value and a value of the format, so that the
scaled value stays on the side of `min` where `max` is. -/

namespace Sys2Proof.Machine

variable {f : FloatFormat} {w b : Nat}

/-! ## Special values -/

theorem FloatVal.add_nan (f : FloatFormat) (x : FloatVal) : x.add f .nan = .nan := by cases x <;> rfl

theorem FloatVal.mul_nan (f : FloatFormat) (x : FloatVal) : x.mul f .nan = .nan := by cases x <;> rfl

/-- A NaN bound gives 0 for every word (R198). -/
theorem tBd_nan {mn mx : BitVec w} (h : FloatVal.unpack f mn = .nan ∨ FloatVal.unpack f mx = .nan) (x : BitVec w) :
    tBd f mn mx x = 0 := by
  have nan : scaled f mn mx x = .nan := by
    rcases h with h | h
    · simp only [scaled, h, FloatVal.add_nan]
    · simp only [scaled, h, FloatVal.sub, FloatVal.add, FloatVal.mul_nan]
  rw [tBd, nan]
  rfl

/-! ## The quotient -/

/-- `2^W - 1` rounds up to `2^W`, by which the uniform value is divided (R197). -/
def FloatFormat.MaxRoundsUp (f : FloatFormat) (w : Nat) : Prop :=
  FloatVal.ofUint f (2 ^ w - 1) = .fin false (2 ^ f.fracBits) ((w : Int) - f.fracBits)

theorem binary32_maxRoundsUp : binary32.MaxRoundsUp 32 := by
  unfold FloatFormat.MaxRoundsUp
  decide +kernel

theorem binary64_maxRoundsUp : binary64.MaxRoundsUp 64 := by
  unfold FloatFormat.MaxRoundsUp
  decide +kernel

theorem FloatFormat.MaxRoundsUp.quotient (hmax : f.MaxRoundsUp w) (x : BitVec w) :
    (FloatVal.ofUint f x.toNat).div f (FloatVal.ofUint f (2 ^ w - 1)) = uniform f x := by
  rw [hmax]
  rfl

theorem FloatFormat.MaxRoundsUp.scaled_eq (hmax : f.MaxRoundsUp w) (mn mx x : BitVec w) :
    scaled f mn mx x =
      ((uniform f x).mul f ((FloatVal.unpack f mx).sub f (FloatVal.unpack f mn))).add f (FloatVal.unpack f mn) := by
  rw [scaled, hmax.quotient]

theorem FloatFormat.Uniform.uniform_fin (hf : f.Uniform w b) (x : BitVec w) :
    ∃ m e, uniform f x = .fin false m e ∧ (m = 0 ↔ x = 0) := by
  by_cases hx : x = 0
  · exact ⟨0, _, by rw [hx, uniform_zero], iff_of_true rfl hx⟩
  · obtain ⟨m, n, -, value, low, -⟩ := hf.uniform_normal hx
    exact ⟨m, _, value, iff_of_false (lt_of_lt_of_le (by positivity) low).ne' hx⟩

/-- An infinite `max` over a finite `min` gives the greatest word, but 0 for the word 0 (R198). -/
theorem FloatFormat.Uniform.tBd_inf (hf : f.Uniform w b) (hmax : f.MaxRoundsUp w) {mn mx : BitVec w} {s : Bool} {m : Nat} {e : Int}
    (hmn : FloatVal.unpack f mn = .fin s m e) (hmx : FloatVal.unpack f mx = .inf false) (x : BitVec w) :
    tBd f mn mx x = if x = 0 then 0 else BitVec.allOnes w := by
  obtain ⟨n, d, value, zero⟩ := hf.uniform_fin x
  have product : scaled f mn mx x = (if n = 0 then .nan else .inf false : FloatVal).add f (.fin s m e) := by
    rw [hmax.scaled_eq, hmn, hmx, value]
    rfl
  rw [tBd, product]
  simp only [zero]
  split
  · rfl
  · exact BitVec.eq_of_toNat_eq (by simp [FloatVal.add, FloatVal.floor, FloatVal.satU])

/-! ## Rounding and order -/

/-- From `a`, `b` lies upward, or downward, or is the same. -/
def Toward (down : Bool) (a b : ℚ) : Prop := if down then b ≤ a else a ≤ b

/-- The value is at `a` or beyond it, upward or downward. -/
def FloatVal.Reaches (down : Bool) (a : ℚ) (x : FloatVal) : Prop :=
  x = .inf down ∨ ∃ s m e, x = .fin s m e ∧ Toward down a (finValue s m e)

/-- A finite pattern denotes a value of the format. -/
theorem unpack_fin (hf : f.Proper) (hw : f.Fills w) {bits : BitVec w} {s : Bool} {m : Nat} {e : Int}
    (h : FloatVal.unpack f bits = .fin s m e) : m < 2 ^ f.prec ∧ f.minExp ≤ e ∧ e ≤ f.maxExp := by
  have frac : bits.toNat % 2 ^ f.fracBits < 2 ^ f.fracBits := Nat.mod_lt _ (by positivity)
  have exp : bits.toNat / 2 ^ f.fracBits % 2 ^ f.expBits < 2 ^ f.expBits := Nat.mod_lt _ (by positivity)
  have exps : ((2 ^ f.expBits : ℕ) : ℤ) = f.maxExp - f.minExp + 3 := by rw [hw.exps]; push_cast; rfl
  have range := hf.minExp_le.trans hf.maxExp_nonneg
  rw [f.two_pow_prec]
  simp only [FloatVal.unpack] at h
  split_ifs at h
  · cases h
    omega
  · cases h
    omega

theorem RoundsTo.reaches_up {v : ℚ} {x : FloatVal} (h : RoundsTo f v x) {s : Bool} {m : Nat} {e : Int} (hm : m < 2 ^ f.prec)
    (hmin : f.minExp ≤ e) (hmax : e ≤ f.maxExp) (le : finValue s m e ≤ v) : x.Reaches false (finValue s m e) := by
  cases x with
  | nan => exact h.elim
  | inf neg =>
    cases neg with
    | false => exact .inl rfl
    | true =>
      have rounds : RoundsTo f (finValue s m e) (.inf true) := h.trans (neg_le_neg le)
      obtain ⟨_, _, _, absurd, -⟩ := rounds.eq_of_finValue hm hmin hmax
      cases absurd
  | fin s' m' e' =>
    obtain ⟨-, -, -, near⟩ := h
    have close := (near s m e hm hmin).1
    rw [abs_of_nonpos (sub_nonpos.2 le)] at close
    have above : finValue s m e ≤ finValue s' m' e' := by linarith [neg_abs_le (finValue s' m' e' - v)]
    exact .inr ⟨s', m', e', rfl, above⟩

/-- Rounding keeps the order of an exact value and a value of the format. -/
theorem RoundsTo.reaches {v : ℚ} {x : FloatVal} (h : RoundsTo f v x) {down s : Bool} {m : Nat} {e : Int} (hm : m < 2 ^ f.prec)
    (hmin : f.minExp ≤ e) (hmax : e ≤ f.maxExp) (toward : Toward down (finValue s m e) v) : x.Reaches down (finValue s m e) := by
  cases down with
  | false => exact h.reaches_up hm hmin hmax toward
  | true =>
    have mirrored := h.neg.reaches_up (s := !s) hm hmin hmax (by rw [finValue_not]; exact neg_le_neg toward)
    rw [finValue_not] at mirrored
    rcases x with _ | neg | ⟨s', m', e'⟩
    · exact h.elim
    · rcases mirrored with hinf | ⟨_, _, _, hfin, -⟩
      · cases neg <;> cases hinf
        exact .inl rfl
      · cases hfin
    · rcases mirrored with hinf | ⟨_, _, _, hfin, le⟩
      · cases hinf
      · cases hfin
        rw [finValue_not] at le
        exact .inr ⟨s', m', e', rfl, neg_le_neg_iff.1 le⟩

theorem RoundsTo.reaches_zero (hf : f.Proper) {v : ℚ} {x : FloatVal} (h : RoundsTo f v x) {down : Bool} (toward : Toward down 0 v) :
    x.Reaches down 0 := by
  have zero : finValue false 0 f.minExp = 0 := by simp [finValue]
  rw [← zero] at toward ⊢
  exact h.reaches (by positivity) le_rfl (hf.minExp_le.trans hf.maxExp_nonneg) toward

theorem Toward.sub {down : Bool} {a b : ℚ} (h : Toward down a b) : Toward down 0 (b - a) := by
  cases down with
  | false => exact sub_nonneg.2 h
  | true => exact sub_nonpos.2 h

theorem Toward.add {down : Bool} {a : ℚ} (h : Toward down 0 a) (b : ℚ) : Toward down b (a + b) := by
  cases down with
  | false => exact le_add_of_nonneg_left h
  | true => exact add_le_of_nonpos_left h

theorem Toward.mul {down : Bool} {a q : ℚ} (h : Toward down 0 a) (hq : 0 ≤ q) : Toward down 0 (q * a) := by
  cases down with
  | false => exact mul_nonneg hq h
  | true => exact mul_nonpos_of_nonneg_of_nonpos hq h

/-- The scaled value is at `min` or beyond it on the side where `max` is, or infinite there (R197, R198). -/
theorem FloatFormat.Uniform.scaled_reaches (hf : f.Uniform w b) (hmax : f.MaxRoundsUp w) {mn mx : BitVec w} (x : BitVec w)
    {down s t s' : Bool} {m n m' : Nat} {e d e' : Int} (hmn : FloatVal.unpack f mn = .fin s m e)
    (hmx : FloatVal.unpack f mx = .fin t n d) (hsub : (FloatVal.unpack f mx).sub f (FloatVal.unpack f mn) = .fin s' m' e')
    (toward : Toward down (finValue s m e) (finValue t n d)) : (scaled f mn mx x).Reaches down (finValue s m e) := by
  obtain ⟨k, q, quotient, -⟩ := hf.uniform_fin x
  obtain ⟨hm, hmin, hmaxExp⟩ := unpack_fin hf.proper hf.fills hmn
  have difference : Toward down 0 (finValue s' m' e') := by
    have rounds := sub_roundsTo hf.proper t s n m d e
    rw [← hmx, ← hmn, hsub] at rounds
    rcases rounds.reaches_zero hf.proper toward.sub with h | ⟨_, _, _, h, reached⟩ <;> cases h
    exact reached
  have product : ((uniform f x).mul f (.fin s' m' e')).Reaches down 0 := by
    rw [quotient]
    exact (mul_roundsTo hf.proper false s' k m' q e').reaches_zero hf.proper
      (difference.mul (by rw [finValue, if_neg Bool.false_ne_true, one_mul]; positivity))
  rw [hmax.scaled_eq, hsub, hmn]
  rcases product with h | ⟨r, l, c, h, reached⟩ <;> rw [h]
  · exact .inl rfl
  · exact (add_roundsTo hf.proper r s l m c e).reaches hm hmin hmaxExp (reached.add _)

/-- The two orders of finite bounds whose difference is finite. -/
theorem FloatFormat.Uniform.scaled_ordered (hf : f.Uniform w b) (hmax : f.MaxRoundsUp w) {mn mx : BitVec w} (x : BitVec w)
    {s t s' : Bool} {m n m' : Nat} {e d e' : Int} (hmn : FloatVal.unpack f mn = .fin s m e)
    (hmx : FloatVal.unpack f mx = .fin t n d) (hsub : (FloatVal.unpack f mx).sub f (FloatVal.unpack f mn) = .fin s' m' e') :
    (finValue s m e ≤ finValue t n d → (scaled f mn mx x).Reaches false (finValue s m e)) ∧
      (finValue t n d ≤ finValue s m e → (scaled f mn mx x).Reaches true (finValue s m e)) :=
  ⟨hf.scaled_reaches (down := false) hmax x hmn hmx hsub, hf.scaled_reaches (down := true) hmax x hmn hmx hsub⟩

/-- Settles O47: the quotient, special bounds, and the two orders of finite bounds. -/
theorem boundedDerivedFacts : Obligations.BoundedDerivedFacts := by
  refine ⟨⟨binary32_maxRoundsUp.quotient, binary64_maxRoundsUp.quotient⟩, ⟨fun mn mx x => ?_, fun mn mx x => ?_⟩,
    fun mn mx x => ⟨rfl, ?_⟩, fun mn mx x => ⟨rfl, ?_⟩⟩
  · exact ⟨fun h => tBd_nan h x, fun s m e hmn hmx => binary32_uniform.tBd_inf binary32_maxRoundsUp hmn hmx x⟩
  · exact ⟨fun h => tBd_nan h x, fun s m e hmn hmx => binary64_uniform.tBd_inf binary64_maxRoundsUp hmn hmx x⟩
  · exact fun _ _ _ _ _ _ _ _ _ => binary32_uniform.scaled_ordered binary32_maxRoundsUp x
  · exact fun _ _ _ _ _ _ _ _ _ => binary64_uniform.scaled_ordered binary64_maxRoundsUp x

end Sys2Proof.Machine
end

section
/-! PROOFS. Errors and reset (spec 60_exceptions.md R230 to R244, 70_reset_and_hazards.md R260 to R262): which check ends a command
with which code, that a step which ends with one has changed STATUS only, that the checks of a FILL once passed stay passed, and
that a reset comes first. -/

namespace Sys2Proof.Machine

/-! ## What the checks answer -/

section Checks

variable {w : Nat} {γ : Type} {g : Gen w γ} {h : Nat} {s : State} {sl : Slot γ w}

theorem Gen.create_full (full : ∀ k < g.nSlots s.params, ∃ sl, (g.slots s)[k]? = some sl ∧ sl.live = true) :
    g.create s = .next (s.complete .noslot) := by
  have noneFree : g.freeHandle s = none := by
    refine g.freeHandle_eq_none.2 fun k hk sl hsl => ?_
    obtain ⟨_, hsl', live⟩ := full k hk
    cases hsl'.symm.trans hsl
    exact live
  simp only [Gen.create, noneFree, State.raise]

theorem Gen.destroy_null (g : Gen w γ) (s : State) : g.destroy 0 s = .next (s.complete .ok) := if_pos rfl

theorem Gen.destroy_noSlot (notNull : h ≠ 0) (noSlot : g.liveSlot h s = none) : g.destroy h s = .next (s.complete .handle) := by
  simp only [Gen.destroy, notNull, if_false, noSlot, State.raise]

theorem Gen.next_noSlot (noSlot : g.liveSlot h s = none) : g.next h s = .next (s.complete .handle) := by
  simp only [Gen.next, noSlot, State.raise]

variable (tr : BitVec w → BitVec w)

theorem Gen.fillStep_noSlot (noSlot : g.liveSlot h s = none) : g.fillStep tr h s = .next (s.complete .handle) := by
  simp only [Gen.fillStep, noSlot, State.raise]

/-- A command whose step is a completion has changed nothing but STATUS. -/
theorem endedWith_of_eq_complete {r : Result} {code : ResultCode} (h : r = .next (s.complete code)) :
    ∃ t, r = .next t ∧ EndedWith code s t :=
  ⟨_, h, s.complete_endedWith code⟩

/-- With a live handle a FILL asks for its count, then its alignment, then its range (60_exceptions.md R237). -/
theorem Gen.fillStep_checks (live : g.liveSlot h s = some sl) :
    (s.count = 0 → ∃ t, g.fillStep tr h s = .next t ∧ EndedWith .ok s t) ∧
    (0 < s.count → s.base % g.elemBytes ≠ 0 → ∃ t, g.fillStep tr h s = .next t ∧ EndedWith .align s t) ∧
    (0 < s.count → s.base % g.elemBytes = 0 → 2 ^ s.params.addrW < s.base + s.count * g.elemBytes →
      ∃ t, g.fillStep tr h s = .next t ∧ EndedWith .range s t) := by
  have ends {code : ResultCode} (positive : 0 < s.count) (error : g.bufferError s = some code) :
      g.fillStep tr h s = .next (s.complete code) := by
    simp only [Gen.fillStep, live, positive.ne', if_false, error, State.raise]
  refine ⟨fun empty => endedWith_of_eq_complete ?_, fun positive misaligned => endedWith_of_eq_complete (ends positive ?_),
    fun positive aligned beyond => endedWith_of_eq_complete (ends positive ?_)⟩
  · simp only [Gen.fillStep, live, empty, if_true, State.succeed]
  · exact if_pos misaligned
  · rw [Gen.bufferError, if_neg (not_not.2 aligned)]
    exact if_pos beyond

end Checks

/-- Settles O17: a bad handle names no live slot, and with every slot live none is free. -/
theorem handleAndSlotErrors : Obligations.HandleAndSlotErrors := by
  refine ⟨fun h s => ⟨fun bad => ⟨?_, fun k hk => ?_, fun notNull => ?_⟩, fun bad => ⟨?_, fun k hk => ?_, fun notNull => ?_⟩,
    ?_, ?_⟩, fun s => ⟨fun full => ?_, fun full => ?_⟩⟩
  · exact endedWith_of_eq_complete (Gen.next_noSlot bad.noSlot)
  · exact endedWith_of_eq_complete ((exec_kernels32 hk h s).trans (Gen.fillStep_noSlot _ bad.noSlot))
  · exact endedWith_of_eq_complete (Gen.destroy_noSlot notNull bad.noSlot)
  · exact endedWith_of_eq_complete (Gen.next_noSlot bad.noSlot)
  · exact endedWith_of_eq_complete ((exec_kernels64 hk h s).trans (Gen.fillStep_noSlot _ bad.noSlot))
  · exact endedWith_of_eq_complete (Gen.destroy_noSlot notNull bad.noSlot)
  · exact endedWith_of_eq_complete (gen32.destroy_null s)
  · exact endedWith_of_eq_complete (gen64.destroy_null s)
  · exact endedWith_of_eq_complete (Gen.create_full (g := gen32) full)
  · exact endedWith_of_eq_complete (Gen.create_full (g := gen64) full)

/-- Settles O18: the FILLs of a variant are its fill procedure, which checks in this order. -/
theorem fillChecksInOrder : Obligations.FillChecksInOrder := by
  refine ⟨fun k hk h s sl live => ?_, fun k hk h s sl live => ?_⟩
  · rw [exec_kernels32 hk]
    exact Gen.fillStep_checks _ (State.live32_iff.1 live)
  · rw [exec_kernels64 hk]
    exact Gen.fillStep_checks _ (State.live64_iff.1 live)

/-! ## No error after a change -/

/-- An error code that a command's step leaves in ERR is that of its completion, which is all the step does. -/
theorem exec_error {i : Instr} {s t : State} (noError : s.err = .ok) (h : exec i s = .next t) (error : t.err ≠ .ok) :
    ∃ code, t = s.complete code := by
  rcases exec_does h with ⟨-, op, hd, rfl, -⟩ | ⟨-, op, hd, rfl, -⟩
  all_goals
    cases hd with
    | ends code => exact ⟨code, rfl⟩
    | creates | destroys | draws => exact absurd rfl error
    | rounds | writes => exact absurd noError error

section GoesOn

variable {w : Nat} {γ : Type}

/-- The checks of a FILL that can end it with an error (60_exceptions.md R237) pass. -/
structure Gen.Checked (g : Gen w γ) (h : Nat) (s : State) : Prop where
  live : ∃ sl, g.liveSlot h s = some sl
  buffer : g.bufferError s = none

/-- A step of a FILL that does not end it leaves ERR and what the checks read (log 12), but for the counter of the slot. -/
structure Gen.KeepsChecks (g : Gen w γ) : Prop where
  round : ∀ (h n : Nat) (sl : Slot γ w) (s : State),
    (g.fillRound h sl n s).err = s.err ∧ (g.fillRound h sl n s).params = s.params ∧ (g.fillRound h sl n s).larg = s.larg ∧
      g.slots (g.fillRound h sl n s) = (g.slots s).set (h - 1) { sl with ctr := g.advance sl.ctr }
  element : ∀ (tr : BitVec w → BitVec w) (p : Fill w) (s : State),
    (g.elementState tr p s).err = s.err ∧ (g.elementState tr p s).params = s.params ∧
      (g.elementState tr p s).larg = s.larg ∧ g.slots (g.elementState tr p s) = g.slots s

theorem gen32_keepsChecks : gen32.KeepsChecks := ⟨fun _ _ _ _ => ⟨rfl, rfl, rfl, rfl⟩, fun _ _ _ => ⟨rfl, rfl, rfl, rfl⟩⟩

theorem gen64_keepsChecks : gen64.KeepsChecks := ⟨fun _ _ _ _ => ⟨rfl, rfl, rfl, rfl⟩, fun _ _ _ => ⟨rfl, rfl, rfl, rfl⟩⟩

variable {g : Gen w γ} {h : Nat} {s t : State}

theorem Gen.bufferError_congr (params : t.params = s.params) (larg : t.larg = s.larg) : g.bufferError t = g.bufferError s := by
  unfold Gen.bufferError Gen.bufferBytes State.base State.count
  rw [params, larg]

/-- A step of a FILL ends it, with an error only where a check fails, or it leaves ERR and the checks pass before and after. -/
theorem Gen.KeepsChecks.fillStep (hg : g.KeepsChecks) {tr : BitVec w → BitVec w} (ht : g.fillStep tr h s = .next t) :
    (∃ code, t = s.complete code ∧ (g.Checked h s → code = .ok)) ∨ (t.err = s.err ∧ g.Checked h t) := by
  have ends (code : ResultCode) (he : g.fillStep tr h s = .next (s.complete code)) (passed : g.Checked h s → code = .ok) :
      (∃ code, t = s.complete code ∧ (g.Checked h s → code = .ok)) ∨ (t.err = s.err ∧ g.Checked h t) :=
    .inl ⟨code, Host.Outcome.next.inj (ht.symm.trans he), passed⟩
  rcases g.fillStep_cases tr h s with
    ⟨noSlot, he⟩ | ⟨sl, live, ⟨-, he⟩ | ⟨-, code, error, he⟩ | ⟨-, buffer, ⟨-, he⟩ | ⟨-, hrun⟩⟩⟩
  · refine ends .handle he fun ⟨⟨_, live⟩, _⟩ => ?_
    cases noSlot.symm.trans live
  · exact ends .ok he fun _ => rfl
  · refine ends code he fun ⟨_, buffer⟩ => ?_
    cases error.symm.trans buffer
  · cases he.symm.trans ht
  · obtain ⟨positive, inRange, slot, slotLive⟩ := g.liveSlot_eq_some.1 live
    have round (n : Nat) : (g.fillRound h sl n s).err = s.err ∧ g.Checked h (g.fillRound h sl n s) := by
      obtain ⟨err, params, larg, slots⟩ := hg.round h n sl s
      refine ⟨err, ⟨{ sl with ctr := g.advance sl.ctr }, g.liveSlot_eq_some.2 ⟨positive, params ▸ inRange, ?_, slotLive⟩⟩,
        (bufferError_congr params larg).trans buffer⟩
      rw [slots, List.getElem?_set_self (List.getElem?_eq_some_iff.1 slot).1]
    rcases hrun with ⟨-, he⟩ | ⟨p, -, ⟨-, he⟩ | ⟨-, -, -, he⟩ | ⟨-, -, -, he⟩ | ⟨-, -, he⟩⟩
    · cases he.symm.trans ht
      exact .inr (round 0)
    · exact ends .ok he fun _ => rfl
    · cases he.symm.trans ht
    · cases he.symm.trans ht
      obtain ⟨err, params, larg, slots⟩ := hg.element tr p s
      exact .inr ⟨err, ⟨sl, g.liveSlot_eq_some.2 ⟨positive, params ▸ inRange, slots ▸ slot, slotLive⟩⟩,
        (bufferError_congr params larg).trans buffer⟩
    · cases he.symm.trans ht
      exact .inr (round p.i)

/-- A FILL that has gone on after a step does not end with an error in its next one. -/
theorem Gen.KeepsChecks.no_error_after (hg : g.KeepsChecks) {tr tr' : BitVec w → BitVec w} {u : State} (noError : s.err = .ok)
    (ht : g.fillStep tr h s = .next t) (goesOn : t.phase = .exec) (hu : g.fillStep tr' h t = .next u) : u.err = .ok := by
  rcases hg.fillStep ht with ⟨code, rfl, -⟩ | ⟨err, checked⟩
  · cases goesOn
  · rcases hg.fillStep hu with ⟨code, rfl, passed⟩ | ⟨err', -⟩
    · exact passed checked
    · rw [err', err, noError]

end GoesOn

/-- Settles O16: a step that leaves an error code only completes, and only a FILL goes on after a step, its checks passed. -/
theorem errorsAreFoundBeforeAnyChange : Obligations.ErrorsAreFoundBeforeAnyChange := by
  refine ⟨fun i s t noError h error => ?_, fun i s t u _ noError ht goesOn hu => ?_⟩
  · obtain ⟨code, rfl⟩ := exec_error noError h error
    exact s.complete_endedWith code
  · cases fill : i.isFill with
    | false =>
      obtain ⟨ended, -⟩ := exec_nonFill fill ht
      cases ended.symm.trans goesOn
    | true =>
      cases variant : i.variant with
      | v32 =>
        obtain ⟨tr, hs⟩ := exec_fill32 s i fill variant
        obtain ⟨tr', ht'⟩ := exec_fill32 t i fill variant
        exact gen32_keepsChecks.no_error_after noError (hs.symm.trans ht) goesOn (ht'.symm.trans hu)
      | v64 =>
        obtain ⟨tr, hs⟩ := exec_fill64 s i fill variant
        obtain ⟨tr', ht'⟩ := exec_fill64 t i fill variant
        exact gen64_keepsChecks.no_error_after noError (hs.symm.trans ht) goesOn (ht'.symm.trans hu)

/-! ## Reset -/

theorem step_of_resetReq {s : State} (requested : s.resetReq = true) : step s = .next s.doReset := by
  rcases step_cases s with ⟨-, he⟩ | ⟨notRequested, -⟩
  · exact he
  · cases requested.symm.trans notRequested

/-- Settles O54: the reset state field by field. -/
theorem resetTakesPrecedence : Obligations.ResetTakesPrecedence := by
  intro s requested
  have status : s.doReset.status = 0 := by simp [State.status, State.busy, ResultCode.code]
  refine ⟨s.doReset, step_of_resetReq requested, List.length_replicate, fun sl hsl => ?_, List.length_replicate,
    fun sl hsl => ?_, rfl, status, rfl, rfl, rfl, rfl, rfl, fun _ => rfl, rfl, rfl, rfl⟩
  · rw [List.eq_of_mem_replicate hsl]
    rfl
  · rw [List.eq_of_mem_replicate hsl]
    rfl

end Sys2Proof.Machine
end

section
/-! PROOFS. The state a reset leaves (spec 70_reset_and_hazards.md R260, R263; 10_state.md R34): no slot is live, so no handle is
valid, and the state of power-on satisfies the invariant. -/

namespace Sys2Proof.Machine

/-! ## No handle is valid -/

/-- In a set of `n` slots that are all the dead slot `sl`, a handle that is neither 0 nor above `n` names `sl`. -/
theorem handle_of_replicate_dead {α : Type} {n h : Nat} {live : α → Bool} {sl : α} (dead : live sl = false) :
    h = 0 ∨ n < h ∨ ∃ sl', (List.replicate n sl)[h - 1]? = some sl' ∧ live sl' = false := by
  by_cases inRange : h - 1 < n
  · exact .inr (.inr ⟨sl, List.getElem?_replicate_of_lt inRange, dead⟩)
  · omega

theorem State.doReset_badHandle32 (s : State) (h : Nat) : s.doReset.badHandle32 h :=
  handle_of_replicate_dead (live := Slot.live) (sl := Slot.reset32) rfl

theorem State.doReset_badHandle64 (s : State) (h : Nat) : s.doReset.badHandle64 h :=
  handle_of_replicate_dead (live := Slot.live) (sl := Slot.reset64) rfl

/-- A command that has ended with a code has left it in ERR. -/
theorem err_of_endedWith {r : Result} {s : State} {code : ResultCode} (h : ∃ t, r = .next t ∧ EndedWith code s t) :
    ∃ t, r = .next t ∧ t.err = code := by
  obtain ⟨t, ht, ended⟩ := h
  exact ⟨t, ht, ended.err⟩

/-- Settles O55: after a reset every handle is a bad one, and R232 says how the commands end with such a handle. -/
theorem noHandleIsValidAfterReset : Obligations.NoHandleIsValidAfterReset := by
  intro s h positive
  obtain ⟨bad32, bad64, -⟩ := handleAndSlotErrors.1 h s.doReset
  obtain ⟨next32, fill32, destroy32⟩ := bad32 (s.doReset_badHandle32 h)
  obtain ⟨next64, fill64, destroy64⟩ := bad64 (s.doReset_badHandle64 h)
  have notNull : h ≠ 0 := Nat.one_le_iff_ne_zero.1 positive
  exact ⟨err_of_endedWith next32, err_of_endedWith next64, err_of_endedWith (destroy32 notNull),
    err_of_endedWith (destroy64 notNull), fun k hk => err_of_endedWith (fill32 k hk), fun k hk => err_of_endedWith (fill64 k hk)⟩

/-! ## The invariant at power-on -/

/-- Data memory that nothing has written, seen as it is, with no write on the way and no race. -/
theorem viewOk_unwritten (n : Nat) : ViewOk n [] [] [] [] where
  mem_wf := List.Pairwise.nil
  mem_below := nofun
  seen_wf := List.Pairwise.nil
  seen_below := nofun
  unseen_below := nofun
  races_below := nofun
  mem_newest := fun _ _ => rfl
  mem_race := nofun
  race_engine := nofun

theorem State.inv_resetWith {p : Params} (allowed : p.Wf) : (State.resetWith p).Inv :=
  { viewOk_unwritten p.memBytes with
    params := allowed
    slots32_length := List.length_replicate
    slots64_length := List.length_replicate
    slots32_ok := fun _ hsl live => by cases List.eq_of_mem_replicate hsl ▸ live
    slots64_ok := fun _ hsl live => by cases List.eq_of_mem_replicate hsl ▸ live
    busy_err := nofun
    idle_fill := fun _ => ⟨rfl, rfl⟩
    fill32_ok := nofun
    fill64_ok := nofun
    idle_race := fun _ => rfl
    idle_seen := fun _ _ => ⟨rfl, rfl⟩
    idle_ended := nofun
    coherent_running := nofun }

/-- Settles O56: no slot is live, no command runs and nothing is written yet; the vectors' parameters are allowed ones. -/
theorem resetSatisfiesInvariant : Obligations.ResetSatisfiesInvariant :=
  ⟨fun _ allowed => State.inv_resetWith allowed, State.inv_resetWith ((Params.wf_iff _).1 rfl)⟩

end Sys2Proof.Machine
end
